-- ==== Sys2Proof/Word.lean ====
section
/-! DEFINITION. The word types of the MAC codec core (spec/00_scope.md R8, R9). -/

namespace Sys2Proof

/-- A host-visible register, a command word, an operand, a sample or a residual: 32 bits (R9). -/
abbrev Word := BitVec 32

/-- One byte of the bit buffer (R81). -/
abbrev Byte := BitVec 8

/-- A bit cursor or read limit: `POS_WIDTH` = 20 bits (R8). -/
abbrev Cursor := BitVec 20

end Sys2Proof
end

