-- ==== Sys2Proof/Config.lean ====
section
/-! DEFINITION. The parameters of spec/00_scope.md R8, and the free values: what the spec leaves
unspecified (spec/93_implementation_defined.md U1 to U5), each an opaque constant applied to a draw
number, so that no proof can see its value. -/

namespace Sys2Proof.Config

/-- `BUF_BYTES` (R8, a size; P2 takes the default, log entry 19). -/
def bufBytes : Nat := 65536

/-- `CAP_BITS = 8 * BUF_BYTES` (R8). -/
def capBits : Nat := 524288

/-- `CTX_COUNT` (R8, a size; P3 takes the default, log entry 19). -/
def ctxCount : Nat := 8

/-- `B_MIN`, the least legal bit depth (R8). -/
def bMin : Nat := 8

/-- `B_MAX`, the greatest legal bit depth (R8). -/
def bMax : Nat := 24

/-- `LEVEL_MAX`, the highest legal compression level (R8). -/
def levelMax : Nat := 3

/-- `UNARY_MAX`, the longest unary run (R8). -/
def unaryMax : Nat := 32

/-- `QESC`, the quotient at and above which the entropy coder escapes (R8). -/
def qEsc : Nat := 16

/-- `ESC_BITS`, the width of an escaped value (R8). -/
def escBits : Nat := 32

/-- `ADAPT_SHIFT`, the decay shift of the running sum (R8). -/
def adaptShift : Nat := 4

/-- `UCLAMP = 2^26 - 1`, the most the running sum takes in per symbol (R8). -/
def uClamp : Nat := 67108863

/-- `WMIN` (R8). -/
def wMin : Int := -32768

/-- `WMAX` (R8). -/
def wMax : Int := 32767

/-- `ID_VALUE` (R2, R40). -/
def idValue : Word := 0x4D414301#32

/-- The size of the host window in bytes (R82). -/
def windowBytes : Nat := 0x20000

/-- The offset of the buffer region in the host window (R82). -/
def bufferBase : Nat := 0x10000

/-! Free values. Each takes the number of the draw (`State.draws`), so that two draws need not agree. -/

/-- U1: what a host read answers while BUSY where R100 leaves it unspecified. -/
opaque busyRead : Nat → BitVec 32

/-- U2, U5: the cells of the bit buffer after a power-on reset (R320). -/
opaque powerOnCells : Nat → List (Nat × BitVec 8)

/-- U3: the running sum of context `c` after a power-on reset or SOFT_RESET (R61, R261). -/
opaque contextSum : Nat → Nat → BitVec 30

/-- U3: the k parameter of context `c` after a power-on reset or SOFT_RESET (R61, R261). -/
opaque contextK : Nat → Nat → BitVec 5

/-- U3: the filter state of context `c`, each stage's history and coefficients (R61, R261). -/
opaque contextFilter : Nat → Nat → List (List (BitVec 32) × List (BitVec 16))

/-- U4: how many host operations come between a CMD write and the core's step of that command: finite
and otherwise unspecified (R331). -/
opaque commandDelay : Nat → Nat

end Sys2Proof.Config
end

