-- ==== Sys2Proof/Syntax.lean ====
section
/-! DEFINITION. The nineteen commands of MACC-1, one constructor per row of spec/opcode_table.json
(spec/30_encoding.md R124), with the field each shape uses (R122): `n` is the N field (6 bits), `ch` the
CH field (4 bits). The operand A is not part of the command (R121). -/

namespace Sys2Proof

/-- A command of the core. -/
inductive Instr where
  /-- NOP, OP 0x00, shape Z (R260). -/
  | nop
  /-- SOFT_RESET, OP 0x01, shape Z (R261). -/
  | softReset
  /-- CLR_ERR, OP 0x02, shape Z (R262). -/
  | clrErr
  /-- BW_BITS, OP 0x10, shape W (R153). -/
  | bwBits (n : BitVec 6)
  /-- BR_BITS, OP 0x11, shape W (R154). -/
  | brBits (n : BitVec 6)
  /-- BR_SBITS, OP 0x12, shape W (R155). -/
  | brSbits (n : BitVec 6)
  /-- BW_UNARY, OP 0x13, shape Z (R156). -/
  | bwUnary
  /-- BR_UNARY, OP 0x14, shape Z (R157). -/
  | brUnary
  /-- BW_FLUSH, OP 0x15, shape Z (R158). -/
  | bwFlush
  /-- BR_ALIGN, OP 0x16, shape Z (R159). -/
  | brAlign
  /-- EC_ENC, OP 0x20, shape C (R190). -/
  | ecEnc (ch : BitVec 4)
  /-- EC_DEC, OP 0x21, shape C (R191). -/
  | ecDec (ch : BitVec 4)
  /-- EC_RESET, OP 0x22, shape C (R192). -/
  | ecReset (ch : BitVec 4)
  /-- FC_ENC, OP 0x30, shape C (R220). -/
  | fcEnc (ch : BitVec 4)
  /-- FC_DEC, OP 0x31, shape C (R221). -/
  | fcDec (ch : BitVec 4)
  /-- FC_RESET, OP 0x32, shape C (R222). -/
  | fcReset (ch : BitVec 4)
  /-- FRAME_START, OP 0x40, shape Z (R240). -/
  | frameStart
  /-- SMP_ENC, OP 0x41, shape C (R241). -/
  | smpEnc (ch : BitVec 4)
  /-- SMP_DEC, OP 0x42, shape C (R242). -/
  | smpDec (ch : BitVec 4)
deriving DecidableEq, Repr

end Sys2Proof
end

