-- ==== Sys2Proof/WellFormed.lean ====
section
/-! DEFINITION. Which commands an encoding can carry: a shape-W command has `N <= 32`
(spec/30_encoding.md R127). Every CH value 0 to 15 is encodable (R126 asks nothing of it in shape C); whether
the channel exists is an execution check (spec/60_exceptions.md R282). -/

namespace Sys2Proof

/-- The command is one that decoding can answer (R127, R128). -/
def Instr.wellFormed : Instr → Bool
  | .bwBits n => n.toNat ≤ 32
  | .brBits n => n.toNat ≤ 32
  | .brSbits n => n.toNat ≤ 32
  | .nop => true
  | .softReset => true
  | .clrErr => true
  | .bwUnary => true
  | .brUnary => true
  | .bwFlush => true
  | .brAlign => true
  | .ecEnc _ => true
  | .ecDec _ => true
  | .ecReset _ => true
  | .fcEnc _ => true
  | .fcDec _ => true
  | .fcReset _ => true
  | .frameStart => true
  | .smpEnc _ => true
  | .smpDec _ => true

end Sys2Proof
end

