-- ==== Sys2Proof/Decode.lean ====
section
/-! DEFINITION. The decoder (total on every 32-bit word, spec/30_encoding.md R128) and, after it, the encoder,
both written from the field layout of R120 and the opcode map of R124. -/

namespace Sys2Proof

/-- Why a word is no command: the three causes of spec/30_encoding.md R125, R126 and R127. -/
inductive Illegal where
  /-- Reserved OP (R125, cause 1). -/
  | opcode
  /-- RSV non-zero, or CH or N non-zero where the shape leaves it unused (R126, cause 2). -/
  | reservedField
  /-- Shape W with N > 32 (R127, cause 3). -/
  | operand
deriving DecidableEq, Repr

/-- What a word decodes to (R128). -/
inductive Decoded where
  | cmd (i : Instr)
  | illegal (why : Illegal)
deriving DecidableEq, Repr

/-- OP, bits [31:24] (R120). -/
def opField (w : Word) : BitVec 8 := w.extractLsb' 24 8

/-- CH, bits [23:20] (R120). -/
def chField (w : Word) : BitVec 4 := w.extractLsb' 20 4

/-- RSV, bits [19:6] (R120). -/
def rsvField (w : Word) : BitVec 14 := w.extractLsb' 6 14

/-- N, bits [5:0] (R120). -/
def nField (w : Word) : BitVec 6 := w.extractLsb' 0 6

/-- A row of the opcode map with its field shape (R122): the command, given the field the shape uses. -/
inductive Row where
  | shapeZ (i : Instr)
  | shapeW (mk : BitVec 6 → Instr)
  | shapeC (mk : BitVec 4 → Instr)

/-- The opcode map (R124); every other OP is reserved (R125). -/
def opcodeRow : Nat → Option Row
  | 0x00 => some (.shapeZ .nop)
  | 0x01 => some (.shapeZ .softReset)
  | 0x02 => some (.shapeZ .clrErr)
  | 0x10 => some (.shapeW .bwBits)
  | 0x11 => some (.shapeW .brBits)
  | 0x12 => some (.shapeW .brSbits)
  | 0x13 => some (.shapeZ .bwUnary)
  | 0x14 => some (.shapeZ .brUnary)
  | 0x15 => some (.shapeZ .bwFlush)
  | 0x16 => some (.shapeZ .brAlign)
  | 0x20 => some (.shapeC .ecEnc)
  | 0x21 => some (.shapeC .ecDec)
  | 0x22 => some (.shapeC .ecReset)
  | 0x30 => some (.shapeC .fcEnc)
  | 0x31 => some (.shapeC .fcDec)
  | 0x32 => some (.shapeC .fcReset)
  | 0x40 => some (.shapeZ .frameStart)
  | 0x41 => some (.shapeC .smpEnc)
  | 0x42 => some (.shapeC .smpDec)
  | _ => none

/-- Decode a command word: the opcode check (R125), then the reserved fields (R126), then the range of N
(R127), in that order (R128). -/
def decode (w : Word) : Decoded :=
  match opcodeRow (opField w).toNat with
  | none => .illegal .opcode
  | some (.shapeZ i) =>
    if rsvField w = 0#14 ∧ chField w = 0#4 ∧ nField w = 0#6 then .cmd i else .illegal .reservedField
  | some (.shapeW mk) =>
    if rsvField w = 0#14 ∧ chField w = 0#4 then
      if (nField w).toNat ≤ 32 then .cmd (mk (nField w)) else .illegal .operand
    else .illegal .reservedField
  | some (.shapeC mk) =>
    if rsvField w = 0#14 ∧ nField w = 0#6 then .cmd (mk (chField w)) else .illegal .reservedField

/-- A command word from its fields, RSV zero (R120). -/
def packWord (op : BitVec 8) (ch : BitVec 4) (n : BitVec 6) : Word := op ++ ch ++ 0#14 ++ n

/-- The word of a command (R120, R124). -/
def encode : Instr → Word
  | .nop => packWord 0x00#8 0#4 0#6
  | .softReset => packWord 0x01#8 0#4 0#6
  | .clrErr => packWord 0x02#8 0#4 0#6
  | .bwBits n => packWord 0x10#8 0#4 n
  | .brBits n => packWord 0x11#8 0#4 n
  | .brSbits n => packWord 0x12#8 0#4 n
  | .bwUnary => packWord 0x13#8 0#4 0#6
  | .brUnary => packWord 0x14#8 0#4 0#6
  | .bwFlush => packWord 0x15#8 0#4 0#6
  | .brAlign => packWord 0x16#8 0#4 0#6
  | .ecEnc ch => packWord 0x20#8 ch 0#6
  | .ecDec ch => packWord 0x21#8 ch 0#6
  | .ecReset ch => packWord 0x22#8 ch 0#6
  | .fcEnc ch => packWord 0x30#8 ch 0#6
  | .fcDec ch => packWord 0x31#8 ch 0#6
  | .fcReset ch => packWord 0x32#8 ch 0#6
  | .frameStart => packWord 0x40#8 0#4 0#6
  | .smpEnc ch => packWord 0x41#8 ch 0#6
  | .smpDec ch => packWord 0x42#8 ch 0#6

/-- The 32-bit command word of an opcode-table row's bits: a command is one 32-bit register write, so there is
one word and no byte layout (R120, R121); bits above `nbits` are 0. -/
def tableWord (nbits w : Nat) : Word := BitVec.ofNat 32 (w % 2 ^ nbits)

/-- The instruction the decoder reads from the bits of an opcode-table row. -/
def decodeTableWord (nbits w : Nat) : Option Instr :=
  match decode (tableWord nbits w) with
  | .cmd i => some i
  | .illegal _ => none

end Sys2Proof
end

