-- ==== Sys2Proof/Machine/State.lean ====
section
/-! DEFINITION. The state of the machine: everything spec/10_state.md R30 gives the core (registers, command
latch and busy state, channel contexts, bit buffer), the host agent's remaining operations and the answers
it got (R31), the reset input (spec/70_reset_and_hazards.md R320), and the model's own two counters. -/

namespace Sys2Proof.Machine

/-- One adaptive FIR stage of a channel context (spec/10_state.md R60(b)): `h` the history, the most recent
stage input first; `w` the coefficients, `w[i]` the weight of `h[i]`. Both are signed. -/
structure Stage where
  h : List (BitVec 32)
  w : List (BitVec 16)
deriving DecidableEq, Repr

/-- A channel context (spec/10_state.md R60): the coder state `S`, `K` and the filter state, the stages of the
active level first to last. -/
structure Ctx where
  S : BitVec 30
  K : BitVec 5
  stages : List Stage
deriving DecidableEq, Repr

/-- The fourteen error causes (spec/60_exceptions.md R281). -/
inductive Cause where
  | illegalOpcode
  | reservedField
  | illegalOperand
  | notConfigured
  | unsupportedFormat
  | badChannel
  | sampleRange
  | truncated
  | runawayUnary
  | badEscape
  | sampleOutOfRange
  | badPadding
  | noRoom
  | overrun
deriving DecidableEq, Repr

/-- The width of a host bus access (spec/20_memory.md R97). -/
inductive Width where
  | w8
  | w16
  | w32
deriving DecidableEq, Repr

/-- One operation of the host (spec/30_encoding.md R130, spec/20_memory.md R82 to R85), or an event on the reset
input (spec/70_reset_and_hazards.md R320). Offsets are into the core's window (spec/00_scope.md R9). -/
inductive HostOp where
  /-- A bus read of the given width at an offset. -/
  | read (width : Width) (offset : Nat)
  /-- A bus write of the low bits of `v`, of the given width, at an offset. -/
  | write (width : Width) (offset : Nat) (v : Word)
  /-- `WAIT`: read STATUS, again until bit 0 (BUSY) reads 0. -/
  | wait
  /-- The reset input is asserted. -/
  | assertReset
  /-- The reset input is released. -/
  | releaseReset
deriving DecidableEq, Repr

/-- The state of the machine. -/
structure State where
  /-- STATUS.CFG_VALID (R41). -/
  cfgValid : Bool
  /-- ERR bits [8:0] (R42). -/
  err : BitVec 9
  /-- CAUSE bits [19:0]: CODE [7:0], OP [15:8], CH [19:16] (R43). -/
  cause : BitVec 20
  /-- WPOS (R45). -/
  wpos : Cursor
  /-- RPOS (R46). -/
  rpos : Cursor
  /-- RLIMIT (R47). -/
  rlimit : Cursor
  /-- FRAME_WPOS (R48). -/
  frameWpos : Cursor
  /-- FRAME_RPOS (R49). -/
  frameRpos : Cursor
  /-- ARG0 (R50). -/
  arg0 : Word
  /-- CMD_COUNT (R51). -/
  cmdCount : Word
  /-- RESULT (R52). -/
  result : Word
  /-- CONFIG (R53). -/
  config : Word
  /-- ACTIVE (R54). -/
  active : Word
  /-- DBG_SEL bits [3:0] (R55). -/
  dbgSel : BitVec 4
  /-- CMDL, the latched command word (R33). -/
  cmdl : Word
  /-- ARGL, the latched operand (R33). -/
  argl : Word
  /-- STATUS.BUSY (R34). -/
  busy : Bool
  /-- The channel contexts (R60). -/
  ctxs : Vector Ctx 8
  /-- The bit buffer BUF (spec/20_memory.md R81): the bytes that are not 0, addresses rising. -/
  buf : List Host.Cell
  /-- The reset input is asserted (spec/70_reset_and_hazards.md R320). -/
  resetInput : Bool
  /-- The host operations still to come (R31; log entry 5). -/
  host : List HostOp
  /-- What the host's reads returned, newest first (spec/20_memory.md R110; log entry 9). -/
  answers : List Word
  /-- The model's own: host operations before the core's step of the command in flight (log entry 6). -/
  delay : Nat
  /-- The model's own: how many free values have been drawn (log entry 14). -/
  draws : Nat
deriving DecidableEq, Repr

/-- Why a step stops with a fault: never. The core has no state in which it hangs or stops
(spec/93_implementation_defined.md, 'stuck': none; spec/60_exceptions.md R289), so there is no constructor, which
is safe: every error of R281 is a next state. -/
inductive Fault where
deriving DecidableEq, Repr

/-- Why a step has no meaning. All but the first are behaviours of the host, never of a command. -/
inductive Refusal where
  /-- An arm of `exec` that has no meaning yet. Raised by no arm. Safe. -/
  | notModelled (mnemonic : String)
  /-- F1: a register-region access that is not 32 bits wide or not 4-byte aligned, which R83 says a model
  refuses (a bus error that changes no state). Raised by a bus access. Safe: the run stops. -/
  | registerBusError
  /-- F2: a buffer-region access that is not naturally aligned, which R85 says a model refuses. Raised by a
  bus access. Safe: the run stops. -/
  | bufferBusError
  /-- F3: a bus address outside the window, which is the platform's (R101). Raised by a bus access. Safe. -/
  | outsideWindow
  /-- F4: a host access while the reset input is asserted (R320). Raised by a host operation. Safe. -/
  | accessDuringReset
deriving DecidableEq, Repr

/-- What a context that nothing has set holds in `State.reset` (DESIGN CHOICE, log entry 1: R61 leaves it
unspecified and unobservable). -/
def Ctx.blank : Ctx := { S := 0, K := 0, stages := [] }

/-- The machine right after reset (spec/70_reset_and_hazards.md R320), with nothing for the host to do. The
contexts (log entry 1) and the buffer's zeros (log entry 2) are DESIGN CHOICE; so are the model's own fields
(log entries 6 and 14). -/
def State.reset : State where
  cfgValid := false
  err := 0
  cause := 0
  wpos := 0
  rpos := 0
  rlimit := 0
  frameWpos := 0
  frameRpos := 0
  arg0 := 0
  cmdCount := 0
  result := 0
  config := 0x00001000#32
  active := 0
  dbgSel := 0
  cmdl := 0
  argl := 0
  busy := false
  ctxs := Vector.replicate 8 Ctx.blank
  buf := []
  resetInput := false
  host := []
  answers := []
  delay := 0
  draws := 0

end Sys2Proof.Machine
end

