-- ==== Sys2Proof/Machine/Flags.lean ====
section
/-! DEFINITION. The status bits. The core has no arithmetic flags (spec/10_state.md R64): its only status bits
are STATUS (R41), the ERR bits (R42) and the cause codes that set them (spec/60_exceptions.md R281). -/

namespace Sys2Proof.Machine

/-- The code CAUSE.CODE records (R281). -/
def Cause.code : Cause → BitVec 8
  | .illegalOpcode => 1
  | .reservedField => 2
  | .illegalOperand => 3
  | .notConfigured => 4
  | .unsupportedFormat => 5
  | .badChannel => 6
  | .sampleRange => 7
  | .truncated => 8
  | .runawayUnary => 9
  | .badEscape => 10
  | .sampleOutOfRange => 11
  | .badPadding => 12
  | .noRoom => 13
  | .overrun => 14

/-- The ERR bit a cause sets (R281). -/
def Cause.errBit : Cause → Nat
  | .illegalOpcode => 0
  | .reservedField => 0
  | .illegalOperand => 0
  | .notConfigured => 1
  | .unsupportedFormat => 2
  | .badChannel => 3
  | .sampleRange => 3
  | .truncated => 4
  | .runawayUnary => 5
  | .badEscape => 5
  | .sampleOutOfRange => 5
  | .badPadding => 5
  | .noRoom => 6
  | .overrun => 7

/-- The ERR value with only this cause's bit set. -/
def Cause.errMask (k : Cause) : BitVec 9 := 1#9 <<< k.errBit

/-- ERR bit 8, SKIPPED (R42, spec/60_exceptions.md R285). -/
def skippedMask : BitVec 9 := 1#9 <<< 8

/-- The cause of an illegal word (spec/30_encoding.md R125 to R127). -/
def illegalCause : Illegal → Cause
  | .opcode => .illegalOpcode
  | .reservedField => .reservedField
  | .operand => .illegalOperand

/-- CAUSE as RecordError forms it: `k | (w[31:24] << 8) | (w[23:20] << 16)` (spec/60_exceptions.md R283). -/
def causeWord (k : Cause) (w : Word) : BitVec 20 := chField w ++ opField w ++ k.code

/-- STATUS.ERR_PEND: exactly when ERR is not 0 (R41). -/
def State.errPend (s : State) : Bool := s.err != 0#9

/-- The STATUS register: BUSY, CFG_VALID, ERR_PEND in bits 0, 1, 2; the rest read 0 (R41). -/
def State.status (s : State) : Word :=
  0#29 ++ BitVec.ofBool s.errPend ++ BitVec.ofBool s.cfgValid ++ BitVec.ofBool s.busy

end Sys2Proof.Machine
end

