-- ==== Sys2Proof/Machine/Operands.lean ====
section
/-! DEFINITION. The values commands compute with: the primitives of spec/00_scope.md R11, the readings of the
operand A (spec/30_encoding.md R123), the fields of CONFIG and ACTIVE (spec/10_state.md R53, R54), bit strings in
stream order (spec/20_memory.md R91), the zig-zag map and the code of spec/42_entropy.md. -/

namespace Sys2Proof.Machine

/-! Integer primitives (R11). -/

/-- The 32-bit word of `wrap32(v)` and of `u32(v)` (R11): the same 32 bits, which `toInt` reads as the one and
`toNat` as the other. -/
def wrap32 (v : Int) : Word := BitVec.ofInt 32 v

/-- `clamp(lo, hi, v)` (R11). -/
def clamp (lo hi v : Int) : Int := if v < lo then lo else if hi < v then hi else v

/-- `sgn(v)` (R11). -/
def sgn (v : Int) : Int := if 0 < v then 1 else if v < 0 then -1 else 0

/-- `bitlen(v)`: 0 for 0, else the least n with `v < 2^n` (R11). -/
def bitlen (v : Nat) : Nat := if v = 0 then 0 else Nat.log2 v + 1

/-- `sext_N(v)`: the N-bit value v read as two's complement, `sext_0(v) = 0` (R11). -/
def sext (n v : Nat) : Int :=
  match n with
  | 0 => 0
  | m + 1 => if v.testBit m then (v : Int) - (2 : Int) ^ (m + 1) else v

/-! Fields of CONFIG and ACTIVE (spec/10_state.md R53, R54). -/

/-- LEVEL, bits [3:0]. -/
def cfgLevel (c : Word) : Nat := (c.extractLsb' 0 4).toNat

/-- DEPTH, bits [12:8]: the bit depth B. -/
def cfgDepth (c : Word) : Nat := (c.extractLsb' 8 5).toNat

/-- CHM1 + 1, bits [19:16]: the channel count NCH. -/
def cfgChannels (c : Word) : Nat := (c.extractLsb' 16 4).toNat + 1

/-- The reserved bits [7:4], [15:13] and [31:20] are all 0 (R53). -/
def cfgReservedZero (c : Word) : Bool :=
  c.extractLsb' 4 4 == 0#4 && c.extractLsb' 13 3 == 0#3 && c.extractLsb' 20 12 == 0#12

/-- FRAME_START accepts this CONFIG value (spec/44_frame_pipeline.md R240). -/
def cfgLegal (c : Word) : Bool :=
  cfgReservedZero c && decide (cfgLevel c ≤ Config.levelMax) &&
    decide (Config.bMin ≤ cfgDepth c) && decide (cfgDepth c ≤ Config.bMax) &&
    decide (cfgChannels c ≤ Config.ctxCount)

/-- The B-bit signed range, `-2^(B-1) <= s <= 2^(B-1) - 1` (spec/43_filter.md R220, R221). -/
def inSampleRange (b : Nat) (v : Int) : Bool :=
  decide (-(2 : Int) ^ (b - 1) ≤ v) && decide (v ≤ (2 : Int) ^ (b - 1) - 1)

/-! Bit strings, first-transmitted bit first (spec/00_scope.md R10). -/

/-- The low `n` bits of `v`, most significant first: what `WriteField(n, v mod 2^n)` stores
(spec/20_memory.md R91). -/
def fieldBits : Nat → Nat → List Bool
  | 0, _ => []
  | n + 1, v => v.testBit n :: fieldBits n v

/-- The unary code of q: q ones and a zero (spec/41_bitio.md R156). -/
def unaryBits (q : Nat) : List Bool := List.replicate q true ++ [false]

/-- The number of pad bits from a cursor to the next byte boundary: `(8 - (p mod 8)) mod 8`
(spec/41_bitio.md R158, R159). -/
def padLength (p : Nat) : Nat := (8 - p % 8) % 8

/-! The entropy code (spec/42_entropy.md). -/

/-- `zz(r) = u32((r << 1) xor (r >> 31))` (R180). -/
def zigzag (r : Word) : Word := (r <<< 1) ^^^ r.sshiftRight 31

/-- `unzz(u) = s32((u >> 1) xor (-(u and 1)))` (R181). -/
def unzigzag (u : Word) : Word := (u >>> 1) ^^^ (-(u &&& 1#32))

/-- The code of a value `u` under parameter `k` (R183): unary quotient, a zero and `k` low bits, or the escape. -/
def codeBits (k u : Nat) : List Bool :=
  if u >>> k < Config.qEsc then List.replicate (u >>> k) true ++ false :: fieldBits k u
  else List.replicate Config.qEsc true ++ fieldBits Config.escBits u

/-- `KOf(S) = min(B, bitlen(S >> (ADAPT_SHIFT + 1)))` (R187). -/
def kOf (b S : Nat) : Nat := min b (bitlen (S >>> (Config.adaptShift + 1)))

/-- `S0(B) = 16 * 2^(B >> 1)` (R193). -/
def initialSum (b : Nat) : Nat := 16 * 2 ^ (b >>> 1)

/-- `S - (S >> ADAPT_SHIFT) + min(u, UCLAMP)`, exactly (R186). -/
def nextSum (S u : Nat) : Nat := S - (S >>> Config.adaptShift) + min u Config.uClamp

end Sys2Proof.Machine
end

