-- ==== Sys2Proof/Machine/Ops.lean ====
section
/-! DEFINITION. The named operations over the bit buffer, the cursors, the registers and the contexts, and the
recording of an error with its return (spec/20_memory.md, spec/60_exceptions.md, spec/70_reset_and_hazards.md). -/

namespace Sys2Proof.Machine

/-! The bit buffer: the bytes that are not 0, addresses rising (one canonical form). -/

/-- What a byte of the buffer that is not listed reads as (DESIGN CHOICE for the power-on contents, which
spec/70_reset_and_hazards.md R320 leaves unspecified; log entry 2). -/
def unlistedByte : Byte := 0#8

/-- `BUF[a]`. -/
def readByte : List Host.Cell → Nat → Byte
  | [], _ => unlistedByte
  | (b, v) :: m, a => if a = b then v else readByte m a

/-- The buffer with `BUF[a]` unlisted. -/
def dropByte (m : List Host.Cell) (a : Nat) : List Host.Cell := m.filter fun c => c.1 != a

/-- The buffer with a cell put before the first cell of a higher address. -/
def placeByte : List Host.Cell → Nat → Byte → List Host.Cell
  | [], a, v => [(a, v)]
  | (b, w) :: m, a, v => if a < b then (a, v) :: (b, w) :: m else (b, w) :: placeByte m a v

/-- The buffer with `BUF[a] <- v`: what the address held is dropped, and the value is listed unless it is what an
unlisted byte reads as. -/
def insertByte (m : List Host.Cell) (a : Nat) (v : Byte) : List Host.Cell :=
  if v = unlistedByte then dropByte m a else placeByte (dropByte m a) a v

/-- `BUF[a] <- v` for an address of the buffer; there is no byte at or above `BUF_BYTES` to write (R81). -/
def writeByte (m : List Host.Cell) (a : Nat) (v : Byte) : List Host.Cell :=
  if a < Config.bufBytes then insertByte m a v else m

/-- The buffer holding the given cells, later ones first, in the canonical form. -/
def ofCells : List Host.Cell → List Host.Cell
  | [] => []
  | (a, v) :: cs => writeByte (ofCells cs) a v

/-- Every address lies below its successors. -/
def cellsRising : List Host.Cell → Bool
  | [] => true
  | (a, _) :: m => m.all (fun c => decide (a < c.1)) && cellsRising m

/-- The canonical form: addresses of the buffer, strictly rising, no cell holding the unlisted value. -/
def bufWf (m : List Host.Cell) : Bool :=
  cellsRising m && m.all (fun c => decide (c.1 < Config.bufBytes) && decide (c.2 ≠ unlistedByte))

/-- The byte with bit `i` set to `b`, the other bits unchanged. -/
def setBit (v : Byte) (i : Nat) (b : Bool) : Byte :=
  if b then v ||| (1#8 <<< i) else v &&& ~~~(1#8 <<< i)

/-- `BitRead(p) = BUF[p >> 3][7 - (p mod 8)]` (spec/20_memory.md R90). -/
def bitRead (m : List Host.Cell) (p : Nat) : Bool := (readByte m (p / 8)).getLsbD (7 - p % 8)

/-- `BitWrite(p, b)` (R90). -/
def bitWrite (m : List Host.Cell) (p : Nat) (b : Bool) : List Host.Cell :=
  writeByte m (p / 8) (setBit (readByte m (p / 8)) (7 - p % 8) b)

/-- The bits stored at p, p+1, ... in order (R91). -/
def writeBits (m : List Host.Cell) : Nat → List Bool → List Host.Cell
  | _, [] => m
  | p, b :: bs => writeBits (bitWrite m p b) (p + 1) bs

/-- `MemRead(a, n)`, little-endian (R87, R95). -/
def memRead (m : List Host.Cell) (a : Nat) : Nat → Nat
  | 0 => 0
  | n + 1 => (readByte m a).toNat + 256 * memRead m (a + 1) n

/-- `MemWrite(a, n, v)`, little-endian (R87, R95). -/
def memWrite (m : List Host.Cell) (a : Nat) : Nat → Nat → List Host.Cell
  | 0, _ => m
  | n + 1, v => memWrite (writeByte m a (BitVec.ofNat 8 v)) (a + 1) n (v / 256)

/-! Reading bits (spec/20_memory.md R91, spec/41_bitio.md R152). `limit` is `min(RLIMIT, CAP_BITS)`. -/

/-- What a read of bits gives: a value and the cursor after it, or the cause it raises. -/
inductive Taken where
  | got (v p : Nat)
  | failed (k : Cause)
deriving DecidableEq, Repr

/-- `ReadBit()` at p: no bit at or beyond the limit (R91). -/
def readBit (m : List Host.Cell) (limit p : Nat) : Option Bool :=
  if limit ≤ p then none else some (bitRead m p)

/-- `ReadField(n)` from p, with `v` the value read so far (R91). -/
def readField (m : List Host.Cell) (limit : Nat) : Nat → Nat → Nat → Taken
  | 0, p, v => .got v p
  | n + 1, p, v =>
    match readBit m limit p with
    | none => .failed .truncated
    | some b => readField m limit n (p + 1) (2 * v + b.toNat)

/-- BR_UNARY's loop (spec/41_bitio.md R157): `c` ones read so far, at most `n` bits more before the run is one
longer than `UNARY_MAX`. -/
def readUnary (m : List Host.Cell) (limit : Nat) : Nat → Nat → Nat → Taken
  | 0, _, _ => .failed .runawayUnary
  | n + 1, p, c =>
    match readBit m limit p with
    | none => .failed .truncated
    | some false => .got c (p + 1)
    | some true => readUnary m limit n (p + 1) (c + 1)

/-- BR_ALIGN's loop (spec/41_bitio.md R159): `n` pad bits from p, each of them 0. -/
def readPad (m : List Host.Cell) (limit : Nat) : Nat → Nat → Taken
  | 0, p => .got 0 p
  | n + 1, p =>
    match readBit m limit p with
    | none => .failed .truncated
    | some true => .failed .badPadding
    | some false => readPad m limit n (p + 1)

/-- The quotient of a code (spec/42_entropy.md R184): `q` ones read so far, at most `n` more; `QESC` ones end it
without a zero. -/
def readQuotient (m : List Host.Cell) (limit : Nat) : Nat → Nat → Nat → Taken
  | 0, p, q => .got q p
  | n + 1, p, q =>
    match readBit m limit p with
    | none => .failed .truncated
    | some false => .got q (p + 1)
    | some true => readQuotient m limit n (p + 1) (q + 1)

/-- Decoding of a code under parameter `k` from p (spec/42_entropy.md R184, R185). -/
def readCode (m : List Host.Cell) (limit k p : Nat) : Taken :=
  match readQuotient m limit Config.qEsc p 0 with
  | .failed c => .failed c
  | .got q p' =>
    if q = Config.qEsc then
      match readField m limit Config.escBits p' 0 with
      | .failed c => .failed c
      | .got u p'' => if u >>> k < Config.qEsc then .failed .badEscape else .got u p''
    else
      match readField m limit k p' 0 with
      | .failed c => .failed c
      | .got r p'' => .got (q * 2 ^ k + r) p''

/-! Registers and contexts. -/

/-- The level the commands run at: ACTIVE's (spec/10_state.md R54). -/
def State.level (s : State) : Nat := cfgLevel s.active

/-- The bit depth B: ACTIVE's (R54). -/
def State.depth (s : State) : Nat := cfgDepth s.active

/-- The channel count NCH: ACTIVE's (R54). -/
def State.channels (s : State) : Nat := cfgChannels s.active

/-- `min(RLIMIT, CAP_BITS)` (spec/20_memory.md R91). -/
def State.readLimit (s : State) : Nat := min s.rlimit.toNat Config.capBits

/-- `ctx[c]` (R60). There are `CTX_COUNT` contexts; above them nothing is held (log entry 13). -/
def State.ctx (s : State) (c : Nat) : Ctx := (s.ctxs[c]?).getD Ctx.blank

/-- `ctx[c] <- x`. -/
def State.setCtx (s : State) (c : Nat) (x : Ctx) : State := { s with ctxs := s.ctxs.setIfInBounds c x }

/-! The end of a command (spec/00_scope.md R13): a working copy that becomes the state, or a raise. -/

/-- What a command's pseudocode comes to: the working copy, or the cause it raises. -/
inductive Effect where
  | done (s : State)
  | raised (k : Cause)
deriving DecidableEq, Repr

/-- TAKING AN ERROR: `RecordError(k, w)` (spec/60_exceptions.md R283). CAUSE records the first error since ERR was
0, ERR gains the cause's bit, and nothing else changes (R280). -/
def State.recordError (s : State) (k : Cause) (w : Word) : State :=
  { s with
    err := s.err ||| k.errMask
    cause := if s.err = 0#9 then causeWord k w else s.cause }

/-- THE RETURN: ERR and CAUSE become 0 (spec/45_control.md R262, spec/60_exceptions.md R288). -/
def State.clearError (s : State) : State := { s with err := 0#9, cause := 0#20 }

/-- The command completed: `CMD_COUNT <- CMD_COUNT + 1`, modulo 2^32 (spec/60_exceptions.md R282 step 7,
spec/10_state.md R51). -/
def State.count (s : State) : State := { s with cmdCount := s.cmdCount + 1#32 }

/-- Commit the working copy and count the command, or record the error in the state the command found
(spec/00_scope.md R13, spec/60_exceptions.md R282). The word recorded is the command's own. -/
def finish (i : Instr) (s : State) : Effect → Host.Outcome State Fault Refusal
  | .done t => .next t.count
  | .raised k => .next (s.recordError k (encode i))

/-- The checks every shape-C command shares: NOCFG, then SHAPE (spec/60_exceptions.md R282 steps 4 and 5); then
the command's own pseudocode on `ctx[CH]`. -/
def onContext (s : State) (ch : BitVec 4) (body : Ctx → Effect) : Effect :=
  if s.cfgValid = false then .raised .notConfigured
  else if s.channels ≤ ch.toNat then .raised .badChannel
  else body (s.ctx ch.toNat)

/-- The check of a shape-W command's N (spec/60_exceptions.md R282 step 3, spec/30_encoding.md R127). -/
def onWidth (n : BitVec 6) (body : Nat → Effect) : Effect :=
  if 32 < n.toNat then .raised .illegalOperand else body n.toNat

/-- Store bits at WPOS: the room check of spec/41_bitio.md R151 on the whole length, then `WriteField`s
(spec/20_memory.md R91). -/
def State.store (s : State) (bits : List Bool) : Effect :=
  if Config.capBits < s.wpos.toNat + bits.length then .raised .noRoom
  else .done { s with
    buf := writeBits s.buf s.wpos.toNat bits
    wpos := BitVec.ofNat 20 (s.wpos.toNat + bits.length) }

/-- Continue with a value read at RPOS, RPOS moved past it, or raise (spec/41_bitio.md R150, R152). -/
def State.take (s : State) (t : Taken) (body : State → Nat → Effect) : Effect :=
  match t with
  | .failed k => .raised k
  | .got v p => body { s with rpos := BitVec.ofNat 20 p } v

/-! The coder state of a context (spec/42_entropy.md). -/

/-- `CoderUpdate(c, u)` (R186). -/
def coderUpdate (b u : Nat) (c : Ctx) : Ctx :=
  let S := BitVec.ofNat 30 (nextSum c.S.toNat u)
  { c with S := S, K := BitVec.ofNat 5 (kOf b S.toNat) }

/-- The initial coder state for bit depth `b` (R193), the filter state kept (R192). -/
def coderReset (b : Nat) (c : Ctx) : Ctx :=
  { c with S := BitVec.ofNat 30 (initialSum b), K := BitVec.ofNat 5 (kOf b (initialSum b)) }

/-! Reset (spec/70_reset_and_hazards.md R320). -/

/-- Context `c` as draw `n` leaves it: unspecified (R61; free value, log entry 3). -/
def drawContext (n c : Nat) : Ctx where
  S := Config.contextSum n c
  K := Config.contextK n c
  stages := (Config.contextFilter n c).map fun st => { h := st.1, w := st.2 }

/-- All contexts as draw `n` leaves them. -/
def drawContexts (n : Nat) : Vector Ctx 8 := Vector.ofFn fun c => drawContext n c.val

/-- SOFT_RESET's column of R320: every register, the latch and the contexts; the buffer and the host's own side
are kept (spec/45_control.md R261). -/
def State.softReset (s : State) : State :=
  { State.reset with
    ctxs := drawContexts s.draws
    buf := s.buf
    resetInput := s.resetInput
    host := s.host
    answers := s.answers
    draws := s.draws + 1 }

/-- The power-on column of R320: as SOFT_RESET, and the buffer's contents unspecified too (free value, log
entry 4). A command in flight is discarded (R322). -/
def State.powerOnReset (s : State) : State :=
  { s.softReset with buf := ofCells (Config.powerOnCells s.draws) }

end Sys2Proof.Machine
end

