-- ==== Sys2Proof/Machine/Bus.lean ====
section
/-! DEFINITION. The host's side: the register map (spec/10_state.md R35 to R57), bus accesses of the window
(spec/20_memory.md R82 to R100), the issue of a command (spec/60_exceptions.md R282), the reset input
(spec/70_reset_and_hazards.md R320, R322), and the pseudo-instructions (spec/30_encoding.md R130). -/

namespace Sys2Proof.Machine

/-- The host-visible registers (spec/10_state.md R35). -/
inductive Reg where
  | id
  | status
  | err
  | cause
  | cmd
  | wpos
  | rpos
  | rlimit
  | frameWpos
  | frameRpos
  | arg0
  | cmdCount
  | result
  | config
  | active
  | dbgSel
  | dbgK
  | dbgS
deriving DecidableEq, Repr

/-- The register at an offset of the window (R35); the other offsets of the region hold none
(spec/20_memory.md R84). -/
def regAt : Nat → Option Reg
  | 0x000 => some .id
  | 0x004 => some .status
  | 0x008 => some .err
  | 0x00C => some .cause
  | 0x010 => some .cmd
  | 0x014 => some .wpos
  | 0x018 => some .rpos
  | 0x01C => some .rlimit
  | 0x020 => some .frameWpos
  | 0x024 => some .frameRpos
  | 0x028 => some .arg0
  | 0x02C => some .cmdCount
  | 0x030 => some .result
  | 0x034 => some .config
  | 0x038 => some .active
  | 0x03C => some .dbgSel
  | 0x040 => some .dbgK
  | 0x044 => some .dbgS
  | _ => none

/-- The context DBG_K and DBG_S show, if they show one: `CFG_VALID = 1` and `SEL < CTX_COUNT` (R56, R57). -/
def State.debugCtx (s : State) : Option Ctx :=
  if s.cfgValid = true ∧ s.dbgSel.toNat < Config.ctxCount then some (s.ctx s.dbgSel.toNat) else none

/-- What a read of a register returns while `BUSY = 0` (R40 to R57). -/
def State.readReg (s : State) : Reg → Word
  | .id => Config.idValue
  | .status => s.status
  | .err => s.err.setWidth 32
  | .cause => s.cause.setWidth 32
  | .cmd => 0#32
  | .wpos => s.wpos.setWidth 32
  | .rpos => s.rpos.setWidth 32
  | .rlimit => s.rlimit.setWidth 32
  | .frameWpos => s.frameWpos.setWidth 32
  | .frameRpos => s.frameRpos.setWidth 32
  | .arg0 => s.arg0
  | .cmdCount => s.cmdCount
  | .result => s.result
  | .config => s.config
  | .active => s.active
  | .dbgSel => s.dbgSel.setWidth 32
  | .dbgK =>
    match s.debugCtx with
    | some c => c.K.setWidth 32
    | none => 0#32
  | .dbgS =>
    match s.debugCtx with
    | some c => c.S.setWidth 32
    | none => 0#32

/-- The commands that run while an error is pending: NOP, SOFT_RESET, CLR_ERR, by OP (spec/60_exceptions.md
R285). -/
def runsWhilePending (w : Word) : Bool := opField w == 0x00#8 || opField w == 0x01#8 || opField w == 0x02#8

/-- `Issue(w)`: a write of `w` to CMD while `BUSY = 0` (spec/60_exceptions.md R282). With an error pending the
command is skipped, setting SKIPPED alone (R285); else word and operand are latched, BUSY is set
(spec/10_state.md R33), and the latency is drawn (R331; log entry 6). -/
def State.issue (s : State) (w : Word) : State :=
  if s.err ≠ 0#9 ∧ runsWhilePending w = false then { s with err := s.err ||| skippedMask }
  else { s with
    cmdl := w
    argl := s.arg0
    busy := true
    delay := Config.commandDelay s.draws
    draws := s.draws + 1 }

/-- A write of a register while `BUSY = 0`; a read-only register ignores it (R35, spec/20_memory.md R84). -/
def State.writeReg (s : State) (r : Reg) (v : Word) : State :=
  match r with
  | .cmd => s.issue v
  | .wpos => { s with wpos := v.setWidth 20 }
  | .rpos => { s with rpos := v.setWidth 20 }
  | .rlimit => { s with rlimit := v.setWidth 20 }
  | .arg0 => { s with arg0 := v }
  | .config => { s with config := v }
  | .dbgSel => { s with dbgSel := v.setWidth 4 }
  | .id => s
  | .status => s
  | .err => s
  | .cause => s
  | .frameWpos => s
  | .frameRpos => s
  | .cmdCount => s
  | .result => s
  | .active => s
  | .dbgK => s
  | .dbgS => s

/-- The bytes of an access. -/
def Width.bytes : Width → Nat
  | .w8 => 1
  | .w16 => 2
  | .w32 => 4

/-- What an access of the window reaches. -/
inductive Access where
  | reg (r : Reg)
  | unmapped
  | buffer (a : Nat)
  | refused (why : Refusal)
deriving DecidableEq, Repr

/-- The address map with its width and alignment rules (spec/20_memory.md R82 to R85, R101). -/
def access (width : Width) (offset : Nat) : Access :=
  if Config.windowBytes ≤ offset then .refused .outsideWindow
  else if offset < Config.bufferBase then
    if width = .w32 ∧ offset % 4 = 0 then
      match regAt offset with
      | some r => .reg r
      | none => .unmapped
    else .refused .registerBusError
  else if offset % width.bytes = 0 then .buffer (offset - Config.bufferBase)
  else .refused .bufferBusError

/-- The offset of a bus address in a window at base `base` (parameter `WINDOW_BASE`, R82; log entry 10). -/
def windowOffset (base address : Nat) : Option Nat :=
  if base ≤ address ∧ address < base + Config.windowBytes then some (address - base) else none

/-- The host gets `v` back. -/
def State.answer (s : State) (v : Word) : State := { s with answers := v :: s.answers }

/-- The low bits of a word that an access of this width carries. -/
def Width.low (width : Width) (v : Word) : Word := v &&& BitVec.ofNat 32 (2 ^ (8 * width.bytes) - 1)

/-- A register read while `BUSY = 1` (spec/20_memory.md R100): ID, ARG0 and STATUS.BUSY as they are, STATUS bits
1 and 2 and every other register a free value (log entry 7). -/
def State.busyReadReg (s : State) (r : Reg) : State :=
  match r with
  | .id => s.answer Config.idValue
  | .arg0 => s.answer s.arg0
  | .status => { s with draws := s.draws + 1 }.answer (1#32 ||| (Config.busyRead s.draws &&& 6#32))
  | _ => { s with draws := s.draws + 1 }.answer (Config.busyRead s.draws)

/-- A host read (spec/20_memory.md R83 to R85, R87, R98, R100). -/
def hostRead (width : Width) (offset : Nat) (s : State) : Host.Outcome State Fault Refusal :=
  match access width offset with
  | .refused why => .refused why
  | .unmapped => .next (s.answer 0#32)
  | .reg r => if s.busy then .next (s.busyReadReg r) else .next (s.answer (s.readReg r))
  | .buffer a =>
    if s.busy then .next ({ s with draws := s.draws + 1 }.answer (width.low (Config.busyRead s.draws)))
    else .next (s.answer (BitVec.ofNat 32 (memRead s.buf a width.bytes)))

/-- A host write discarded because the core is busy: `RecordError(14, 0)` (spec/20_memory.md R99,
spec/60_exceptions.md R283). -/
def State.overrun (s : State) : State := s.recordError .overrun 0#32

/-- A host write (spec/20_memory.md R83 to R85, R87, R98, R99): while `BUSY = 1` only ARG0 is written, an unmapped
offset is ignored, and everything else is discarded with OVERRUN. -/
def hostWrite (width : Width) (offset : Nat) (v : Word) (s : State) : Host.Outcome State Fault Refusal :=
  match access width offset with
  | .refused why => .refused why
  | .unmapped => .next s
  | .reg r =>
    if s.busy then
      if r = .arg0 then .next { s with arg0 := v } else .next s.overrun
    else .next (s.writeReg r v)
  | .buffer a =>
    if s.busy then .next s.overrun
    else .next { s with buf := memWrite s.buf a width.bytes v.toNat }

/-- One poll of `WAIT` (spec/30_encoding.md R130): a read of STATUS; while bit 0 reads 1 the host stays at it. -/
def hostWait (s : State) (rest : List HostOp) : Host.Outcome State Fault Refusal :=
  if s.busy then .next (s.busyReadReg .status) else .next ({ s with host := rest }.answer s.status)

/-- The host's turn: its next operation, one fewer before the core's step. While the reset input is asserted the
host must not access the window (R320); asserting it discards a command in flight (R322); when it is released the
core's state is that of a power-on reset (R320). With nothing to do, nothing happens (spec/60_exceptions.md
R305). -/
def hostTurn (s : State) : Host.Outcome State Fault Refusal :=
  match s.host with
  | [] => .next s
  | .assertReset :: rest => .next { s with host := rest, resetInput := true, busy := false, delay := 0 }
  | .releaseReset :: rest =>
    if s.resetInput then .next { { s with host := rest }.powerOnReset with resetInput := false }
    else .next { s with host := rest, delay := s.delay - 1 }
  | .read width offset :: rest =>
    if s.resetInput then .refused .accessDuringReset
    else hostRead width offset { s with host := rest, delay := s.delay - 1 }
  | .write width offset v :: rest =>
    if s.resetInput then .refused .accessDuringReset
    else hostWrite width offset v { s with host := rest, delay := s.delay - 1 }
  | .wait :: rest =>
    if s.resetInput then .refused .accessDuringReset
    else hostWait { s with delay := s.delay - 1 } rest

/-! The host program's notation (spec/30_encoding.md R130). -/

/-- The offset of a register (spec/10_state.md R35). -/
def Reg.offset : Reg → Nat
  | .id => 0x000
  | .status => 0x004
  | .err => 0x008
  | .cause => 0x00C
  | .cmd => 0x010
  | .wpos => 0x014
  | .rpos => 0x018
  | .rlimit => 0x01C
  | .frameWpos => 0x020
  | .frameRpos => 0x024
  | .arg0 => 0x028
  | .cmdCount => 0x02C
  | .result => 0x030
  | .config => 0x034
  | .active => 0x038
  | .dbgSel => 0x03C
  | .dbgK => 0x040
  | .dbgS => 0x044

/-- `wr REG, v`. -/
def writeRegOp (r : Reg) (v : Word) : HostOp := .write .w32 r.offset v

/-- `rd REG`. -/
def readRegOp (r : Reg) : HostOp := .read .w32 r.offset

/-- `wrb a, v`, `wrh a, v`, `wrw a, v`. -/
def writeBufOp (width : Width) (a : Nat) (v : Word) : HostOp := .write width (Config.bufferBase + a) v

/-- `rdb a`, `rdh a`, `rdw a`. -/
def readBufOp (width : Width) (a : Nat) : HostOp := .read width (Config.bufferBase + a)

/-- `MNEMONIC fields`. -/
def commandOps (i : Instr) : List HostOp := [writeRegOp .cmd (encode i), .wait]

/-- `MNEMONIC fields, #v`. -/
def commandWithOps (i : Instr) (v : Word) : List HostOp := writeRegOp .arg0 v :: commandOps i

/-- The byte whose bits, most significant first, are the first eight of a bit string, 0 where it ends. -/
def packByte (bits : List Bool) : Byte :=
  BitVec.ofNat 8 ((List.range 8).foldl (fun acc i => 2 * acc + ((bits[i]?).getD false).toNat) 0)

/-- `LOAD a, "bits"` with the number of bytes given: `wrb` of each byte of the string in turn. -/
def loadOpsFor (a : Nat) : Nat → List Bool → List HostOp
  | 0, _ => []
  | n + 1, bits => writeBufOp .w8 a ((packByte bits).setWidth 32) :: loadOpsFor (a + 1) n (bits.drop 8)

/-- `LOAD a, "bits"`: the last byte padded with 0 bits. -/
def loadOps (a : Nat) (bits : List Bool) : List HostOp := loadOpsFor a ((bits.length + 7) / 8) bits

end Sys2Proof.Machine
end

