-- ==== Sys2Proof/Machine/BitIo.lean ====
section
/-! DEFINITION. The bit I/O commands (spec/41_bitio.md). -/

namespace Sys2Proof.Machine

/-- BW_BITS: write the low N bits of A (R153). -/
def execBwBits (n : BitVec 6) (s : State) : Host.Outcome State Fault Refusal :=
  finish (.bwBits n) s (onWidth n fun width => s.store (fieldBits width s.argl.toNat))

/-- BR_BITS: read N bits, zero-extended (R154). -/
def execBrBits (n : BitVec 6) (s : State) : Host.Outcome State Fault Refusal :=
  finish (.brBits n) s (onWidth n fun width =>
    s.take (readField s.buf s.readLimit width s.rpos.toNat 0) fun t v =>
      .done { t with result := BitVec.ofNat 32 v })

/-- BR_SBITS: read N bits, sign-extended (R155). -/
def execBrSbits (n : BitVec 6) (s : State) : Host.Outcome State Fault Refusal :=
  finish (.brSbits n) s (onWidth n fun width =>
    s.take (readField s.buf s.readLimit width s.rpos.toNat 0) fun t v =>
      .done { t with result := wrap32 (sext width v) })

/-- BW_UNARY: write A as a unary code; A above `UNARY_MAX` raises before the room check (R156). -/
def execBwUnary (s : State) : Host.Outcome State Fault Refusal :=
  finish .bwUnary s
    (if Config.unaryMax < s.argl.toNat then .raised .illegalOperand else s.store (unaryBits s.argl.toNat))

/-- BR_UNARY: read a unary code (R157). -/
def execBrUnary (s : State) : Host.Outcome State Fault Refusal :=
  finish .brUnary s
    (s.take (readUnary s.buf s.readLimit (Config.unaryMax + 1) s.rpos.toNat 0) fun t c =>
      .done { t with result := BitVec.ofNat 32 c })

/-- BW_FLUSH: zero-pad WPOS to a byte boundary (R158). -/
def execBwFlush (s : State) : Host.Outcome State Fault Refusal :=
  finish .bwFlush s (s.store (fieldBits (padLength s.wpos.toNat) 0))

/-- BR_ALIGN: skip RPOS to a byte boundary over zero bits; RESULT is not written (R159, spec/10_state.md R52). -/
def execBrAlign (s : State) : Host.Outcome State Fault Refusal :=
  finish .brAlign s
    (s.take (readPad s.buf s.readLimit (padLength s.rpos.toNat) s.rpos.toNat) fun t _ => .done t)

end Sys2Proof.Machine
end

