-- ==== Sys2Proof/Machine/Control.lean ====
section
/-! DEFINITION. The control commands (spec/45_control.md). -/

namespace Sys2Proof.Machine

/-- NOP: no effect but the count (R260). -/
def execNop (s : State) : Host.Outcome State Fault Refusal := finish .nop s (.done s)

/-- SOFT_RESET: every register to its reset value, the buffer kept; it does not count itself (R261, R51). -/
def execSoftReset (s : State) : Host.Outcome State Fault Refusal := .next s.softReset

/-- CLR_ERR: ERR and CAUSE become 0 (R262). -/
def execClrErr (s : State) : Host.Outcome State Fault Refusal := finish .clrErr s (.done s.clearError)

end Sys2Proof.Machine
end

