-- ==== Sys2Proof/Machine/Entropy.lean ====
section
/-! DEFINITION. The entropy coder commands (spec/42_entropy.md). -/

namespace Sys2Proof.Machine

/-- EC_ENC: code the residual A under the K held, then update S and K with it (R190). -/
def execEcEnc (ch : BitVec 4) (s : State) : Host.Outcome State Fault Refusal :=
  finish (.ecEnc ch) s (onContext s ch fun c =>
    (s.setCtx ch.toNat (coderUpdate s.depth (zigzag s.argl).toNat c)).store
      (codeBits c.K.toNat (zigzag s.argl).toNat))

/-- EC_DEC: decode a residual under the K held, then update S and K with it (R191). -/
def execEcDec (ch : BitVec 4) (s : State) : Host.Outcome State Fault Refusal :=
  finish (.ecDec ch) s (onContext s ch fun c =>
    s.take (readCode s.buf s.readLimit c.K.toNat s.rpos.toNat) fun t u =>
      .done { t.setCtx ch.toNat (coderUpdate s.depth u c) with result := unzigzag (BitVec.ofNat 32 u) })

/-- EC_RESET: the initial coder state, the filter state kept (R192). -/
def execEcReset (ch : BitVec 4) (s : State) : Host.Outcome State Fault Refusal :=
  finish (.ecReset ch) s (onContext s ch fun c => .done (s.setCtx ch.toNat (coderReset s.depth c)))

end Sys2Proof.Machine
end

