-- ==== Sys2Proof/Machine/Cascade.lean ====
section
/-! DEFINITION. The adaptive filter: one stage and the cascade (spec/43_filter.md R210 to R221), as functions of
a context's filter state. -/

namespace Sys2Proof.Machine

/-- A stage's `(N, SH, MU)`: order, coefficient fraction bits, adaptation step (R211). -/
structure StageParam where
  order : Nat
  shift : Nat
  step : Int
deriving DecidableEq, Repr

/-- The stages in order; level L uses the first L (R211). -/
def stageTable : List StageParam :=
  [{ order := 16, shift := 12, step := 16 }, { order := 64, shift := 13, step := 8 },
    { order := 256, shift := 14, step := 4 }]

/-- The stages of a level (R211). -/
def stagesOf (level : Nat) : List StageParam := stageTable.take level

/-- `acc`, the exact dot product of coefficients and history (R213). -/
def dot : List (BitVec 16) → List (BitVec 32) → Int
  | w :: ws, h :: hs => w.toInt * h.toInt + dot ws hs
  | _, _ => 0

/-- `p = clamp(-2^31, 2^31 - 1, (acc + 2^(SH-1)) >> SH)` (R214); `/` by a positive power of two is the floor
division R214 asks for. -/
def roundShift (shift : Nat) (acc : Int) : Int :=
  clamp (-(2 : Int) ^ 31) ((2 : Int) ^ 31 - 1) ((acc + (2 : Int) ^ (shift - 1)) / (2 : Int) ^ shift)

/-- `Pred(j)` (R219). -/
def predict (q : StageParam) (st : Stage) : Int := roundShift q.shift (dot st.w st.h)

/-- One coefficient's adaptation: `clamp(WMIN, WMAX, w + MU * e * sgn(h))` (R217). -/
def adaptCoeff (step e : Int) (w : BitVec 16) (h : BitVec 32) : BitVec 16 :=
  BitVec.ofInt 16 (clamp Config.wMin Config.wMax (w.toInt + step * e * sgn h.toInt))

/-- `Adapt(j, r)`, with the history as it was for the prediction (R217). -/
def adapt (q : StageParam) (st : Stage) (r : Word) : Stage :=
  { st with w := List.zipWith (adaptCoeff q.step (sgn r.toInt)) st.w st.h }

/-- `Shift(j, x)`: x becomes `h[0]`, every other value moves up one place, the oldest drops out (R218). -/
def shiftIn (st : Stage) (x : Word) : Stage :=
  { st with h := (x :: st.h).take st.h.length }

/-- `StageEnc(j, x)` (R215, R219): the stage after it and the residual. -/
def stageEnc (q : StageParam) (st : Stage) (x : Word) : Stage × Word :=
  let r := wrap32 (x.toInt - predict q st)
  (shiftIn (adapt q st r) x, r)

/-- `StageDec(j, r)` (R216, R219): the stage after it and the reconstructed input. -/
def stageDec (q : StageParam) (st : Stage) (r : Word) : Stage × Word :=
  let x := wrap32 (r.toInt + predict q st)
  (shiftIn (adapt q st r) x, x)

/-- `FilterEnc`: first stage first, each coding the residual of the one before (R220). -/
def filterEnc : List StageParam → List Stage → Word → List Stage × Word
  | q :: qs, st :: sts, x =>
    let one := stageEnc q st x
    let rest := filterEnc qs sts one.2
    (one.1 :: rest.1, rest.2)
  | _, sts, x => (sts, x)

/-- `FilterDec`: last stage first, each rebuilding its input (R221). -/
def filterDec : List StageParam → List Stage → Word → List Stage × Word
  | q :: qs, st :: sts, r =>
    let rest := filterDec qs sts r
    let one := stageDec q st rest.2
    (one.1 :: rest.1, one.2)
  | _, sts, r => (sts, r)

/-- A stage with its history and coefficients all 0 (R212). -/
def zeroStage (q : StageParam) : Stage :=
  { h := List.replicate q.order 0#32, w := List.replicate q.order 0#16 }

/-- The first stage's first coefficient set to `2^SH` (R212). -/
def primeStage (q : StageParam) (st : Stage) : Stage := { st with w := st.w.set 0 (BitVec.ofNat 16 (2 ^ q.shift)) }

/-- The initial filter state of a level (R212). -/
def initialStages (level : Nat) : List Stage :=
  match stagesOf level with
  | [] => []
  | q :: qs => primeStage q (zeroStage q) :: qs.map zeroStage

/-- The filter state of `c` reset for a level, the coder state kept (R222). -/
def filterReset (level : Nat) (c : Ctx) : Ctx := { c with stages := initialStages level }

end Sys2Proof.Machine
end

