-- ==== Sys2Proof/Machine/Filter.lean ====
section
/-! DEFINITION. The filter chain commands (spec/43_filter.md). -/

namespace Sys2Proof.Machine

/-- FC_ENC: run the sample A through the encode cascade; a sample outside the B-bit range raises first (R220). -/
def execFcEnc (ch : BitVec 4) (s : State) : Host.Outcome State Fault Refusal :=
  finish (.fcEnc ch) s (onContext s ch fun c =>
    if inSampleRange s.depth s.argl.toInt then
      let out := filterEnc (stagesOf s.level) c.stages s.argl
      .done { s.setCtx ch.toNat { c with stages := out.1 } with result := out.2 }
    else .raised .sampleRange)

/-- FC_DEC: reconstruct a sample from the residual A; a sample outside the B-bit range raises (R221). -/
def execFcDec (ch : BitVec 4) (s : State) : Host.Outcome State Fault Refusal :=
  finish (.fcDec ch) s (onContext s ch fun c =>
    let out := filterDec (stagesOf s.level) c.stages s.argl
    if inSampleRange s.depth out.2.toInt then
      .done { s.setCtx ch.toNat { c with stages := out.1 } with result := out.2 }
    else .raised .sampleOutOfRange)

/-- FC_RESET: the initial filter state, the coder state kept (R222). -/
def execFcReset (ch : BitVec 4) (s : State) : Host.Outcome State Fault Refusal :=
  finish (.fcReset ch) s (onContext s ch fun c => .done (s.setCtx ch.toNat (filterReset s.level c)))

end Sys2Proof.Machine
end

