-- ==== Sys2Proof/Machine/Frame.lean ====
section
/-! DEFINITION. The frame and fused pipeline commands (spec/44_frame_pipeline.md). -/

namespace Sys2Proof.Machine

/-- The state every context holds after FRAME_START under a configuration (R240). -/
def freshContext (cfg : Word) : Ctx where
  S := BitVec.ofNat 30 (initialSum (cfgDepth cfg))
  K := BitVec.ofNat 5 (kOf (cfgDepth cfg) (initialSum (cfgDepth cfg)))
  stages := initialStages (cfgLevel cfg)

/-- FRAME_START: latch CONFIG if it is legal, reset every context, record both cursors (R240). -/
def execFrameStart (s : State) : Host.Outcome State Fault Refusal :=
  finish .frameStart s
    (if cfgLegal s.config then
      .done { s with
        active := s.config
        cfgValid := true
        ctxs := Vector.replicate 8 (freshContext s.config)
        frameWpos := s.wpos
        frameRpos := s.rpos }
    else .raised .unsupportedFormat)

/-- SMP_ENC: filter the sample A and code its residual, as one command (R241). -/
def execSmpEnc (ch : BitVec 4) (s : State) : Host.Outcome State Fault Refusal :=
  finish (.smpEnc ch) s (onContext s ch fun c =>
    if inSampleRange s.depth s.argl.toInt then
      let out := filterEnc (stagesOf s.level) c.stages s.argl
      let u := (zigzag out.2).toNat
      let c' := coderUpdate s.depth u { c with stages := out.1 }
      { s.setCtx ch.toNat c' with result := out.2 }.store (codeBits c.K.toNat u)
    else .raised .sampleRange)

/-- SMP_DEC: decode a residual and reconstruct its sample, as one command (R242). -/
def execSmpDec (ch : BitVec 4) (s : State) : Host.Outcome State Fault Refusal :=
  finish (.smpDec ch) s (onContext s ch fun c =>
    s.take (readCode s.buf s.readLimit c.K.toNat s.rpos.toNat) fun t u =>
      let out := filterDec (stagesOf s.level) c.stages (unzigzag (BitVec.ofNat 32 u))
      if inSampleRange s.depth out.2.toInt then
        .done { t.setCtx ch.toNat (coderUpdate s.depth u { c with stages := out.1 }) with result := out.2 }
      else .raised .sampleOutOfRange)

end Sys2Proof.Machine
end

