-- ==== Sys2Proof/Machine/Dispatch.lean ====
section
/-! DEFINITION. `exec`: `Execute(w, A)` of spec/60_exceptions.md R282 for a command that decodes, A being ARGL.
The decoding before it and `BUSY <- 0` after it are the core's step (Machine/Step.lean). -/

namespace Sys2Proof.Machine

def exec (i : Instr) (s : State) : Host.Outcome State Fault Refusal :=
  match i with
  | .nop => Sys2Proof.Machine.execNop s
  | .softReset => Sys2Proof.Machine.execSoftReset s
  | .clrErr => Sys2Proof.Machine.execClrErr s
  | .bwBits n => Sys2Proof.Machine.execBwBits n s
  | .brBits n => Sys2Proof.Machine.execBrBits n s
  | .brSbits n => Sys2Proof.Machine.execBrSbits n s
  | .bwUnary => Sys2Proof.Machine.execBwUnary s
  | .brUnary => Sys2Proof.Machine.execBrUnary s
  | .bwFlush => Sys2Proof.Machine.execBwFlush s
  | .brAlign => Sys2Proof.Machine.execBrAlign s
  | .ecEnc ch => Sys2Proof.Machine.execEcEnc ch s
  | .ecDec ch => Sys2Proof.Machine.execEcDec ch s
  | .ecReset ch => Sys2Proof.Machine.execEcReset ch s
  | .fcEnc ch => Sys2Proof.Machine.execFcEnc ch s
  | .fcDec ch => Sys2Proof.Machine.execFcDec ch s
  | .fcReset ch => Sys2Proof.Machine.execFcReset ch s
  | .frameStart => Sys2Proof.Machine.execFrameStart s
  | .smpEnc ch => Sys2Proof.Machine.execSmpEnc ch s
  | .smpDec ch => Sys2Proof.Machine.execSmpDec ch s

end Sys2Proof.Machine
end

