-- ==== Sys2Proof/Machine/Turn.lean ====
section
/-! DEFINITION. The core's turn (`Step()` of spec/60_exceptions.md R282) and which agent moves next
(spec/20_memory.md R105, spec/70_reset_and_hazards.md R331). -/

namespace Sys2Proof.Machine

/-- The command in flight is retired: `BUSY <- 0` (R282). -/
def State.retire (s : State) : State := { s with busy := false }

/-- `Execute(CMDL, ARGL); BUSY <- 0` (R282): the word decodes to a command that `exec` runs, or is illegal and
raises its cause. -/
def coreTurn (s : State) : Host.Outcome State Fault Refusal :=
  match decode s.cmdl with
  | .illegal why => .next (s.recordError (illegalCause why) s.cmdl).retire
  | .cmd i =>
    match exec i s with
    | .next t => .next t.retire
    | .fault r => .fault r
    | .refused r => .refused r

/-- The core moves next: a command is in flight, and the delay drawn for it has passed or the host has nothing
more to do (R331; log entry 6). -/
def State.coreReady (s : State) : Bool :=
  s.busy && !s.resetInput && (s.delay == 0 || s.host.isEmpty)

/-- One step of the machine, by whichever agent moves next. -/
def turn (s : State) : Host.Outcome State Fault Refusal :=
  if s.coreReady then coreTurn s else hostTurn s

/-- The command word `w` issued and the core's step for it next: what an accepted CMD write leaves (spec/10_state.md
R33), with no delay. -/
def State.withCommand (s : State) (w : Word) : State :=
  { s with cmdl := w, argl := s.arg0, busy := true, resetInput := false, delay := 0 }

end Sys2Proof.Machine
end

