-- ==== Sys2Proof/Machine/Step.lean ====
section
/-! DEFINITION. The step function of the machine, and placing a command as the one the next step runs. -/

namespace Sys2Proof.Machine

/-- One step: the core's or the host's (spec/20_memory.md R105). -/
def step (s : State) : Host.Outcome State Fault Refusal := turn s

/-- `s` with an opcode-table row's word latched as the command in flight, its step next (log entry 5). -/
def State.withFetchWord (s : State) (nbits w : Nat) : State := s.withCommand (tableWord nbits w)

end Sys2Proof.Machine
end

