-- ==== Sys2Proof/Safety.lean ====
section
/-! DEFINITION. What the statements about the machine speak of: the invariant of a state (spec/10_state.md R43, R54,
R60, R63), what a store leaves alone (spec/20_memory.md R92), the channel of a command (spec/30_encoding.md R122). -/

namespace Sys2Proof.Machine

/-- The filter state has the shape of its stages: each history and each coefficient list as long as the stage's
order (spec/10_state.md R60(b)). -/
def shapesMatch : List StageParam → List Stage → Bool
  | [], [] => true
  | q :: qs, st :: sts => st.h.length == q.order && st.w.length == q.order && shapesMatch qs sts
  | _, _ => false

/-- The context invariant under an active configuration (spec/10_state.md R63, R60(b)); that each coefficient lies
in `[WMIN, WMAX]` is in its type. -/
def Ctx.wf (active : Word) (c : Ctx) : Prop :=
  c.S.toNat ≤ 16 * Config.uClamp ∧ c.K.toNat = kOf (cfgDepth active) c.S.toNat ∧
    shapesMatch (stagesOf (cfgLevel active)) c.stages = true

/-- The code CAUSE records (spec/10_state.md R43). -/
def State.causeCode (s : State) : Nat := s.cause.toNat % 256

/-- The invariant of the machine: the buffer is in its canonical form; with CFG_VALID, ACTIVE is legal (R54) and
every context satisfies R63, without it ACTIVE is 0; CAUSE is 0 exactly with ERR 0, else it holds a code of
spec/60_exceptions.md R281; no command is in flight while the reset input is asserted (spec/70_reset_and_hazards.md
R322). The canonical form is the model's own (log entry 2), and so is BUSY being 0 from the assertion on (log entry 16). -/
structure State.Wf (s : State) : Prop where
  buf : bufWf s.buf = true
  active : s.cfgValid = true → cfgLegal s.active = true
  contexts : s.cfgValid = true → ∀ c, c < Config.ctxCount → (s.ctx c).wf s.active
  idle : s.cfgValid = false → s.active = 0#32
  noCause : s.err = 0#9 → s.cause = 0#20
  someCause : s.err ≠ 0#9 → 1 ≤ s.causeCode ∧ s.causeCode ≤ 14
  reset : s.resetInput = true → s.busy = false

/-- The bits from p on are these (spec/00_scope.md R10). -/
def holdsBits (m : List Host.Cell) (p : Nat) (bits : List Bool) : Prop :=
  ∀ i b, bits[i]? = some b → bitRead m (p + i) = b

/-- The bits from p on are these as far as they lie below the limit. -/
def holdsBitsBelow (m : List Host.Cell) (limit p : Nat) (bits : List Bool) : Prop :=
  ∀ i b, bits[i]? = some b → p + i < limit → bitRead m (p + i) = b

/-- Between the two buffers at most the `n` bits from p on differ, and no byte outside the bytes that hold them
(spec/20_memory.md R92). -/
def storedOnly (m m' : List Host.Cell) (p n : Nat) : Prop :=
  (∀ q, q < p ∨ p + n ≤ q → bitRead m' q = bitRead m q) ∧
    ∀ a, 8 * a + 8 ≤ p ∨ p + n ≤ 8 * a → readByte m' a = readByte m a

/-- An input goes through the stages first to last, each coding the residual of the one before (spec/43_filter.md R220):
`xs j` is what enters stage j, counted from 0, `sts'` the stages after it, and `r` what leaves the last. -/
def encodesThrough (qs : List StageParam) (sts : List Stage) (x : Word) (sts' : List Stage) (r : Word) : Prop :=
  ∃ xs : Nat → Word, xs 0 = x ∧ xs qs.length = r ∧ sts'.length = sts.length ∧
    ∀ j q st, qs[j]? = some q → sts[j]? = some st →
      sts'[j]? = some (stageEnc q st (xs j)).1 ∧ xs (j + 1) = (stageEnc q st (xs j)).2

/-- A residual goes through the stages last to first, each rebuilding its input (spec/43_filter.md R221): `ys j` is what
stage j rebuilds and `y` what the first rebuilds. -/
def decodesThrough (qs : List StageParam) (sts : List Stage) (r : Word) (sts' : List Stage) (y : Word) : Prop :=
  ∃ ys : Nat → Word, ys qs.length = r ∧ ys 0 = y ∧ sts'.length = sts.length ∧
    ∀ j q st, qs[j]? = some q → sts[j]? = some st →
      sts'[j]? = some (stageDec q st (ys (j + 1))).1 ∧ ys j = (stageDec q st (ys (j + 1))).2

/-- The channel of a shape-C command (spec/30_encoding.md R122). -/
def channelOf : Instr → Option (BitVec 4)
  | .ecEnc ch => some ch
  | .ecDec ch => some ch
  | .ecReset ch => some ch
  | .fcEnc ch => some ch
  | .fcDec ch => some ch
  | .fcReset ch => some ch
  | .smpEnc ch => some ch
  | .smpDec ch => some ch
  | .nop => none
  | .softReset => none
  | .clrErr => none
  | .bwBits _ => none
  | .brBits _ => none
  | .brSbits _ => none
  | .bwUnary => none
  | .brUnary => none
  | .bwFlush => none
  | .brAlign => none
  | .frameStart => none

/-- The opcodes of each shape (spec/30_encoding.md R122, R124). -/
def shapeZOps : List Nat := [0x00, 0x01, 0x02, 0x13, 0x14, 0x15, 0x16, 0x40]

/-- The opcodes of shape W (R122, R124). -/
def shapeWOps : List Nat := [0x10, 0x11, 0x12]

/-- The opcodes of shape C (R122, R124). -/
def shapeCOps : List Nat := [0x20, 0x21, 0x22, 0x30, 0x31, 0x32, 0x41, 0x42]

/-- A shape-C command runs its own pseudocode: configured, on an existing channel (spec/60_exceptions.md R282). -/
def State.opens (s : State) (ch : BitVec 4) : Prop := s.cfgValid = true ∧ ch.toNat < s.channels

/-- `exec i s` is the command's raise of `k`: the error recorded with its word, nothing else changed
(spec/60_exceptions.md R280, R283). -/
def raises (i : Instr) (s : State) (k : Cause) : Prop := exec i s = .next (s.recordError k (encode i))

/-- The two checks every shape-C command makes first, in their order (spec/60_exceptions.md R282 steps 4, 5). -/
def checksContext (i : Instr) (ch : BitVec 4) (s : State) : Prop :=
  (s.cfgValid = false → raises i s .notConfigured) ∧
    (s.cfgValid = true → s.channels ≤ ch.toNat → raises i s .badChannel)

/-- The core does not move next and the host does: a state with host operations to do, the reset input released. -/
def State.hostNext (s : State) : Prop := s.coreReady = false ∧ s.resetInput = false

end Sys2Proof.Machine
end

