-- ==== Sys2Proof/Certificates/Slice0/Obligations.lean ====
section
/-! DEFINITION. The statements about the model, for the provers. Each follows the rules of spec/ its docstring cites;
OBLIGATIONS.json lists them. -/

open Sys2Proof Sys2Proof.Machine

/-! Encoding (spec/30_encoding.md). -/

/-- The words written out in R131 decode to what it says. -/
def Obligations.ExampleWordsDecode : Prop :=
  decode 0x1000000C#32 = .cmd (.bwBits 12) ∧ decode 0x12000020#32 = .cmd (.brSbits 32) ∧
    decode 0x41100000#32 = .cmd (.smpEnc 1) ∧ decode 0x42700000#32 = .cmd (.smpDec 7) ∧
    decode 0x40000000#32 = .cmd .frameStart ∧ decode 0x10000021#32 = .illegal .operand ∧
    decode 0x10100004#32 = .illegal .reservedField ∧ decode 0x05000000#32 = .illegal .opcode

/-- Decoding an encoded well-formed command gives it back, and a word that decodes to a command is that command's
word and the command well-formed: no bit of an encoding is dropped (R120, R124, R128). -/
def Obligations.DecodeAndEncodeAgree : Prop :=
  (∀ i : Instr, i.wellFormed = true → decode (encode i) = .cmd i) ∧
    ∀ (w : Word) (i : Instr), decode w = .cmd i → i.wellFormed = true ∧ encode i = w

/-- A command in flight whose OP is reserved (R125), or whose reserved or unused fields are not 0 (R126), or whose N is
above 32 (first sentence of R127), records cause 1, 2 or 3 in that order, ends, and has no other effect; every other
word decodes to a command. -/
def Obligations.IllegalWordsRaiseAndDoNothingElse : Prop :=
  ∀ (s : State) (op : Nat), s.coreReady = true → op = (opField s.cmdl).toNat →
    (op ∉ shapeZOps → op ∉ shapeWOps → op ∉ shapeCOps →
      step s = .next { s.recordError .illegalOpcode s.cmdl with busy := false }) ∧
    ((op ∈ shapeZOps ∧ (rsvField s.cmdl ≠ 0#14 ∨ chField s.cmdl ≠ 0#4 ∨ nField s.cmdl ≠ 0#6)) ∨
        (op ∈ shapeWOps ∧ (rsvField s.cmdl ≠ 0#14 ∨ chField s.cmdl ≠ 0#4)) ∨
        (op ∈ shapeCOps ∧ (rsvField s.cmdl ≠ 0#14 ∨ nField s.cmdl ≠ 0#6)) →
      step s = .next { s.recordError .reservedField s.cmdl with busy := false }) ∧
    (op ∈ shapeWOps → rsvField s.cmdl = 0#14 → chField s.cmdl = 0#4 → 32 < (nField s.cmdl).toNat →
      step s = .next { s.recordError .illegalOperand s.cmdl with busy := false }) ∧
    ((op ∈ shapeZOps ∧ rsvField s.cmdl = 0#14 ∧ chField s.cmdl = 0#4 ∧ nField s.cmdl = 0#6) ∨
        (op ∈ shapeWOps ∧ rsvField s.cmdl = 0#14 ∧ chField s.cmdl = 0#4 ∧ (nField s.cmdl).toNat ≤ 32) ∨
        (op ∈ shapeCOps ∧ rsvField s.cmdl = 0#14 ∧ nField s.cmdl = 0#6) →
      ∃ i, decode s.cmdl = .cmd i)

/-! The step, errors and whole-machine rules. -/

/-- When the core moves next and its latched word decodes to a command, the step is that command's execution and then
BUSY is 0 (spec/60_exceptions.md R282, `Step()`). -/
def Obligations.StepRunsTheDecodedCommand : Prop :=
  ∀ (s : State) (i : Instr), s.coreReady = true → decode s.cmdl = .cmd i →
    (∀ t, exec i s = .next t → step s = .next { t with busy := false }) ∧
      (∀ r, exec i s = .fault r → step s = .fault r) ∧ ∀ r, exec i s = .refused r → step s = .refused r

/-- RecordError (R283) with the codes and ERR bits of R281: ERR gains the cause's bit, CAUSE is written only when ERR
was 0, with the code, the word's OP and its CH, and nothing else changes. -/
def Obligations.RecordErrorKeepsTheFirstCause : Prop :=
  (∀ (s : State) (k : Cause) (w : Word),
    s.recordError k w = { s with err := s.err ||| (1#9 <<< k.errBit), cause := (s.recordError k w).cause } ∧
      (s.err ≠ 0#9 → (s.recordError k w).cause = s.cause) ∧
      (s.err = 0#9 → (s.recordError k w).cause.toNat =
        k.code.toNat + 2 ^ 8 * (opField w).toNat + 2 ^ 16 * (chField w).toNat)) ∧
    ([Cause.illegalOpcode, .reservedField, .illegalOperand, .notConfigured, .unsupportedFormat, .badChannel,
        .sampleRange, .truncated, .runawayUnary, .badEscape, .sampleOutOfRange, .badPadding, .noRoom,
        .overrun].map fun k => (k.code.toNat, k.errBit)) =
      [(1, 0), (2, 0), (3, 0), (4, 1), (5, 2), (6, 3), (7, 3), (8, 4), (9, 5), (10, 5), (11, 5), (12, 5), (13, 6),
        (14, 7)]

/-- Every command, in every state, either completes, and is then counted and leaves ERR and CAUSE alone (SOFT_RESET is
not counted and CLR_ERR clears them), or raises one error and changes nothing but ERR and CAUSE
(spec/00_scope.md R13, spec/60_exceptions.md R280, R284, spec/10_state.md R51). -/
def Obligations.EveryCommandCompletesOrRaisesOnce : Prop :=
  ∀ (i : Instr) (s : State),
    (∃ k, exec i s = .next (s.recordError k (encode i))) ∨
      ∃ t, exec i s = .next t ∧
        (i ≠ .softReset → t.cmdCount = s.cmdCount + 1#32) ∧
        (i ≠ .softReset → i ≠ .clrErr → t.err = s.err ∧ t.cause = s.cause)

/-- No command writes what the host alone writes or owns, the latch, or the model's own fields; ACTIVE, CFG_VALID and the
frame cursors are written by FRAME_START alone; SOFT_RESET apart (spec/10_state.md R33, R47, R48, R49, R50, R54,
spec/70_reset_and_hazards.md R333). -/
def Obligations.CommandsLeaveHostStateAlone : Prop :=
  ∀ (i : Instr) (s t : State), exec i s = .next t →
    t.host = s.host ∧ t.answers = s.answers ∧ t.resetInput = s.resetInput ∧
    (i ≠ .softReset →
      t.arg0 = s.arg0 ∧ t.rlimit = s.rlimit ∧ t.config = s.config ∧ t.dbgSel = s.dbgSel ∧ t.cmdl = s.cmdl ∧
      t.argl = s.argl ∧ t.busy = s.busy ∧ t.delay = s.delay ∧ t.draws = s.draws ∧
      (i ≠ .frameStart →
        t.active = s.active ∧ t.cfgValid = s.cfgValid ∧ t.frameWpos = s.frameWpos ∧ t.frameRpos = s.frameRpos))

/-- Only write commands change WPOS and the buffer, only read commands change RPOS (spec/20_memory.md R93,
spec/41_bitio.md R150); after a command that changed WPOS it is at most CAP_BITS (R160). SOFT_RESET apart. -/
def Obligations.CursorsMoveOnTheirOwnSide : Prop :=
  ∀ (i : Instr) (s t : State), i ≠ .softReset → exec i s = .next t →
    ((∀ n, i ≠ .bwBits n) → i ≠ .bwUnary → i ≠ .bwFlush → (∀ c, i ≠ .ecEnc c) → (∀ c, i ≠ .smpEnc c) →
      t.wpos = s.wpos ∧ t.buf = s.buf) ∧
    ((∀ n, i ≠ .brBits n) → (∀ n, i ≠ .brSbits n) → i ≠ .brUnary → i ≠ .brAlign → (∀ c, i ≠ .ecDec c) →
      (∀ c, i ≠ .smpDec c) → t.rpos = s.rpos) ∧
    (t.wpos ≠ s.wpos → t.wpos.toNat ≤ 524288) ∧
    (t.rpos ≠ s.rpos → t.rpos.toNat ≤ s.readLimit)

/-- Which context state a command writes: a shape-C command its own channel's alone, the coder commands not the filter
state, the filter commands not the coder state; every other command but FRAME_START and SOFT_RESET none
(spec/10_state.md R62). -/
def Obligations.CommandsWriteOnlyTheirContext : Prop :=
  ∀ (i : Instr) (s t : State), exec i s = .next t →
    (∀ ch, channelOf i = some ch → ∀ c, c ≠ ch.toNat → t.ctx c = s.ctx c) ∧
    (channelOf i = none → i ≠ .frameStart → i ≠ .softReset → t.ctxs = s.ctxs) ∧
    (∀ ch, i = .ecEnc ch ∨ i = .ecDec ch ∨ i = .ecReset ch →
      ∀ c, (t.ctx c).stages = (s.ctx c).stages) ∧
    (∀ ch, i = .fcEnc ch ∨ i = .fcDec ch ∨ i = .fcReset ch →
      ∀ c, (t.ctx c).S = (s.ctx c).S ∧ (t.ctx c).K = (s.ctx c).K)

/-- A shape-C command reads no context but its own: with the others changed at will it does the same
(spec/10_state.md R62). -/
def Obligations.OtherChannelsAreNotRead : Prop :=
  ∀ (i : Instr) (ch : BitVec 4) (s t : State) (v : Vector Ctx 8), channelOf i = some ch →
    ({ s with ctxs := v } : State).ctx ch.toNat = s.ctx ch.toNat → exec i s = .next t →
    ∃ t' : State, exec i { s with ctxs := v } = .next t' ∧ t' = { t with ctxs := t'.ctxs } ∧
      t'.ctx ch.toNat = t.ctx ch.toNat

/-- CONFIG is read only by FRAME_START: every other command does the same whatever CONFIG holds, and SOFT_RESET
overwrites it (R333). -/
def Obligations.ConfigIsReadOnlyByFrameStart : Prop :=
  ∀ (i : Instr) (s t : State) (v : Word), i ≠ .frameStart → exec i s = .next t →
    (i ≠ .softReset → exec i { s with config := v } = .next { t with config := v }) ∧
      (i = .softReset → exec i { s with config := v } = .next t)

/-- What FRAME_START leaves in the contexts and in ACTIVE depends on CONFIG alone (first sentence of R244). -/
def Obligations.FrameStateDependsOnConfigAlone : Prop :=
  ∀ s₁ s₂ : State, s₁.config = s₂.config → cfgLegal s₁.config = true →
    ∃ t₁ t₂, exec .frameStart s₁ = .next t₁ ∧ exec .frameStart s₂ = .next t₂ ∧ t₁.ctxs = t₂.ctxs ∧
      t₁.active = t₂.active ∧ t₁.cfgValid = true ∧ t₂.cfgValid = true

/-- The invariant of a state holds after every step from a state that has it (spec/10_state.md R43, R54, R60, R63,
spec/60_exceptions.md R281). Two of its clauses are the model's own: the canonical form of the buffer (log entry 2), and
that no command is in flight while the reset input is asserted, which the model reads from
spec/70_reset_and_hazards.md R322 by clearing BUSY at the assertion (log entry 16, DEDUCED). -/
def Obligations.StepKeepsStateWellFormed : Prop :=
  ∀ s t : State, s.Wf → step s = .next t → t.Wf

/-- The invariant holds at reset (spec/70_reset_and_hazards.md R320, spec/10_state.md R63); its clauses on the buffer's form
and on the reset input are the model's own (log entries 2 and 16). -/
def Obligations.ResetStateIsWellFormed : Prop := State.reset.Wf

/-! Control commands (spec/45_control.md). -/

/-- NOP (R260). -/
def Obligations.NopOnlyCounts : Prop :=
  encode .nop = 0#32 ∧ runsWhilePending (encode .nop) = true ∧
    (∀ w : Word, opField w = 0x00#8 → w ≠ 0#32 → decode w = .illegal .reservedField) ∧
    ∀ s : State, exec .nop s = .next { s with cmdCount := s.cmdCount + 1#32 }

/-- SOFT_RESET (R261): every register reads as after reset, the latch is 0, the buffer and the host's side are kept. What
the contexts hold is unspecified. -/
def Obligations.SoftResetRestoresRegisters : Prop :=
  encode .softReset = 0x01000000#32 ∧ runsWhilePending (encode .softReset) = true ∧
    (∀ w : Word, opField w = 0x01#8 → w ≠ 0x01000000#32 → decode w = .illegal .reservedField) ∧
    ∀ s : State, ∃ t, exec .softReset s = .next t ∧
      (∀ r : Reg, t.readReg r = State.reset.readReg r) ∧
      t.err = 0#9 ∧ t.cause = 0#20 ∧ t.cfgValid = false ∧ t.cmdCount = 0#32 ∧ t.cmdl = 0#32 ∧ t.argl = 0#32 ∧
      t.busy = false ∧ t.buf = s.buf ∧ t.host = s.host ∧ t.answers = s.answers ∧ t.resetInput = s.resetInput

/-- CLR_ERR (R262). -/
def Obligations.ClrErrClearsOnlyTheError : Prop :=
  encode .clrErr = 0x02000000#32 ∧ runsWhilePending (encode .clrErr) = true ∧
    (∀ w : Word, opField w = 0x02#8 → w ≠ 0x02000000#32 → decode w = .illegal .reservedField) ∧
    ∀ s : State,
      exec .clrErr s = .next { s with err := 0#9, cause := 0#20, cmdCount := s.cmdCount + 1#32 }

/-! Bit I/O commands (spec/41_bitio.md). -/

/-- BW_BITS (R153). -/
def Obligations.BwBitsStoresTheField : Prop :=
  ∀ (n : BitVec 6) (s : State),
    encode (.bwBits n) = 0x10000000#32 ||| n.setWidth 32 ∧
    (n.toNat ≤ 32 → s.wpos.toNat + n.toNat ≤ 524288 → ∃ b,
      exec (.bwBits n) s = .next { s with
        buf := b
        wpos := BitVec.ofNat 20 (s.wpos.toNat + n.toNat)
        cmdCount := s.cmdCount + 1#32 } ∧
      (∀ i, i < n.toNat → bitRead b (s.wpos.toNat + i) = s.argl.getLsbD (n.toNat - 1 - i)) ∧
      storedOnly s.buf b s.wpos.toNat n.toNat) ∧
    (n.toNat ≤ 32 → 524288 < s.wpos.toNat + n.toNat → raises (.bwBits n) s .noRoom) ∧
    (32 < n.toNat → raises (.bwBits n) s .illegalOperand)

/-- BR_BITS (R154). -/
def Obligations.BrBitsReadsTheField : Prop :=
  ∀ (n : BitVec 6) (s : State),
    encode (.brBits n) = 0x11000000#32 ||| n.setWidth 32 ∧
    (n.toNat ≤ 32 → n.toNat = 0 ∨ s.rpos.toNat + n.toNat ≤ s.readLimit → ∃ v : Word,
      exec (.brBits n) s = .next { s with
        rpos := BitVec.ofNat 20 (s.rpos.toNat + n.toNat)
        result := v
        cmdCount := s.cmdCount + 1#32 } ∧
      (∀ i, i < n.toNat → v.getLsbD (n.toNat - 1 - i) = bitRead s.buf (s.rpos.toNat + i)) ∧
      ∀ i, n.toNat ≤ i → v.getLsbD i = false) ∧
    (n.toNat ≤ 32 → n.toNat ≠ 0 → s.readLimit < s.rpos.toNat + n.toNat → raises (.brBits n) s .truncated) ∧
    (32 < n.toNat → raises (.brBits n) s .illegalOperand)

/-- BR_SBITS (R155): as BR_BITS, the field's first bit copied into every bit above it. -/
def Obligations.BrSbitsSignExtendsTheField : Prop :=
  ∀ (n : BitVec 6) (s : State),
    encode (.brSbits n) = 0x12000000#32 ||| n.setWidth 32 ∧
    (n.toNat ≤ 32 → n.toNat = 0 ∨ s.rpos.toNat + n.toNat ≤ s.readLimit → ∃ v : Word,
      exec (.brSbits n) s = .next { s with
        rpos := BitVec.ofNat 20 (s.rpos.toNat + n.toNat)
        result := v
        cmdCount := s.cmdCount + 1#32 } ∧
      (∀ i, i < n.toNat → v.getLsbD (n.toNat - 1 - i) = bitRead s.buf (s.rpos.toNat + i)) ∧
      (n.toNat = 0 → v = 0#32) ∧
      (n.toNat ≠ 0 → ∀ i, n.toNat ≤ i → i < 32 → v.getLsbD i = bitRead s.buf s.rpos.toNat)) ∧
    (n.toNat ≤ 32 → n.toNat ≠ 0 → s.readLimit < s.rpos.toNat + n.toNat → raises (.brSbits n) s .truncated) ∧
    (32 < n.toNat → raises (.brSbits n) s .illegalOperand)

/-- BW_UNARY (R156). -/
def Obligations.BwUnaryStoresOnesAndAZero : Prop :=
  encode .bwUnary = 0x13000000#32 ∧
    ∀ s : State,
      (s.argl.toNat ≤ 32 → s.wpos.toNat + s.argl.toNat + 1 ≤ 524288 → ∃ b,
        exec .bwUnary s = .next { s with
          buf := b
          wpos := BitVec.ofNat 20 (s.wpos.toNat + s.argl.toNat + 1)
          cmdCount := s.cmdCount + 1#32 } ∧
        (∀ i, i < s.argl.toNat → bitRead b (s.wpos.toNat + i) = true) ∧
        bitRead b (s.wpos.toNat + s.argl.toNat) = false ∧
        storedOnly s.buf b s.wpos.toNat (s.argl.toNat + 1)) ∧
      (s.argl.toNat ≤ 32 → 524288 < s.wpos.toNat + s.argl.toNat + 1 → raises .bwUnary s .noRoom) ∧
      (32 < s.argl.toNat → raises .bwUnary s .illegalOperand)

/-- BR_UNARY (R157): `c` ones and a zero below the limit give `c`; 33 ones below it are a runaway run; a run that meets
the limit first is truncated. -/
def Obligations.BrUnaryCountsTheOnes : Prop :=
  encode .brUnary = 0x14000000#32 ∧
    ∀ (s : State) (c : Nat),
      (∀ i, i < c → s.rpos.toNat + i < s.readLimit → bitRead s.buf (s.rpos.toNat + i) = true) →
      (c ≤ 32 → s.rpos.toNat + c < s.readLimit → bitRead s.buf (s.rpos.toNat + c) = false →
        exec .brUnary s = .next { s with
          rpos := BitVec.ofNat 20 (s.rpos.toNat + c + 1)
          result := BitVec.ofNat 32 c
          cmdCount := s.cmdCount + 1#32 }) ∧
      (c = 33 → s.rpos.toNat + c ≤ s.readLimit → raises .brUnary s .runawayUnary) ∧
      (c ≤ 32 → s.readLimit ≤ s.rpos.toNat + c → raises .brUnary s .truncated)

/-- BW_FLUSH (R158). -/
def Obligations.BwFlushPadsWithZeros : Prop :=
  encode .bwFlush = 0x15000000#32 ∧
    ∀ (s : State) (pad : Nat), pad = (8 - s.wpos.toNat % 8) % 8 →
      (s.wpos.toNat ≤ 524288 → ∃ b,
        exec .bwFlush s = .next { s with
          buf := b
          wpos := BitVec.ofNat 20 (s.wpos.toNat + pad)
          cmdCount := s.cmdCount + 1#32 } ∧
        (s.wpos.toNat + pad) % 8 = 0 ∧ s.wpos.toNat + pad ≤ 524288 ∧
        (∀ i, i < pad → bitRead b (s.wpos.toNat + i) = false) ∧
        storedOnly s.buf b s.wpos.toNat pad) ∧
      (524288 < s.wpos.toNat → raises .bwFlush s .noRoom)

/-- BR_ALIGN (R159): the pad bits are skipped when each lies below the limit and is 0; the first that does not raises. -/
def Obligations.BrAlignChecksThePadding : Prop :=
  encode .brAlign = 0x16000000#32 ∧
    ∀ (s : State) (pad : Nat), pad = (8 - s.rpos.toNat % 8) % 8 →
      ((∀ i, i < pad → s.rpos.toNat + i < s.readLimit ∧ bitRead s.buf (s.rpos.toNat + i) = false) →
        exec .brAlign s = .next { s with
          rpos := BitVec.ofNat 20 (s.rpos.toNat + pad)
          cmdCount := s.cmdCount + 1#32 } ∧ (s.rpos.toNat + pad) % 8 = 0) ∧
      ∀ j, j < pad →
        (∀ i, i < j → s.rpos.toNat + i < s.readLimit ∧ bitRead s.buf (s.rpos.toNat + i) = false) →
        (s.readLimit ≤ s.rpos.toNat + j → raises .brAlign s .truncated) ∧
        (s.rpos.toNat + j < s.readLimit → bitRead s.buf (s.rpos.toNat + j) = true → raises .brAlign s .badPadding)

/-- A field that BW_BITS wrote is what BR_BITS reads back from its place: the low N bits of the operand
(spec/41_bitio.md R153, R154). -/
def Obligations.WrittenFieldReadsBack : Prop :=
  ∀ (n : BitVec 6) (s d : State), n.toNat ≤ 32 → s.wpos.toNat + n.toNat ≤ 524288 →
    ∃ t, exec (.bwBits n) s = .next t ∧
      (d.buf = t.buf → d.rpos = s.wpos → s.wpos.toNat + n.toNat ≤ d.readLimit →
        ∃ d', exec (.brBits n) d = .next d' ∧ d'.result.toNat = s.argl.toNat % 2 ^ n.toNat ∧ d'.rpos = t.wpos)

/-- A count that BW_UNARY wrote is what BR_UNARY reads back from its place (spec/41_bitio.md R156, R157). -/
def Obligations.WrittenUnaryReadsBack : Prop :=
  ∀ s d : State, s.argl.toNat ≤ 32 → s.wpos.toNat + s.argl.toNat + 1 ≤ 524288 →
    ∃ t, exec .bwUnary s = .next t ∧
      (d.buf = t.buf → d.rpos = s.wpos → s.wpos.toNat + s.argl.toNat + 1 ≤ d.readLimit →
        ∃ d', exec .brUnary d = .next d' ∧ d'.result = s.argl ∧ d'.rpos = t.wpos)

/-! Entropy coder (spec/42_entropy.md). -/

/-- The zig-zag map and its inverse (R180, R181). -/
def Obligations.ZigzagIsABijection : Prop :=
  (∀ r : Word,
    (0 ≤ r.toInt → ((zigzag r).toNat : Int) = 2 * r.toInt) ∧
      (r.toInt < 0 → ((zigzag r).toNat : Int) = -2 * r.toInt - 1) ∧ unzigzag (zigzag r) = r) ∧
    ∀ u : Word,
      (u.toNat % 2 = 0 → (unzigzag u).toInt = (u.toNat : Int) / 2) ∧
        (u.toNat % 2 = 1 → (unzigzag u).toInt = -(((u.toNat : Int) + 1) / 2)) ∧ zigzag (unzigzag u) = u

/-- The code of a value, bit by bit, and its length (R183). -/
def Obligations.CodeBitsFollowTheRule : Prop :=
  ∀ k u : Nat,
    (u >>> k < 16 →
      (codeBits k u).length = u >>> k + 1 + k ∧
      (∀ i, i < u >>> k → (codeBits k u)[i]? = some true) ∧ (codeBits k u)[u >>> k]? = some false ∧
      ∀ i, i < k → (codeBits k u)[u >>> k + 1 + i]? = some (u.testBit (k - 1 - i))) ∧
    (16 ≤ u >>> k →
      (codeBits k u).length = 48 ∧ (∀ i, i < 16 → (codeBits k u)[i]? = some true) ∧
      ∀ i, i < 32 → (codeBits k u)[16 + i]? = some (u.testBit (31 - i))) ∧
    (k ≤ 24 → 1 ≤ (codeBits k u).length ∧ (codeBits k u).length ≤ 48 ∧
      (u >>> k < 16 → (codeBits k u).length ≤ 40))

/-- CoderUpdate (R186) with KOf (R187): the new sum is exact, stays in its bound (R189), and K is the least of B and the
bit length of `S >> 5`; the filter state is kept. The bound holds initially (R193). -/
def Obligations.CoderUpdateFollowsTheAverage : Prop :=
  (∀ (b u : Nat) (c : Ctx), c.S.toNat ≤ 16 * 67108863 →
    ∀ S K : Nat, S = (coderUpdate b u c).S.toNat → K = (coderUpdate b u c).K.toNat →
      S = c.S.toNat - c.S.toNat / 16 + min u 67108863 ∧ S ≤ 16 * 67108863 ∧
      K ≤ b ∧ (K < b → S / 32 < 2 ^ K) ∧ (∀ n, n < K → 2 ^ n ≤ S / 32) ∧
      (coderUpdate b u c).stages = c.stages) ∧
    ∀ b, b ≤ 24 → initialSum b ≤ 16 * 67108863

/-- EC_ENC (R190). -/
def Obligations.EcEncWritesTheCode : Prop :=
  ∀ (ch : BitVec 4) (s : State),
    encode (.ecEnc ch) = 0x20000000#32 ||| (ch.setWidth 32 <<< 20) ∧ checksContext (.ecEnc ch) ch s ∧
    ∀ (c : Ctx) (u n : Nat), s.opens ch → c = s.ctx ch.toNat → u = (zigzag s.argl).toNat →
      n = (if u >>> c.K.toNat < 16 then u >>> c.K.toNat + 1 + c.K.toNat else 48) →
      (s.wpos.toNat + n ≤ 524288 → ∃ b,
        exec (.ecEnc ch) s = .next { s.setCtx ch.toNat (coderUpdate s.depth u c) with
          buf := b
          wpos := BitVec.ofNat 20 (s.wpos.toNat + n)
          cmdCount := s.cmdCount + 1#32 } ∧
        holdsBits b s.wpos.toNat (codeBits c.K.toNat u) ∧ storedOnly s.buf b s.wpos.toNat n) ∧
      (524288 < s.wpos.toNat + n → raises (.ecEnc ch) s .noRoom)

/-- EC_DEC (R191): a code below the limit is decoded; one that the limit cuts is truncated, and so is sixteen ones and any
value that it cuts; an escape that need not be one is corrupt (R185). -/
def Obligations.EcDecReadsTheCode : Prop :=
  ∀ (ch : BitVec 4) (s : State),
    encode (.ecDec ch) = 0x21000000#32 ||| (ch.setWidth 32 <<< 20) ∧ checksContext (.ecDec ch) ch s ∧
    ∀ (c : Ctx) (u : Word), s.opens ch → c = s.ctx ch.toNat →
      (holdsBitsBelow s.buf s.readLimit s.rpos.toNat (codeBits c.K.toNat u.toNat) →
        (s.rpos.toNat + (codeBits c.K.toNat u.toNat).length ≤ s.readLimit →
          exec (.ecDec ch) s = .next { s.setCtx ch.toNat (coderUpdate s.depth u.toNat c) with
            rpos := BitVec.ofNat 20 (s.rpos.toNat + (codeBits c.K.toNat u.toNat).length)
            result := unzigzag u
            cmdCount := s.cmdCount + 1#32 }) ∧
        (s.readLimit < s.rpos.toNat + (codeBits c.K.toNat u.toNat).length → raises (.ecDec ch) s .truncated)) ∧
      (holdsBitsBelow s.buf s.readLimit s.rpos.toNat (List.replicate 16 true ++ fieldBits 32 u.toNat) →
        (s.readLimit < s.rpos.toNat + 48 → raises (.ecDec ch) s .truncated) ∧
        (s.rpos.toNat + 48 ≤ s.readLimit → u.toNat >>> c.K.toNat < 16 → raises (.ecDec ch) s .badEscape))

/-- EC_RESET (R192) with the initial coder state (R193): S is `16 * 2^(B >> 1)`, K is `B >> 1`, the filter state and every
other context are kept. -/
def Obligations.EcResetSetsTheInitialCoderState : Prop :=
  ∀ (ch : BitVec 4) (s : State),
    encode (.ecReset ch) = 0x22000000#32 ||| (ch.setWidth 32 <<< 20) ∧ checksContext (.ecReset ch) ch s ∧
    (s.opens ch → exec (.ecReset ch) s = .next { s.setCtx ch.toNat
      { S := BitVec.ofNat 30 (16 * 2 ^ (s.depth / 2))
        K := BitVec.ofNat 5 (s.depth / 2)
        stages := (s.ctx ch.toNat).stages } with
      cmdCount := s.cmdCount + 1#32 })

/-- Encoder and decoder agree: the code EC_ENC wrote, read by EC_DEC on a context in the same state, gives the residual
back and leaves the context as the encoder's (R185, R194). The premise that ACTIVE is legal is part of the invariant. -/
def Obligations.EntropyCodeRoundTrip : Prop :=
  ∀ (ch ch' : BitVec 4) (s d : State) (n : Nat), s.opens ch → cfgLegal s.active = true →
    n = (codeBits (s.ctx ch.toNat).K.toNat (zigzag s.argl).toNat).length → s.wpos.toNat + n ≤ 524288 →
    ∃ t, exec (.ecEnc ch) s = .next t ∧ t.wpos.toNat = s.wpos.toNat + n ∧
      (d.opens ch' → d.active = s.active → d.ctx ch'.toNat = s.ctx ch.toNat →
        (∀ i, i < n → bitRead d.buf (d.rpos.toNat + i) = bitRead t.buf (s.wpos.toNat + i)) →
        d.rpos.toNat + n ≤ d.readLimit →
        ∃ d', exec (.ecDec ch') d = .next d' ∧ d'.result = s.argl ∧ d'.ctx ch'.toNat = t.ctx ch.toNat ∧
          d'.rpos.toNat = d.rpos.toNat + n)

/-! Filter chain (spec/43_filter.md). -/

/-- One stage, encoding and decoding (R214 to R219): the prediction is the rounded, saturated dot product; the residual or
input wraps to 32 bits; each coefficient moves by MU in the direction of the signs and saturates; the input becomes
the newest history value. -/
def Obligations.StageStepFollowsTheRules : Prop :=
  ∀ (q : StageParam) (st : Stage) (x r : Word) (acc p : Int),
    0 < st.h.length → st.w.length = st.h.length → 1 ≤ q.shift →
    acc = (Finset.range st.h.length).sum (fun i => (st.w.getD i 0).toInt * (st.h.getD i 0).toInt) →
    p = max (-(2 : Int) ^ 31) (min ((2 : Int) ^ 31 - 1) ((acc + 2 ^ (q.shift - 1)).fdiv (2 ^ q.shift))) →
    (stageEnc q st x).2 = BitVec.ofInt 32 (x.toInt - p) ∧
    (stageDec q st r).2 = BitVec.ofInt 32 (r.toInt + p) ∧
    (stageDec q st (stageEnc q st x).2) = ((stageEnc q st x).1, x) ∧
    ∀ (st' : Stage) (e : Word) (y : Word),
      (st', e) = ((stageEnc q st x).1, (stageEnc q st x).2) ∧ y = x ∨
        (st', y) = ((stageDec q st r).1, (stageDec q st r).2) ∧ e = r →
      st'.h.length = st.h.length ∧ st'.w.length = st.w.length ∧ st'.h.getD 0 0 = y ∧
      (∀ i, i + 1 < st.h.length → st'.h.getD (i + 1) 0 = st.h.getD i 0) ∧
      ∀ i, i < st.h.length →
        (st'.w.getD i 0).toInt = max (-32768) (min 32767
          ((st.w.getD i 0).toInt + q.step * e.toInt.sign * (st.h.getD i 0).toInt.sign))

/-- The initial filter state of each level (R212) with the stages of R211. -/
def Obligations.InitialFilterStateIsPrimed : Prop :=
  stagesOf 0 = [] ∧ stagesOf 1 = [⟨16, 12, 16⟩] ∧ stagesOf 2 = [⟨16, 12, 16⟩, ⟨64, 13, 8⟩] ∧
    stagesOf 3 = [⟨16, 12, 16⟩, ⟨64, 13, 8⟩, ⟨256, 14, 4⟩] ∧
    initialStages 0 = [] ∧
    initialStages 1 = [⟨List.replicate 16 0, 4096 :: List.replicate 15 0⟩] ∧
    initialStages 2 = [⟨List.replicate 16 0, 4096 :: List.replicate 15 0⟩,
      ⟨List.replicate 64 0, List.replicate 64 0⟩] ∧
    initialStages 3 = [⟨List.replicate 16 0, 4096 :: List.replicate 15 0⟩,
      ⟨List.replicate 64 0, List.replicate 64 0⟩, ⟨List.replicate 256 0, List.replicate 256 0⟩]

/-- FC_ENC (R220): the stages are as many as the level's in every state that holds the invariant. -/
def Obligations.FcEncRunsTheCascade : Prop :=
  ∀ (ch : BitVec 4) (s : State),
    encode (.fcEnc ch) = 0x30000000#32 ||| (ch.setWidth 32 <<< 20) ∧ checksContext (.fcEnc ch) ch s ∧
    (s.opens ch →
      (-(2 : Int) ^ (s.depth - 1) ≤ s.argl.toInt ∧ s.argl.toInt ≤ (2 : Int) ^ (s.depth - 1) - 1 →
        ∃ sts v, (sts, v) = filterEnc (stagesOf s.level) (s.ctx ch.toNat).stages s.argl ∧
          ((s.ctx ch.toNat).stages.length = (stagesOf s.level).length →
            encodesThrough (stagesOf s.level) (s.ctx ch.toNat).stages s.argl sts v) ∧
          exec (.fcEnc ch) s = .next { s.setCtx ch.toNat { s.ctx ch.toNat with stages := sts } with
            result := v
            cmdCount := s.cmdCount + 1#32 } ∧
          (s.level = 0 → v = s.argl ∧ sts = (s.ctx ch.toNat).stages)) ∧
      (s.argl.toInt < -(2 : Int) ^ (s.depth - 1) ∨ (2 : Int) ^ (s.depth - 1) - 1 < s.argl.toInt →
        raises (.fcEnc ch) s .sampleRange))

/-- FC_DEC (R221): the stages are as many as the level's in every state that holds the invariant. -/
def Obligations.FcDecRunsTheCascadeBackwards : Prop :=
  ∀ (ch : BitVec 4) (s : State) (sts : List Stage) (v : Word),
    encode (.fcDec ch) = 0x31000000#32 ||| (ch.setWidth 32 <<< 20) ∧ checksContext (.fcDec ch) ch s ∧
    (s.opens ch → (sts, v) = filterDec (stagesOf s.level) (s.ctx ch.toNat).stages s.argl →
      ((s.ctx ch.toNat).stages.length = (stagesOf s.level).length →
        decodesThrough (stagesOf s.level) (s.ctx ch.toNat).stages s.argl sts v) ∧
      (-(2 : Int) ^ (s.depth - 1) ≤ v.toInt ∧ v.toInt ≤ (2 : Int) ^ (s.depth - 1) - 1 →
        exec (.fcDec ch) s = .next { s.setCtx ch.toNat { s.ctx ch.toNat with stages := sts } with
          result := v
          cmdCount := s.cmdCount + 1#32 }) ∧
      (v.toInt < -(2 : Int) ^ (s.depth - 1) ∨ (2 : Int) ^ (s.depth - 1) - 1 < v.toInt →
        raises (.fcDec ch) s .sampleOutOfRange) ∧
      (s.level = 0 → v = s.argl ∧ sts = (s.ctx ch.toNat).stages))

/-- FC_RESET (R222): at level 0 a context whose filter state is empty is unchanged. -/
def Obligations.FcResetSetsTheInitialFilterState : Prop :=
  ∀ (ch : BitVec 4) (s : State),
    encode (.fcReset ch) = 0x32000000#32 ||| (ch.setWidth 32 <<< 20) ∧ checksContext (.fcReset ch) ch s ∧
    (s.opens ch →
      exec (.fcReset ch) s = .next { s.setCtx ch.toNat { s.ctx ch.toNat with stages := initialStages s.level } with
        cmdCount := s.cmdCount + 1#32 } ∧
      (s.level = 0 → (s.ctx ch.toNat).stages = [] → ∀ t, exec (.fcReset ch) s = .next t →
        ∀ c, t.ctx c = s.ctx c))

/-- Reversibility (R223): on contexts in the same filter state, FC_DEC of the residual FC_ENC returned gives the sample
back, without CORRUPT, and both contexts hold the same filter state afterwards. The premise that ACTIVE is legal is part of
the invariant. -/
def Obligations.FilterChainIsReversible : Prop :=
  ∀ (ch ch' : BitVec 4) (s d : State), s.opens ch → cfgLegal s.active = true →
    inSampleRange s.depth s.argl.toInt = true →
    ∃ t, exec (.fcEnc ch) s = .next t ∧ t.cmdCount = s.cmdCount + 1#32 ∧
      (d.opens ch' → d.active = s.active →
        (d.ctx ch'.toNat).stages = (s.ctx ch.toNat).stages → d.argl = t.result →
        ∃ d', exec (.fcDec ch') d = .next d' ∧ d'.result = s.argl ∧ d'.cmdCount = d.cmdCount + 1#32 ∧
          d'.err = d.err ∧ (d'.ctx ch'.toNat).stages = (t.ctx ch.toNat).stages)

/-! Frame and pipeline (spec/44_frame_pipeline.md). -/

/-- FRAME_START (R240). -/
def Obligations.FrameStartLatchesAndResets : Prop :=
  encode .frameStart = 0x40000000#32 ∧
    ∀ (s : State) (level depth chm1 : Nat),
      level = s.config.toNat % 16 → depth = s.config.toNat / 256 % 32 → chm1 = s.config.toNat / 65536 % 16 →
      (s.config.toNat / 16 % 16 = 0 ∧ s.config.toNat / 8192 % 8 = 0 ∧ s.config.toNat / 1048576 = 0 ∧ level ≤ 3 ∧
          8 ≤ depth ∧ depth ≤ 24 ∧ chm1 + 1 ≤ 8 →
        ∃ v, exec .frameStart s = .next { s with
            active := s.config
            cfgValid := true
            ctxs := v
            frameWpos := s.wpos
            frameRpos := s.rpos
            cmdCount := s.cmdCount + 1#32 } ∧
          ∀ c, c < 8 → v[c]? = some
            { S := BitVec.ofNat 30 (16 * 2 ^ (depth / 2))
              K := BitVec.ofNat 5 (depth / 2)
              stages := initialStages level }) ∧
      (¬(s.config.toNat / 16 % 16 = 0 ∧ s.config.toNat / 8192 % 8 = 0 ∧ s.config.toNat / 1048576 = 0 ∧ level ≤ 3 ∧
          8 ≤ depth ∧ depth ≤ 24 ∧ chm1 + 1 ≤ 8) →
        raises .frameStart s .unsupportedFormat)

/-- SMP_ENC (R241). -/
def Obligations.SmpEncFiltersAndCodes : Prop :=
  ∀ (ch : BitVec 4) (s : State),
    encode (.smpEnc ch) = 0x41000000#32 ||| (ch.setWidth 32 <<< 20) ∧ checksContext (.smpEnc ch) ch s ∧
    ∀ (c : Ctx) (sts : List Stage) (r : Word) (u n : Nat), s.opens ch → c = s.ctx ch.toNat →
      (sts, r) = filterEnc (stagesOf s.level) c.stages s.argl → u = (zigzag r).toNat →
      n = (if u >>> c.K.toNat < 16 then u >>> c.K.toNat + 1 + c.K.toNat else 48) →
      (s.argl.toInt < -(2 : Int) ^ (s.depth - 1) ∨ (2 : Int) ^ (s.depth - 1) - 1 < s.argl.toInt →
        raises (.smpEnc ch) s .sampleRange) ∧
      (-(2 : Int) ^ (s.depth - 1) ≤ s.argl.toInt ∧ s.argl.toInt ≤ (2 : Int) ^ (s.depth - 1) - 1 →
        (s.wpos.toNat + n ≤ 524288 → ∃ b,
          exec (.smpEnc ch) s = .next { s.setCtx ch.toNat (coderUpdate s.depth u { c with stages := sts }) with
            buf := b
            wpos := BitVec.ofNat 20 (s.wpos.toNat + n)
            result := r
            cmdCount := s.cmdCount + 1#32 } ∧
          holdsBits b s.wpos.toNat (codeBits c.K.toNat u) ∧ storedOnly s.buf b s.wpos.toNat n) ∧
        (524288 < s.wpos.toNat + n → raises (.smpEnc ch) s .noRoom))

/-- SMP_DEC (R242). -/
def Obligations.SmpDecDecodesAndRebuilds : Prop :=
  ∀ (ch : BitVec 4) (s : State),
    encode (.smpDec ch) = 0x42000000#32 ||| (ch.setWidth 32 <<< 20) ∧ checksContext (.smpDec ch) ch s ∧
    ∀ (c : Ctx) (u : Word) (sts : List Stage) (v : Word), s.opens ch → c = s.ctx ch.toNat →
      (sts, v) = filterDec (stagesOf s.level) c.stages (unzigzag u) →
      (holdsBitsBelow s.buf s.readLimit s.rpos.toNat (codeBits c.K.toNat u.toNat) →
        (s.readLimit < s.rpos.toNat + (codeBits c.K.toNat u.toNat).length → raises (.smpDec ch) s .truncated) ∧
        (s.rpos.toNat + (codeBits c.K.toNat u.toNat).length ≤ s.readLimit →
          (-(2 : Int) ^ (s.depth - 1) ≤ v.toInt ∧ v.toInt ≤ (2 : Int) ^ (s.depth - 1) - 1 →
            exec (.smpDec ch) s = .next
              { s.setCtx ch.toNat (coderUpdate s.depth u.toNat { c with stages := sts }) with
                rpos := BitVec.ofNat 20 (s.rpos.toNat + (codeBits c.K.toNat u.toNat).length)
                result := v
                cmdCount := s.cmdCount + 1#32 }) ∧
          (v.toInt < -(2 : Int) ^ (s.depth - 1) ∨ (2 : Int) ^ (s.depth - 1) - 1 < v.toInt →
            raises (.smpDec ch) s .sampleOutOfRange))) ∧
      (holdsBitsBelow s.buf s.readLimit s.rpos.toNat (List.replicate 16 true ++ fieldBits 32 u.toNat) →
        (s.readLimit < s.rpos.toNat + 48 → raises (.smpDec ch) s .truncated) ∧
        (s.rpos.toNat + 48 ≤ s.readLimit → u.toNat >>> c.K.toNat < 16 → raises (.smpDec ch) s .badEscape))

/-- SMP_ENC is FC_ENC and then EC_ENC of the residual it returned, as one command (corner case of R241). -/
def Obligations.SmpEncIsFcEncThenEcEnc : Prop :=
  ∀ (ch : BitVec 4) (s t₁ t₂ : State),
    exec (.fcEnc ch) s = .next t₁ → t₁.cmdCount = s.cmdCount + 1#32 →
    exec (.ecEnc ch) { t₁ with argl := t₁.result } = .next t₂ → t₂.cmdCount = t₁.cmdCount + 1#32 →
    exec (.smpEnc ch) s = .next { t₂ with argl := s.argl, cmdCount := s.cmdCount + 1#32 }

/-- SMP_DEC is EC_DEC and then FC_DEC of the residual it returned, as one command (corner case of R242). -/
def Obligations.SmpDecIsEcDecThenFcDec : Prop :=
  ∀ (ch : BitVec 4) (s t₁ t₂ : State),
    exec (.ecDec ch) s = .next t₁ → t₁.cmdCount = s.cmdCount + 1#32 →
    exec (.fcDec ch) { t₁ with argl := t₁.result } = .next t₂ → t₂.cmdCount = t₁.cmdCount + 1#32 →
    exec (.smpDec ch) s = .next { t₂ with argl := s.argl, cmdCount := s.cmdCount + 1#32 }

/-- Lossless coding of one sample: what SMP_ENC wrote, SMP_DEC on a context in the same state decodes to the sample, and
both contexts are then in the same state (spec/42_entropy.md R194, spec/43_filter.md R223). The premise that ACTIVE is legal
is part of the invariant. -/
def Obligations.SampleCodingIsLossless : Prop :=
  ∀ (ch ch' : BitVec 4) (s d : State) (n : Nat), s.opens ch → cfgLegal s.active = true →
    inSampleRange s.depth s.argl.toInt = true →
    n = (codeBits (s.ctx ch.toNat).K.toNat
      (zigzag (filterEnc (stagesOf s.level) (s.ctx ch.toNat).stages s.argl).2).toNat).length →
    s.wpos.toNat + n ≤ 524288 →
    ∃ t, exec (.smpEnc ch) s = .next t ∧ t.wpos.toNat = s.wpos.toNat + n ∧
      (d.opens ch' → d.active = s.active → d.ctx ch'.toNat = s.ctx ch.toNat →
        (∀ i, i < n → bitRead d.buf (d.rpos.toNat + i) = bitRead t.buf (s.wpos.toNat + i)) →
        d.rpos.toNat + n ≤ d.readLimit →
        ∃ d', exec (.smpDec ch') d = .next d' ∧ d'.result = s.argl ∧ d'.ctx ch'.toNat = t.ctx ch.toNat ∧
          d'.rpos.toNat = d.rpos.toNat + n)

/-! Reset and the host's side (spec/20_memory.md, spec/70_reset_and_hazards.md). -/

/-- Every register reads its reset value in the reset state (spec/10_state.md R35, R320), and the latch is 0. -/
def Obligations.ResetRegistersHoldTheirValues : Prop :=
  (∀ r : Reg, State.reset.readReg r =
    if r = .id then 0x4D414301#32 else if r = .config then 0x00001000#32 else 0#32) ∧
    State.reset.cmdl = 0#32 ∧ State.reset.argl = 0#32 ∧ State.reset.busy = false

/-- A power-on reset (spec/70_reset_and_hazards.md R320, R322): asserting the input discards the command in flight; while it
is asserted an access has no meaning; when it is released every register reads as in the reset state, and nothing is said of
the bytes of the buffer. The model's own: that the assertion clears BUSY at once (log entry 16, DEDUCED), and the canonical
form that the free contents of the buffer are put into (log entries 2 and 4). -/
def Obligations.PowerOnResetRestoresRegisters : Prop :=
  ∀ (s : State) (rest : List HostOp),
    (s.coreReady = false → s.host = .assertReset :: rest →
      ∃ t, step s = .next t ∧ t.busy = false ∧ t.resetInput = true ∧ t.host = rest) ∧
    (s.resetInput = true →
      (s.host = .releaseReset :: rest → ∃ t, step s = .next t ∧
        (∀ r : Reg, t.readReg r = State.reset.readReg r) ∧ t.cmdl = 0#32 ∧ t.argl = 0#32 ∧ t.busy = false ∧
        t.resetInput = false ∧ t.host = rest ∧ t.answers = s.answers ∧ bufWf t.buf = true) ∧
      (∀ width offset v, s.host = .read width offset :: rest ∨ s.host = .write width offset v :: rest ∨
          s.host = .wait :: rest →
        step s = .refused .accessDuringReset))

/-- A CMD write while BUSY is 0: with an error pending, a word other than NOP, SOFT_RESET and CLR_ERR is skipped, setting
SKIPPED alone (R285); else the word and ARG0 are latched and BUSY is set (spec/10_state.md R33). -/
def Obligations.CmdWriteIssuesOrSkips : Prop :=
  ∀ (s : State) (w : Word) (rest : List HostOp), s.host = .write .w32 0x010 w :: rest → s.busy = false →
    s.resetInput = false →
    (s.err = 0#9 ∨ (opField w).toNat ∈ [0x00, 0x01, 0x02] → ∃ d n,
      step s = .next { s with
        host := rest, cmdl := w, argl := s.arg0, busy := true, delay := d, draws := n }) ∧
    (s.err ≠ 0#9 → (opField w).toNat ∉ [0x00, 0x01, 0x02] → ∃ d,
      step s = .next { s with host := rest, err := s.err ||| 0x100#9, delay := d })

/-- Host writes while BUSY (R99): ARG0 is written; an unmapped offset is ignored; every other write, to a register or to
the buffer region, is discarded and records OVERRUN. The command in flight is untouched. -/
def Obligations.BusyWritesOverrun : Prop :=
  ∀ (s : State) (width : Width) (offset : Nat) (v : Word) (rest : List HostOp), s.busy = true → s.hostNext →
    s.host = .write width offset v :: rest →
    (width = .w32 → offset = 0x028 →
      step s = .next { s with host := rest, delay := s.delay - 1, arg0 := v }) ∧
    ((width = .w32 ∧ offset ≤ 0x044 ∧ offset % 4 = 0 ∧ offset ≠ 0x028) ∨
        (0x10000 ≤ offset ∧ offset < 0x20000 ∧ offset % width.bytes = 0) →
      step s = .next (({ s with host := rest, delay := s.delay - 1 } : State).recordError .overrun 0#32)) ∧
    (width = .w32 → 0x048 ≤ offset → offset < 0x10000 → offset % 4 = 0 →
      step s = .next { s with host := rest, delay := s.delay - 1 })

/-- Host reads while BUSY (R100): ID and ARG0 answer their values, STATUS answers 1 in bit 0, every other register and
the buffer some value; no read disturbs the command in flight or any other state of the core. -/
def Obligations.BusyReadsDoNotDisturb : Prop :=
  ∀ (s : State) (width : Width) (offset : Nat) (rest : List HostOp), s.busy = true → s.hostNext →
    s.host = .read width offset :: rest →
    (width = .w32 ∧ offset < 0x10000 ∧ offset % 4 = 0) ∨
      (0x10000 ≤ offset ∧ offset < 0x20000 ∧ offset % width.bytes = 0) →
    ∃ v n, step s = .next { s with
        host := rest, delay := s.delay - 1, answers := v :: s.answers, draws := n } ∧
      (offset = 0x000 → v = 0x4D414301#32) ∧ (offset = 0x028 → v = s.arg0) ∧
      (offset = 0x004 → v.getLsbD 0 = true)

/-- The accesses that have no meaning (the refusals that R83, R85 and R101 ask of a model), and that every other access
has one. -/
def Obligations.BadAccessesAreRefused : Prop :=
  ∀ (s : State) (width : Width) (offset : Nat) (v : Word) (rest : List HostOp), s.hostNext →
    s.host = .read width offset :: rest ∨ s.host = .write width offset v :: rest →
    (offset < 0x10000 → width ≠ .w32 ∨ offset % 4 ≠ 0 → step s = .refused .registerBusError) ∧
    (0x10000 ≤ offset → offset < 0x20000 → offset % width.bytes ≠ 0 → step s = .refused .bufferBusError) ∧
    (0x20000 ≤ offset → step s = .refused .outsideWindow) ∧
    ((width = .w32 ∧ offset < 0x10000 ∧ offset % 4 = 0) ∨
        (0x10000 ≤ offset ∧ offset < 0x20000 ∧ offset % width.bytes = 0) →
      ∃ t, step s = .next t)

/-- Unmapped offsets read 0 and ignore writes, busy or not; while BUSY is 0 read-only registers ignore writes and CMD reads
0 (spec/20_memory.md R84, spec/10_state.md R44; the write to an unmapped offset while BUSY is R99's). None of them records
an error. That an unmapped offset reads 0 while BUSY is 1 too is the model's reading of R84 beside R100 (log entry 7,
DEDUCED). -/
def Obligations.UnmappedAndReadOnlyIgnoreWrites : Prop :=
  ∀ (s : State) (offset : Nat) (v : Word) (rest : List HostOp), s.hostNext → offset % 4 = 0 →
    (s.host = .read .w32 offset :: rest → (0x048 ≤ offset ∧ offset ≤ 0xFFFC) ∨ (offset = 0x010 ∧ s.busy = false) →
      step s = .next { s with host := rest, delay := s.delay - 1, answers := 0#32 :: s.answers }) ∧
    (s.host = .write .w32 offset v :: rest →
      (0x048 ≤ offset ∧ offset ≤ 0xFFFC) ∨
        (offset ∈ [0x000, 0x004, 0x008, 0x00C, 0x020, 0x024, 0x02C, 0x030, 0x038, 0x040, 0x044] ∧ s.busy = false) →
      step s = .next { s with host := rest, delay := s.delay - 1 })

/-- Writes of the writable registers while BUSY is 0 store their fields and nothing else (R45, R46, R47, R50, R53, R55). -/
def Obligations.WritableRegistersStoreTheirFields : Prop :=
  ∀ (s : State) (r : Reg) (v : Word) (rest : List HostOp), s.busy = false → s.resetInput = false →
    s.host = .write .w32 r.offset v :: rest →
    ∃ t, step s = .next t ∧
      (r = .wpos → t = { s with host := rest, delay := s.delay - 1, wpos := t.wpos } ∧
        t.readReg .wpos = v &&& 0x000FFFFF#32) ∧
      (r = .rpos → t = { s with host := rest, delay := s.delay - 1, rpos := t.rpos } ∧
        t.readReg .rpos = v &&& 0x000FFFFF#32) ∧
      (r = .rlimit → t = { s with host := rest, delay := s.delay - 1, rlimit := t.rlimit } ∧
        t.readReg .rlimit = v &&& 0x000FFFFF#32) ∧
      (r = .dbgSel → t = { s with host := rest, delay := s.delay - 1, dbgSel := t.dbgSel } ∧
        t.readReg .dbgSel = v &&& 0x0000000F#32) ∧
      (r = .arg0 → t = { s with host := rest, delay := s.delay - 1, arg0 := v }) ∧
      (r = .config → t = { s with host := rest, delay := s.delay - 1, config := v })

/-- A register read while BUSY is 0 answers the register and changes nothing; what each of the eighteen registers reads as
is R40 to R57's. -/
def Obligations.RegisterReadsAnswerTheFields : Prop :=
  ∀ (s : State) (r : Reg) (rest : List HostOp),
    (s.busy = false → s.resetInput = false → s.host = .read .w32 r.offset :: rest →
      step s = .next { s with
        host := rest, delay := s.delay - 1, answers := s.readReg r :: s.answers }) ∧
    s.readReg .id = 0x4D414301#32 ∧
    (s.readReg .status).getLsbD 0 = s.busy ∧ (s.readReg .status).getLsbD 1 = s.cfgValid ∧
    (s.readReg .status).getLsbD 2 = decide (s.err ≠ 0#9) ∧
    (∀ i, 3 ≤ i → (s.readReg .status).getLsbD i = false) ∧
    (s.readReg .err).toNat = s.err.toNat ∧ (s.readReg .cause).toNat = s.cause.toNat ∧ s.readReg .cmd = 0#32 ∧
    (s.readReg .wpos).toNat = s.wpos.toNat ∧ (s.readReg .rpos).toNat = s.rpos.toNat ∧
    (s.readReg .rlimit).toNat = s.rlimit.toNat ∧ (s.readReg .frameWpos).toNat = s.frameWpos.toNat ∧
    (s.readReg .frameRpos).toNat = s.frameRpos.toNat ∧ s.readReg .arg0 = s.arg0 ∧
    s.readReg .cmdCount = s.cmdCount ∧ s.readReg .result = s.result ∧ s.readReg .config = s.config ∧
    s.readReg .active = s.active ∧ (s.readReg .dbgSel).toNat = s.dbgSel.toNat ∧
    (s.cfgValid = true ∧ s.dbgSel.toNat < 8 →
      (s.readReg .dbgK).toNat = (s.ctx s.dbgSel.toNat).K.toNat ∧
      (s.readReg .dbgS).toNat = (s.ctx s.dbgSel.toNat).S.toNat) ∧
    (s.cfgValid = false ∨ 8 ≤ s.dbgSel.toNat → s.readReg .dbgK = 0#32 ∧ s.readReg .dbgS = 0#32)

/-- Host accesses of the buffer while BUSY is 0 are little-endian (R87, R95): a write stores the value's bytes in rising
addresses and leaves every other byte alone; a read answers the bytes so composed and changes nothing. Those bytes are the
bits that the commands write and read, in rising addresses and most significant first within a byte (R86, R88). -/
def Obligations.BufferAccessesAreLittleEndian : Prop :=
  ∀ (s : State) (width : Width) (a : Nat) (v : Word) (rest : List HostOp), s.busy = false →
    s.resetInput = false → a + width.bytes ≤ 65536 → a % width.bytes = 0 →
    (s.host = .write width (0x10000 + a) v :: rest → ∃ b,
      step s = .next { s with host := rest, delay := s.delay - 1, buf := b } ∧
      (∀ i, i < width.bytes → (readByte b (a + i)).toNat = v.toNat / 2 ^ (8 * i) % 256) ∧
      (∀ i j, i < width.bytes → j < 8 → bitRead b (8 * (a + i) + j) = v.getLsbD (8 * i + (7 - j))) ∧
      ∀ x, x < a ∨ a + width.bytes ≤ x → readByte b x = readByte s.buf x) ∧
    (s.host = .read width (0x10000 + a) :: rest → ∃ w : Word,
      step s = .next { s with host := rest, delay := s.delay - 1, answers := w :: s.answers } ∧
      w.toNat = ((Finset.range width.bytes).sum fun i => (readByte s.buf (a + i)).toNat * 2 ^ (8 * i)) ∧
      ∀ i j, i < width.bytes → j < 8 → w.getLsbD (8 * i + (7 - j)) = bitRead s.buf (8 * (a + i) + j))

/-- A host at a WAIT sees the command in flight complete (R331, spec/30_encoding.md R130): each poll before the core's step
answers BUSY = 1 and changes nothing but the model's own fields; then the core's step of the command is taken, BUSY is 0
and the host stands where it stood; one poll more answers BUSY = 0 and ends the WAIT. That the polls before the step are as
many as the finite number the field `delay` holds is the model's choice (log entry 6); R331 leaves the number open. -/
def Obligations.CommandInFlightCompletes : Prop :=
  ∀ (s : State) (rest : List HostOp), s.busy = true → s.resetInput = false → s.host = .wait :: rest →
    ∃ (polls : List Word) (n : Nat) (m t : State) (v : Word),
      polls.length = s.delay ∧ (∀ w ∈ polls, w.getLsbD 0 = true) ∧
      m = { s with delay := 0, answers := polls ++ s.answers, draws := n } ∧
      Host.Core.run Sys2Proof.core s.delay s = .next m ∧
      (∀ i, decode s.cmdl = .cmd i → ∃ t', exec i m = .next t' ∧ t = { t' with busy := false }) ∧
      (∀ why, decode s.cmdl = .illegal why →
        t = { m.recordError (illegalCause why) s.cmdl with busy := false }) ∧
      Host.Core.run Sys2Proof.core (s.delay + 1) s = .next t ∧
      t.busy = false ∧ t.host = s.host ∧ t.answers = m.answers ∧
      Host.Core.run Sys2Proof.core (s.delay + 2) s =
        .next { t with host := rest, delay := t.delay - 1, answers := v :: t.answers } ∧
      v.getLsbD 0 = false

/-- The bit space over the bytes of the buffer (R90): bit p is bit `7 - p % 8` of byte `p / 8`; writing it leaves the other
seven bits of the byte and every other byte as they were. -/
def Obligations.BitsLieMostSignificantFirst : Prop :=
  ∀ (m : List Host.Cell) (p : Nat), p < 524288 →
    bitRead m p = (readByte m (p / 8)).getLsbD (7 - p % 8) ∧
    ∀ b : Bool,
      (∀ j, j < 8 → (readByte (bitWrite m p b) (p / 8)).getLsbD j =
        if j = 7 - p % 8 then b else (readByte m (p / 8)).getLsbD j) ∧
      ∀ a, a ≠ p / 8 → readByte (bitWrite m p b) a = readByte m a
end

