-- ==== Sys2Proof/Laws/Buffer.lean ====
section
/-! SUPPORT. The laws of the bit buffer: read after write at a byte, at a bit and at a bit string
(spec/20_memory.md R90 to R92), and the canonical form that every operation keeps. -/

namespace Sys2Proof.Machine

/-! Read after write at a byte. -/

theorem readByte_dropByte (m : List Host.Cell) (a b : Nat) :
    readByte (dropByte m a) b = if b = a then unlistedByte else readByte m b := by
  induction m with
  | nil => simp [dropByte, readByte]
  | cons c m ih =>
    obtain ⟨d, w⟩ := c
    unfold dropByte at ih ⊢
    rw [List.filter_cons]
    by_cases hd : d = a
    · subst hd
      by_cases hb : b = d <;> simp_all [readByte]
    · by_cases hb : b = a
      · subst hb
        have hd' : ¬ b = d := fun h => hd h.symm
        simp_all [readByte]
      · simp_all [readByte]

theorem readByte_placeByte (m : List Host.Cell) (a b : Nat) (v : Byte) (h : ∀ c ∈ m, c.1 ≠ a) :
    readByte (placeByte m a v) b = if b = a then v else readByte m b := by
  induction m with
  | nil => simp [placeByte, readByte]
  | cons c m ih =>
    obtain ⟨d, w⟩ := c
    have hd : d ≠ a := h (d, w) (by simp)
    have ih := ih fun c hc => h c (by simp [hc])
    rw [placeByte]
    split
    · simp [readByte]
    · rw [readByte, readByte, ih]
      by_cases hb : b = a
      · subst hb; simp [Ne.symm hd]
      · simp [hb]

theorem dropByte_ne (m : List Host.Cell) (a : Nat) : ∀ c ∈ dropByte m a, c.1 ≠ a := by
  intro c hc
  simpa using (List.mem_filter.1 hc).2

theorem readByte_insertByte (m : List Host.Cell) (a b : Nat) (v : Byte) :
    readByte (insertByte m a v) b = if b = a then v else readByte m b := by
  unfold insertByte
  split
  · next h => rw [readByte_dropByte, h]
  · rw [readByte_placeByte _ _ _ _ (dropByte_ne m a), readByte_dropByte]
    split <;> rfl

/-- A byte reads back as written, every other byte as before (spec/20_memory.md R95). -/
theorem readByte_writeByte (m : List Host.Cell) (a b : Nat) (v : Byte) :
    readByte (writeByte m a v) b = if b = a ∧ a < Config.bufBytes then v else readByte m b := by
  unfold writeByte
  split
  · next h => simp [readByte_insertByte, h]
  · next h => simp [h]

/-! Read after write at a bit. -/

theorem getLsbD_setBit (v : Byte) (i j : Nat) (b : Bool) (hi : i < 8) (hj : j < 8) :
    (setBit v i b).getLsbD j = if j = i then b else v.getLsbD j := by
  unfold setBit
  cases b
  · simp only [Bool.false_eq_true, if_false, BitVec.getLsbD_and, BitVec.getLsbD_not,
      BitVec.getLsbD_shiftLeft]
    interval_cases i <;> interval_cases j <;> simp
  · simp only [if_true, BitVec.getLsbD_or, BitVec.getLsbD_shiftLeft]
    interval_cases i <;> interval_cases j <;> simp

/-- A bit reads back as written, every other bit as before (spec/20_memory.md R90). -/
theorem bitRead_bitWrite (m : List Host.Cell) (p q : Nat) (b : Bool) (hp : p < Config.capBits) :
    bitRead (bitWrite m p b) q = if q = p then b else bitRead m q := by
  have ha : p / 8 < Config.bufBytes := by simp only [Config.capBits, Config.bufBytes] at *; omega
  unfold bitRead bitWrite
  rw [readByte_writeByte]
  by_cases hq : q / 8 = p / 8
  · rw [if_pos ⟨hq, ha⟩, getLsbD_setBit _ _ _ _ (by omega) (by omega), ← hq]
    have : (7 - q % 8 = 7 - p % 8) ↔ q = p := by omega
    simp [this]
  · rw [if_neg fun h => hq h.1, if_neg fun h => hq (by rw [h])]

theorem readByte_bitWrite_ne (m : List Host.Cell) (p a : Nat) (b : Bool) (h : a ≠ p / 8) :
    readByte (bitWrite m p b) a = readByte m a := by
  unfold bitWrite
  rw [readByte_writeByte, if_neg fun h' => h h'.1]

/-! Read after write of a bit string. -/

/-- The stored bits read back in order, every other bit as before (spec/20_memory.md R91, R92). -/
theorem bitRead_writeBits (bits : List Bool) (m : List Host.Cell) (p q : Nat)
    (h : p + bits.length ≤ Config.capBits) :
    bitRead (writeBits m p bits) q =
      if p ≤ q then (bits[q - p]?).getD (bitRead m q) else bitRead m q := by
  induction bits generalizing m p with
  | nil => simp [writeBits]
  | cons b bs ih =>
    rw [List.length_cons] at h
    rw [writeBits, ih _ _ (by omega), bitRead_bitWrite _ _ _ _ (by omega)]
    by_cases hq : q = p
    · subst hq; simp
    · by_cases hp : p ≤ q
      · have : q - p = (q - (p + 1)) + 1 := by omega
        simp [hp, this, hq, show p + 1 ≤ q by omega]
      · simp [hp, hq, show ¬ p + 1 ≤ q by omega]

theorem readByte_writeBits (bits : List Bool) (m : List Host.Cell) (p a : Nat)
    (h : 8 * a + 8 ≤ p ∨ p + bits.length ≤ 8 * a) : readByte (writeBits m p bits) a = readByte m a := by
  induction bits generalizing m p with
  | nil => rfl
  | cons b bs ih =>
    rw [List.length_cons] at h
    rw [writeBits, ih _ _ (by omega), readByte_bitWrite_ne _ _ _ _ (by omega)]

/-! Host accesses of several bytes. -/

theorem readByte_memWrite (n : Nat) (m : List Host.Cell) (a b v : Nat) (h : a + n ≤ Config.bufBytes) :
    readByte (memWrite m a n v) b =
      if a ≤ b ∧ b < a + n then BitVec.ofNat 8 (v / 256 ^ (b - a)) else readByte m b := by
  induction n generalizing m a v with
  | zero => simp [memWrite, show ¬ (a ≤ b ∧ b < a) by omega]
  | succ n ih =>
    rw [memWrite, ih _ _ _ (by omega), readByte_writeByte]
    by_cases hb : b = a
    · subst hb
      simp [show b < Config.bufBytes by omega]
    · by_cases hr : a ≤ b ∧ b < a + (n + 1)
      · have : b - a = (b - (a + 1)) + 1 := by omega
        rw [if_pos hr, if_pos (by omega), this, pow_succ', ← Nat.div_div_eq_div_mul]
      · rw [if_neg hr, if_neg (by omega), if_neg fun h' => hb h'.1]

/-! The canonical form. -/

theorem cellsRising_filter (m : List Host.Cell) (f : Host.Cell → Bool) (h : cellsRising m = true) :
    cellsRising (m.filter f) = true := by
  induction m with
  | nil => rfl
  | cons c m ih =>
    obtain ⟨a, v⟩ := c
    rw [cellsRising, Bool.and_eq_true, List.all_eq_true] at h
    rw [List.filter_cons]
    split
    · rw [cellsRising, Bool.and_eq_true, List.all_eq_true]
      exact ⟨fun x hx => h.1 x (List.mem_filter.1 hx).1, ih h.2⟩
    · exact ih h.2

theorem mem_placeByte (m : List Host.Cell) (a : Nat) (v : Byte) (c : Host.Cell) :
    c ∈ placeByte m a v ↔ c = (a, v) ∨ c ∈ m := by
  induction m with
  | nil => simp [placeByte]
  | cons d m ih =>
    rw [placeByte]
    split
    · simp
    · simp [ih, or_left_comm]

theorem cellsRising_placeByte (m : List Host.Cell) (a : Nat) (v : Byte) (h : cellsRising m = true)
    (hne : ∀ c ∈ m, c.1 ≠ a) : cellsRising (placeByte m a v) = true := by
  induction m with
  | nil => rfl
  | cons d m ih =>
    obtain ⟨b, w⟩ := d
    have hr := h
    rw [cellsRising, Bool.and_eq_true, List.all_eq_true] at h
    have hb : b ≠ a := hne (b, w) (by simp)
    rw [placeByte]
    split
    · next hab =>
      rw [cellsRising, hr, Bool.and_true, List.all_eq_true]
      intro c hc
      rcases List.mem_cons.1 hc with rfl | hc
      · simpa using hab
      · have := h.1 c hc
        simp only [decide_eq_true_eq] at this ⊢
        omega
    · rw [cellsRising, ih h.2 fun c hc => hne c (by simp [hc]), Bool.and_true, List.all_eq_true]
      intro c hc
      rcases (mem_placeByte m a v c).1 hc with rfl | hc
      · simp only [decide_eq_true_eq]; omega
      · exact h.1 c hc

/-- Writing a byte keeps the canonical form. -/
theorem bufWf_writeByte (m : List Host.Cell) (a : Nat) (v : Byte) (h : bufWf m = true) :
    bufWf (writeByte m a v) = true := by
  unfold writeByte
  split
  · next ha =>
    unfold bufWf at h
    rw [Bool.and_eq_true, List.all_eq_true] at h
    have hd : cellsRising (dropByte m a) = true := cellsRising_filter _ _ h.1
    have hm : ∀ c ∈ dropByte m a, c ∈ m := fun c hc => (List.mem_filter.1 hc).1
    unfold insertByte bufWf
    split
    · rw [hd, Bool.true_and, List.all_eq_true]
      exact fun c hc => h.2 c (hm c hc)
    · next hv =>
      rw [cellsRising_placeByte _ _ _ hd (dropByte_ne m a), Bool.true_and, List.all_eq_true]
      intro c hc
      rcases (mem_placeByte _ _ _ c).1 hc with rfl | hc
      · simp [ha, hv]
      · exact h.2 c (hm c hc)
  · exact h

/-- Writing a bit keeps the canonical form. -/
theorem bufWf_bitWrite (m : List Host.Cell) (p : Nat) (b : Bool) (h : bufWf m = true) :
    bufWf (bitWrite m p b) = true := bufWf_writeByte _ _ _ h

/-- Writing a bit string keeps the canonical form. -/
theorem bufWf_writeBits (bits : List Bool) (m : List Host.Cell) (p : Nat) (h : bufWf m = true) :
    bufWf (writeBits m p bits) = true := by
  induction bits generalizing m p with
  | nil => exact h
  | cons b bs ih => exact ih _ _ (bufWf_bitWrite m p b h)

/-- A host write keeps the canonical form. -/
theorem bufWf_memWrite (n : Nat) (m : List Host.Cell) (a v : Nat) (h : bufWf m = true) :
    bufWf (memWrite m a n v) = true := by
  induction n generalizing m a v with
  | zero => exact h
  | succ n ih => exact ih _ _ _ (bufWf_writeByte m a _ h)

/-- Contents drawn at a power-on reset are in the canonical form. -/
theorem bufWf_ofCells (cs : List Host.Cell) : bufWf (ofCells cs) = true := by
  induction cs with
  | nil => rfl
  | cons c cs ih => exact bufWf_writeByte _ _ _ ih

/-- The reset state's buffer is in the canonical form. -/
theorem bufWf_reset : bufWf State.reset.buf = true := rfl

end Sys2Proof.Machine
end

