-- ==== Sys2Proof/Laws/State.lean ====
section
/-! SUPPORT. One lemma per field per update of the state, each true by `rfl`, so that no proof unfolds a record
update. -/

namespace Sys2Proof.Machine

/-! RecordError (spec/60_exceptions.md R283). -/

@[simp] theorem State.recordError_cfgValid (s : State) (k : Cause) (w : Word) :
    (s.recordError k w).cfgValid = s.cfgValid := rfl
@[simp] theorem State.recordError_err (s : State) (k : Cause) (w : Word) :
    (s.recordError k w).err = s.err ||| k.errMask := rfl
@[simp] theorem State.recordError_cause (s : State) (k : Cause) (w : Word) :
    (s.recordError k w).cause = if s.err = 0#9 then causeWord k w else s.cause := rfl
@[simp] theorem State.recordError_wpos (s : State) (k : Cause) (w : Word) :
    (s.recordError k w).wpos = s.wpos := rfl
@[simp] theorem State.recordError_rpos (s : State) (k : Cause) (w : Word) :
    (s.recordError k w).rpos = s.rpos := rfl
@[simp] theorem State.recordError_rlimit (s : State) (k : Cause) (w : Word) :
    (s.recordError k w).rlimit = s.rlimit := rfl
@[simp] theorem State.recordError_frameWpos (s : State) (k : Cause) (w : Word) :
    (s.recordError k w).frameWpos = s.frameWpos := rfl
@[simp] theorem State.recordError_frameRpos (s : State) (k : Cause) (w : Word) :
    (s.recordError k w).frameRpos = s.frameRpos := rfl
@[simp] theorem State.recordError_arg0 (s : State) (k : Cause) (w : Word) :
    (s.recordError k w).arg0 = s.arg0 := rfl
@[simp] theorem State.recordError_cmdCount (s : State) (k : Cause) (w : Word) :
    (s.recordError k w).cmdCount = s.cmdCount := rfl
@[simp] theorem State.recordError_result (s : State) (k : Cause) (w : Word) :
    (s.recordError k w).result = s.result := rfl
@[simp] theorem State.recordError_config (s : State) (k : Cause) (w : Word) :
    (s.recordError k w).config = s.config := rfl
@[simp] theorem State.recordError_active (s : State) (k : Cause) (w : Word) :
    (s.recordError k w).active = s.active := rfl
@[simp] theorem State.recordError_dbgSel (s : State) (k : Cause) (w : Word) :
    (s.recordError k w).dbgSel = s.dbgSel := rfl
@[simp] theorem State.recordError_cmdl (s : State) (k : Cause) (w : Word) :
    (s.recordError k w).cmdl = s.cmdl := rfl
@[simp] theorem State.recordError_argl (s : State) (k : Cause) (w : Word) :
    (s.recordError k w).argl = s.argl := rfl
@[simp] theorem State.recordError_busy (s : State) (k : Cause) (w : Word) :
    (s.recordError k w).busy = s.busy := rfl
@[simp] theorem State.recordError_ctxs (s : State) (k : Cause) (w : Word) :
    (s.recordError k w).ctxs = s.ctxs := rfl
@[simp] theorem State.recordError_buf (s : State) (k : Cause) (w : Word) :
    (s.recordError k w).buf = s.buf := rfl
@[simp] theorem State.recordError_resetInput (s : State) (k : Cause) (w : Word) :
    (s.recordError k w).resetInput = s.resetInput := rfl
@[simp] theorem State.recordError_host (s : State) (k : Cause) (w : Word) :
    (s.recordError k w).host = s.host := rfl
@[simp] theorem State.recordError_answers (s : State) (k : Cause) (w : Word) :
    (s.recordError k w).answers = s.answers := rfl
@[simp] theorem State.recordError_delay (s : State) (k : Cause) (w : Word) :
    (s.recordError k w).delay = s.delay := rfl
@[simp] theorem State.recordError_draws (s : State) (k : Cause) (w : Word) :
    (s.recordError k w).draws = s.draws := rfl

/-! The return from an error (R262). -/

@[simp] theorem State.clearError_cfgValid (s : State) : s.clearError.cfgValid = s.cfgValid := rfl
@[simp] theorem State.clearError_err (s : State) : s.clearError.err = 0#9 := rfl
@[simp] theorem State.clearError_cause (s : State) : s.clearError.cause = 0#20 := rfl
@[simp] theorem State.clearError_wpos (s : State) : s.clearError.wpos = s.wpos := rfl
@[simp] theorem State.clearError_rpos (s : State) : s.clearError.rpos = s.rpos := rfl
@[simp] theorem State.clearError_rlimit (s : State) : s.clearError.rlimit = s.rlimit := rfl
@[simp] theorem State.clearError_frameWpos (s : State) : s.clearError.frameWpos = s.frameWpos := rfl
@[simp] theorem State.clearError_frameRpos (s : State) : s.clearError.frameRpos = s.frameRpos := rfl
@[simp] theorem State.clearError_arg0 (s : State) : s.clearError.arg0 = s.arg0 := rfl
@[simp] theorem State.clearError_cmdCount (s : State) : s.clearError.cmdCount = s.cmdCount := rfl
@[simp] theorem State.clearError_result (s : State) : s.clearError.result = s.result := rfl
@[simp] theorem State.clearError_config (s : State) : s.clearError.config = s.config := rfl
@[simp] theorem State.clearError_active (s : State) : s.clearError.active = s.active := rfl
@[simp] theorem State.clearError_dbgSel (s : State) : s.clearError.dbgSel = s.dbgSel := rfl
@[simp] theorem State.clearError_cmdl (s : State) : s.clearError.cmdl = s.cmdl := rfl
@[simp] theorem State.clearError_argl (s : State) : s.clearError.argl = s.argl := rfl
@[simp] theorem State.clearError_busy (s : State) : s.clearError.busy = s.busy := rfl
@[simp] theorem State.clearError_ctxs (s : State) : s.clearError.ctxs = s.ctxs := rfl
@[simp] theorem State.clearError_buf (s : State) : s.clearError.buf = s.buf := rfl
@[simp] theorem State.clearError_resetInput (s : State) : s.clearError.resetInput = s.resetInput := rfl
@[simp] theorem State.clearError_host (s : State) : s.clearError.host = s.host := rfl
@[simp] theorem State.clearError_answers (s : State) : s.clearError.answers = s.answers := rfl
@[simp] theorem State.clearError_delay (s : State) : s.clearError.delay = s.delay := rfl
@[simp] theorem State.clearError_draws (s : State) : s.clearError.draws = s.draws := rfl

/-! The count of a completed command (R51). -/

@[simp] theorem State.count_cfgValid (s : State) : s.count.cfgValid = s.cfgValid := rfl
@[simp] theorem State.count_err (s : State) : s.count.err = s.err := rfl
@[simp] theorem State.count_cause (s : State) : s.count.cause = s.cause := rfl
@[simp] theorem State.count_wpos (s : State) : s.count.wpos = s.wpos := rfl
@[simp] theorem State.count_rpos (s : State) : s.count.rpos = s.rpos := rfl
@[simp] theorem State.count_rlimit (s : State) : s.count.rlimit = s.rlimit := rfl
@[simp] theorem State.count_frameWpos (s : State) : s.count.frameWpos = s.frameWpos := rfl
@[simp] theorem State.count_frameRpos (s : State) : s.count.frameRpos = s.frameRpos := rfl
@[simp] theorem State.count_arg0 (s : State) : s.count.arg0 = s.arg0 := rfl
@[simp] theorem State.count_cmdCount (s : State) : s.count.cmdCount = s.cmdCount + 1#32 := rfl
@[simp] theorem State.count_result (s : State) : s.count.result = s.result := rfl
@[simp] theorem State.count_config (s : State) : s.count.config = s.config := rfl
@[simp] theorem State.count_active (s : State) : s.count.active = s.active := rfl
@[simp] theorem State.count_dbgSel (s : State) : s.count.dbgSel = s.dbgSel := rfl
@[simp] theorem State.count_cmdl (s : State) : s.count.cmdl = s.cmdl := rfl
@[simp] theorem State.count_argl (s : State) : s.count.argl = s.argl := rfl
@[simp] theorem State.count_busy (s : State) : s.count.busy = s.busy := rfl
@[simp] theorem State.count_ctxs (s : State) : s.count.ctxs = s.ctxs := rfl
@[simp] theorem State.count_buf (s : State) : s.count.buf = s.buf := rfl
@[simp] theorem State.count_resetInput (s : State) : s.count.resetInput = s.resetInput := rfl
@[simp] theorem State.count_host (s : State) : s.count.host = s.host := rfl
@[simp] theorem State.count_answers (s : State) : s.count.answers = s.answers := rfl
@[simp] theorem State.count_delay (s : State) : s.count.delay = s.delay := rfl
@[simp] theorem State.count_draws (s : State) : s.count.draws = s.draws := rfl

/-! The write of a context (R60). -/

@[simp] theorem State.setCtx_cfgValid (s : State) (c : Nat) (x : Ctx) :
    (s.setCtx c x).cfgValid = s.cfgValid := rfl
@[simp] theorem State.setCtx_err (s : State) (c : Nat) (x : Ctx) : (s.setCtx c x).err = s.err := rfl
@[simp] theorem State.setCtx_cause (s : State) (c : Nat) (x : Ctx) : (s.setCtx c x).cause = s.cause := rfl
@[simp] theorem State.setCtx_wpos (s : State) (c : Nat) (x : Ctx) : (s.setCtx c x).wpos = s.wpos := rfl
@[simp] theorem State.setCtx_rpos (s : State) (c : Nat) (x : Ctx) : (s.setCtx c x).rpos = s.rpos := rfl
@[simp] theorem State.setCtx_rlimit (s : State) (c : Nat) (x : Ctx) : (s.setCtx c x).rlimit = s.rlimit := rfl
@[simp] theorem State.setCtx_frameWpos (s : State) (c : Nat) (x : Ctx) :
    (s.setCtx c x).frameWpos = s.frameWpos := rfl
@[simp] theorem State.setCtx_frameRpos (s : State) (c : Nat) (x : Ctx) :
    (s.setCtx c x).frameRpos = s.frameRpos := rfl
@[simp] theorem State.setCtx_arg0 (s : State) (c : Nat) (x : Ctx) : (s.setCtx c x).arg0 = s.arg0 := rfl
@[simp] theorem State.setCtx_cmdCount (s : State) (c : Nat) (x : Ctx) :
    (s.setCtx c x).cmdCount = s.cmdCount := rfl
@[simp] theorem State.setCtx_result (s : State) (c : Nat) (x : Ctx) : (s.setCtx c x).result = s.result := rfl
@[simp] theorem State.setCtx_config (s : State) (c : Nat) (x : Ctx) : (s.setCtx c x).config = s.config := rfl
@[simp] theorem State.setCtx_active (s : State) (c : Nat) (x : Ctx) : (s.setCtx c x).active = s.active := rfl
@[simp] theorem State.setCtx_dbgSel (s : State) (c : Nat) (x : Ctx) : (s.setCtx c x).dbgSel = s.dbgSel := rfl
@[simp] theorem State.setCtx_cmdl (s : State) (c : Nat) (x : Ctx) : (s.setCtx c x).cmdl = s.cmdl := rfl
@[simp] theorem State.setCtx_argl (s : State) (c : Nat) (x : Ctx) : (s.setCtx c x).argl = s.argl := rfl
@[simp] theorem State.setCtx_busy (s : State) (c : Nat) (x : Ctx) : (s.setCtx c x).busy = s.busy := rfl
@[simp] theorem State.setCtx_ctxs (s : State) (c : Nat) (x : Ctx) :
    (s.setCtx c x).ctxs = s.ctxs.setIfInBounds c x := rfl
@[simp] theorem State.setCtx_buf (s : State) (c : Nat) (x : Ctx) : (s.setCtx c x).buf = s.buf := rfl
@[simp] theorem State.setCtx_resetInput (s : State) (c : Nat) (x : Ctx) :
    (s.setCtx c x).resetInput = s.resetInput := rfl
@[simp] theorem State.setCtx_host (s : State) (c : Nat) (x : Ctx) : (s.setCtx c x).host = s.host := rfl
@[simp] theorem State.setCtx_answers (s : State) (c : Nat) (x : Ctx) :
    (s.setCtx c x).answers = s.answers := rfl
@[simp] theorem State.setCtx_delay (s : State) (c : Nat) (x : Ctx) : (s.setCtx c x).delay = s.delay := rfl
@[simp] theorem State.setCtx_draws (s : State) (c : Nat) (x : Ctx) : (s.setCtx c x).draws = s.draws := rfl

/-! The end of the core's step (R282). -/

@[simp] theorem State.retire_cfgValid (s : State) : s.retire.cfgValid = s.cfgValid := rfl
@[simp] theorem State.retire_err (s : State) : s.retire.err = s.err := rfl
@[simp] theorem State.retire_cause (s : State) : s.retire.cause = s.cause := rfl
@[simp] theorem State.retire_wpos (s : State) : s.retire.wpos = s.wpos := rfl
@[simp] theorem State.retire_rpos (s : State) : s.retire.rpos = s.rpos := rfl
@[simp] theorem State.retire_rlimit (s : State) : s.retire.rlimit = s.rlimit := rfl
@[simp] theorem State.retire_frameWpos (s : State) : s.retire.frameWpos = s.frameWpos := rfl
@[simp] theorem State.retire_frameRpos (s : State) : s.retire.frameRpos = s.frameRpos := rfl
@[simp] theorem State.retire_arg0 (s : State) : s.retire.arg0 = s.arg0 := rfl
@[simp] theorem State.retire_cmdCount (s : State) : s.retire.cmdCount = s.cmdCount := rfl
@[simp] theorem State.retire_result (s : State) : s.retire.result = s.result := rfl
@[simp] theorem State.retire_config (s : State) : s.retire.config = s.config := rfl
@[simp] theorem State.retire_active (s : State) : s.retire.active = s.active := rfl
@[simp] theorem State.retire_dbgSel (s : State) : s.retire.dbgSel = s.dbgSel := rfl
@[simp] theorem State.retire_cmdl (s : State) : s.retire.cmdl = s.cmdl := rfl
@[simp] theorem State.retire_argl (s : State) : s.retire.argl = s.argl := rfl
@[simp] theorem State.retire_busy (s : State) : s.retire.busy = false := rfl
@[simp] theorem State.retire_ctxs (s : State) : s.retire.ctxs = s.ctxs := rfl
@[simp] theorem State.retire_buf (s : State) : s.retire.buf = s.buf := rfl
@[simp] theorem State.retire_resetInput (s : State) : s.retire.resetInput = s.resetInput := rfl
@[simp] theorem State.retire_host (s : State) : s.retire.host = s.host := rfl
@[simp] theorem State.retire_answers (s : State) : s.retire.answers = s.answers := rfl
@[simp] theorem State.retire_delay (s : State) : s.retire.delay = s.delay := rfl
@[simp] theorem State.retire_draws (s : State) : s.retire.draws = s.draws := rfl

/-! A read's answer to the host. -/

@[simp] theorem State.answer_cfgValid (s : State) (v : Word) : (s.answer v).cfgValid = s.cfgValid := rfl
@[simp] theorem State.answer_err (s : State) (v : Word) : (s.answer v).err = s.err := rfl
@[simp] theorem State.answer_cause (s : State) (v : Word) : (s.answer v).cause = s.cause := rfl
@[simp] theorem State.answer_wpos (s : State) (v : Word) : (s.answer v).wpos = s.wpos := rfl
@[simp] theorem State.answer_rpos (s : State) (v : Word) : (s.answer v).rpos = s.rpos := rfl
@[simp] theorem State.answer_rlimit (s : State) (v : Word) : (s.answer v).rlimit = s.rlimit := rfl
@[simp] theorem State.answer_frameWpos (s : State) (v : Word) : (s.answer v).frameWpos = s.frameWpos := rfl
@[simp] theorem State.answer_frameRpos (s : State) (v : Word) : (s.answer v).frameRpos = s.frameRpos := rfl
@[simp] theorem State.answer_arg0 (s : State) (v : Word) : (s.answer v).arg0 = s.arg0 := rfl
@[simp] theorem State.answer_cmdCount (s : State) (v : Word) : (s.answer v).cmdCount = s.cmdCount := rfl
@[simp] theorem State.answer_result (s : State) (v : Word) : (s.answer v).result = s.result := rfl
@[simp] theorem State.answer_config (s : State) (v : Word) : (s.answer v).config = s.config := rfl
@[simp] theorem State.answer_active (s : State) (v : Word) : (s.answer v).active = s.active := rfl
@[simp] theorem State.answer_dbgSel (s : State) (v : Word) : (s.answer v).dbgSel = s.dbgSel := rfl
@[simp] theorem State.answer_cmdl (s : State) (v : Word) : (s.answer v).cmdl = s.cmdl := rfl
@[simp] theorem State.answer_argl (s : State) (v : Word) : (s.answer v).argl = s.argl := rfl
@[simp] theorem State.answer_busy (s : State) (v : Word) : (s.answer v).busy = s.busy := rfl
@[simp] theorem State.answer_ctxs (s : State) (v : Word) : (s.answer v).ctxs = s.ctxs := rfl
@[simp] theorem State.answer_buf (s : State) (v : Word) : (s.answer v).buf = s.buf := rfl
@[simp] theorem State.answer_resetInput (s : State) (v : Word) : (s.answer v).resetInput = s.resetInput := rfl
@[simp] theorem State.answer_host (s : State) (v : Word) : (s.answer v).host = s.host := rfl
@[simp] theorem State.answer_answers (s : State) (v : Word) : (s.answer v).answers = v :: s.answers := rfl
@[simp] theorem State.answer_delay (s : State) (v : Word) : (s.answer v).delay = s.delay := rfl
@[simp] theorem State.answer_draws (s : State) (v : Word) : (s.answer v).draws = s.draws := rfl

/-! OVERRUN (spec/20_memory.md R99). -/

@[simp] theorem State.overrun_cfgValid (s : State) : s.overrun.cfgValid = s.cfgValid := rfl
@[simp] theorem State.overrun_err (s : State) : s.overrun.err = s.err ||| Cause.overrun.errMask := rfl
@[simp] theorem State.overrun_cause (s : State) :
    s.overrun.cause = if s.err = 0#9 then causeWord .overrun 0#32 else s.cause := rfl
@[simp] theorem State.overrun_wpos (s : State) : s.overrun.wpos = s.wpos := rfl
@[simp] theorem State.overrun_rpos (s : State) : s.overrun.rpos = s.rpos := rfl
@[simp] theorem State.overrun_rlimit (s : State) : s.overrun.rlimit = s.rlimit := rfl
@[simp] theorem State.overrun_frameWpos (s : State) : s.overrun.frameWpos = s.frameWpos := rfl
@[simp] theorem State.overrun_frameRpos (s : State) : s.overrun.frameRpos = s.frameRpos := rfl
@[simp] theorem State.overrun_arg0 (s : State) : s.overrun.arg0 = s.arg0 := rfl
@[simp] theorem State.overrun_cmdCount (s : State) : s.overrun.cmdCount = s.cmdCount := rfl
@[simp] theorem State.overrun_result (s : State) : s.overrun.result = s.result := rfl
@[simp] theorem State.overrun_config (s : State) : s.overrun.config = s.config := rfl
@[simp] theorem State.overrun_active (s : State) : s.overrun.active = s.active := rfl
@[simp] theorem State.overrun_dbgSel (s : State) : s.overrun.dbgSel = s.dbgSel := rfl
@[simp] theorem State.overrun_cmdl (s : State) : s.overrun.cmdl = s.cmdl := rfl
@[simp] theorem State.overrun_argl (s : State) : s.overrun.argl = s.argl := rfl
@[simp] theorem State.overrun_busy (s : State) : s.overrun.busy = s.busy := rfl
@[simp] theorem State.overrun_ctxs (s : State) : s.overrun.ctxs = s.ctxs := rfl
@[simp] theorem State.overrun_buf (s : State) : s.overrun.buf = s.buf := rfl
@[simp] theorem State.overrun_resetInput (s : State) : s.overrun.resetInput = s.resetInput := rfl
@[simp] theorem State.overrun_host (s : State) : s.overrun.host = s.host := rfl
@[simp] theorem State.overrun_answers (s : State) : s.overrun.answers = s.answers := rfl
@[simp] theorem State.overrun_delay (s : State) : s.overrun.delay = s.delay := rfl
@[simp] theorem State.overrun_draws (s : State) : s.overrun.draws = s.draws := rfl

/-! SOFT_RESET (R261). -/

@[simp] theorem State.softReset_cfgValid (s : State) : s.softReset.cfgValid = State.reset.cfgValid := rfl
@[simp] theorem State.softReset_err (s : State) : s.softReset.err = State.reset.err := rfl
@[simp] theorem State.softReset_cause (s : State) : s.softReset.cause = State.reset.cause := rfl
@[simp] theorem State.softReset_wpos (s : State) : s.softReset.wpos = State.reset.wpos := rfl
@[simp] theorem State.softReset_rpos (s : State) : s.softReset.rpos = State.reset.rpos := rfl
@[simp] theorem State.softReset_rlimit (s : State) : s.softReset.rlimit = State.reset.rlimit := rfl
@[simp] theorem State.softReset_frameWpos (s : State) : s.softReset.frameWpos = State.reset.frameWpos := rfl
@[simp] theorem State.softReset_frameRpos (s : State) : s.softReset.frameRpos = State.reset.frameRpos := rfl
@[simp] theorem State.softReset_arg0 (s : State) : s.softReset.arg0 = State.reset.arg0 := rfl
@[simp] theorem State.softReset_cmdCount (s : State) : s.softReset.cmdCount = State.reset.cmdCount := rfl
@[simp] theorem State.softReset_result (s : State) : s.softReset.result = State.reset.result := rfl
@[simp] theorem State.softReset_config (s : State) : s.softReset.config = State.reset.config := rfl
@[simp] theorem State.softReset_active (s : State) : s.softReset.active = State.reset.active := rfl
@[simp] theorem State.softReset_dbgSel (s : State) : s.softReset.dbgSel = State.reset.dbgSel := rfl
@[simp] theorem State.softReset_cmdl (s : State) : s.softReset.cmdl = State.reset.cmdl := rfl
@[simp] theorem State.softReset_argl (s : State) : s.softReset.argl = State.reset.argl := rfl
@[simp] theorem State.softReset_busy (s : State) : s.softReset.busy = State.reset.busy := rfl
@[simp] theorem State.softReset_ctxs (s : State) : s.softReset.ctxs = drawContexts s.draws := rfl
@[simp] theorem State.softReset_buf (s : State) : s.softReset.buf = s.buf := rfl
@[simp] theorem State.softReset_resetInput (s : State) : s.softReset.resetInput = s.resetInput := rfl
@[simp] theorem State.softReset_host (s : State) : s.softReset.host = s.host := rfl
@[simp] theorem State.softReset_answers (s : State) : s.softReset.answers = s.answers := rfl
@[simp] theorem State.softReset_delay (s : State) : s.softReset.delay = State.reset.delay := rfl
@[simp] theorem State.softReset_draws (s : State) : s.softReset.draws = s.draws + 1 := rfl

/-! The power-on reset (R320). -/

@[simp] theorem State.powerOnReset_cfgValid (s : State) :
    s.powerOnReset.cfgValid = State.reset.cfgValid := rfl
@[simp] theorem State.powerOnReset_err (s : State) : s.powerOnReset.err = State.reset.err := rfl
@[simp] theorem State.powerOnReset_cause (s : State) : s.powerOnReset.cause = State.reset.cause := rfl
@[simp] theorem State.powerOnReset_wpos (s : State) : s.powerOnReset.wpos = State.reset.wpos := rfl
@[simp] theorem State.powerOnReset_rpos (s : State) : s.powerOnReset.rpos = State.reset.rpos := rfl
@[simp] theorem State.powerOnReset_rlimit (s : State) : s.powerOnReset.rlimit = State.reset.rlimit := rfl
@[simp] theorem State.powerOnReset_frameWpos (s : State) :
    s.powerOnReset.frameWpos = State.reset.frameWpos := rfl
@[simp] theorem State.powerOnReset_frameRpos (s : State) :
    s.powerOnReset.frameRpos = State.reset.frameRpos := rfl
@[simp] theorem State.powerOnReset_arg0 (s : State) : s.powerOnReset.arg0 = State.reset.arg0 := rfl
@[simp] theorem State.powerOnReset_cmdCount (s : State) :
    s.powerOnReset.cmdCount = State.reset.cmdCount := rfl
@[simp] theorem State.powerOnReset_result (s : State) : s.powerOnReset.result = State.reset.result := rfl
@[simp] theorem State.powerOnReset_config (s : State) : s.powerOnReset.config = State.reset.config := rfl
@[simp] theorem State.powerOnReset_active (s : State) : s.powerOnReset.active = State.reset.active := rfl
@[simp] theorem State.powerOnReset_dbgSel (s : State) : s.powerOnReset.dbgSel = State.reset.dbgSel := rfl
@[simp] theorem State.powerOnReset_cmdl (s : State) : s.powerOnReset.cmdl = State.reset.cmdl := rfl
@[simp] theorem State.powerOnReset_argl (s : State) : s.powerOnReset.argl = State.reset.argl := rfl
@[simp] theorem State.powerOnReset_busy (s : State) : s.powerOnReset.busy = State.reset.busy := rfl
@[simp] theorem State.powerOnReset_ctxs (s : State) : s.powerOnReset.ctxs = drawContexts s.draws := rfl
@[simp] theorem State.powerOnReset_buf (s : State) :
    s.powerOnReset.buf = ofCells (Config.powerOnCells s.draws) := rfl
@[simp] theorem State.powerOnReset_resetInput (s : State) : s.powerOnReset.resetInput = s.resetInput := rfl
@[simp] theorem State.powerOnReset_host (s : State) : s.powerOnReset.host = s.host := rfl
@[simp] theorem State.powerOnReset_answers (s : State) : s.powerOnReset.answers = s.answers := rfl
@[simp] theorem State.powerOnReset_delay (s : State) : s.powerOnReset.delay = State.reset.delay := rfl
@[simp] theorem State.powerOnReset_draws (s : State) : s.powerOnReset.draws = s.draws + 1 := rfl

/-! The placing of a command. -/

@[simp] theorem State.withCommand_cfgValid (s : State) (w : Word) :
    (s.withCommand w).cfgValid = s.cfgValid := rfl
@[simp] theorem State.withCommand_err (s : State) (w : Word) : (s.withCommand w).err = s.err := rfl
@[simp] theorem State.withCommand_cause (s : State) (w : Word) : (s.withCommand w).cause = s.cause := rfl
@[simp] theorem State.withCommand_wpos (s : State) (w : Word) : (s.withCommand w).wpos = s.wpos := rfl
@[simp] theorem State.withCommand_rpos (s : State) (w : Word) : (s.withCommand w).rpos = s.rpos := rfl
@[simp] theorem State.withCommand_rlimit (s : State) (w : Word) : (s.withCommand w).rlimit = s.rlimit := rfl
@[simp] theorem State.withCommand_frameWpos (s : State) (w : Word) :
    (s.withCommand w).frameWpos = s.frameWpos := rfl
@[simp] theorem State.withCommand_frameRpos (s : State) (w : Word) :
    (s.withCommand w).frameRpos = s.frameRpos := rfl
@[simp] theorem State.withCommand_arg0 (s : State) (w : Word) : (s.withCommand w).arg0 = s.arg0 := rfl
@[simp] theorem State.withCommand_cmdCount (s : State) (w : Word) :
    (s.withCommand w).cmdCount = s.cmdCount := rfl
@[simp] theorem State.withCommand_result (s : State) (w : Word) : (s.withCommand w).result = s.result := rfl
@[simp] theorem State.withCommand_config (s : State) (w : Word) : (s.withCommand w).config = s.config := rfl
@[simp] theorem State.withCommand_active (s : State) (w : Word) : (s.withCommand w).active = s.active := rfl
@[simp] theorem State.withCommand_dbgSel (s : State) (w : Word) : (s.withCommand w).dbgSel = s.dbgSel := rfl
@[simp] theorem State.withCommand_cmdl (s : State) (w : Word) : (s.withCommand w).cmdl = w := rfl
@[simp] theorem State.withCommand_argl (s : State) (w : Word) : (s.withCommand w).argl = s.arg0 := rfl
@[simp] theorem State.withCommand_busy (s : State) (w : Word) : (s.withCommand w).busy = true := rfl
@[simp] theorem State.withCommand_ctxs (s : State) (w : Word) : (s.withCommand w).ctxs = s.ctxs := rfl
@[simp] theorem State.withCommand_buf (s : State) (w : Word) : (s.withCommand w).buf = s.buf := rfl
@[simp] theorem State.withCommand_resetInput (s : State) (w : Word) :
    (s.withCommand w).resetInput = false := rfl
@[simp] theorem State.withCommand_host (s : State) (w : Word) : (s.withCommand w).host = s.host := rfl
@[simp] theorem State.withCommand_answers (s : State) (w : Word) :
    (s.withCommand w).answers = s.answers := rfl
@[simp] theorem State.withCommand_delay (s : State) (w : Word) : (s.withCommand w).delay = 0 := rfl
@[simp] theorem State.withCommand_draws (s : State) (w : Word) : (s.withCommand w).draws = s.draws := rfl

/-! What the accessors read after the updates that leave their fields alone. -/

@[simp] theorem State.recordError_level (s : State) (k : Cause) (w : Word) : (s.recordError k w).level = s.level := rfl
@[simp] theorem State.recordError_depth (s : State) (k : Cause) (w : Word) : (s.recordError k w).depth = s.depth := rfl
@[simp] theorem State.recordError_channels (s : State) (k : Cause) (w : Word) : (s.recordError k w).channels = s.channels := rfl
@[simp] theorem State.recordError_readLimit (s : State) (k : Cause) (w : Word) : (s.recordError k w).readLimit = s.readLimit := rfl
@[simp] theorem State.recordError_ctx (s : State) (k : Cause) (w : Word) (j : Nat) : (s.recordError k w).ctx j = s.ctx j := rfl
@[simp] theorem State.clearError_level (s : State) : s.clearError.level = s.level := rfl
@[simp] theorem State.clearError_depth (s : State) : s.clearError.depth = s.depth := rfl
@[simp] theorem State.clearError_channels (s : State) : s.clearError.channels = s.channels := rfl
@[simp] theorem State.clearError_readLimit (s : State) : s.clearError.readLimit = s.readLimit := rfl
@[simp] theorem State.clearError_ctx (s : State) (j : Nat) : s.clearError.ctx j = s.ctx j := rfl
@[simp] theorem State.count_level (s : State) : s.count.level = s.level := rfl
@[simp] theorem State.count_depth (s : State) : s.count.depth = s.depth := rfl
@[simp] theorem State.count_channels (s : State) : s.count.channels = s.channels := rfl
@[simp] theorem State.count_readLimit (s : State) : s.count.readLimit = s.readLimit := rfl
@[simp] theorem State.count_ctx (s : State) (j : Nat) : s.count.ctx j = s.ctx j := rfl
@[simp] theorem State.setCtx_level (s : State) (c : Nat) (x : Ctx) : (s.setCtx c x).level = s.level := rfl
@[simp] theorem State.setCtx_depth (s : State) (c : Nat) (x : Ctx) : (s.setCtx c x).depth = s.depth := rfl
@[simp] theorem State.setCtx_channels (s : State) (c : Nat) (x : Ctx) : (s.setCtx c x).channels = s.channels := rfl
@[simp] theorem State.setCtx_readLimit (s : State) (c : Nat) (x : Ctx) : (s.setCtx c x).readLimit = s.readLimit := rfl
@[simp] theorem State.retire_level (s : State) : s.retire.level = s.level := rfl
@[simp] theorem State.retire_depth (s : State) : s.retire.depth = s.depth := rfl
@[simp] theorem State.retire_channels (s : State) : s.retire.channels = s.channels := rfl
@[simp] theorem State.retire_readLimit (s : State) : s.retire.readLimit = s.readLimit := rfl
@[simp] theorem State.retire_ctx (s : State) (j : Nat) : s.retire.ctx j = s.ctx j := rfl
@[simp] theorem State.answer_level (s : State) (v : Word) : (s.answer v).level = s.level := rfl
@[simp] theorem State.answer_depth (s : State) (v : Word) : (s.answer v).depth = s.depth := rfl
@[simp] theorem State.answer_channels (s : State) (v : Word) : (s.answer v).channels = s.channels := rfl
@[simp] theorem State.answer_readLimit (s : State) (v : Word) : (s.answer v).readLimit = s.readLimit := rfl
@[simp] theorem State.answer_ctx (s : State) (v : Word) (j : Nat) : (s.answer v).ctx j = s.ctx j := rfl
@[simp] theorem State.overrun_level (s : State) : s.overrun.level = s.level := rfl
@[simp] theorem State.overrun_depth (s : State) : s.overrun.depth = s.depth := rfl
@[simp] theorem State.overrun_channels (s : State) : s.overrun.channels = s.channels := rfl
@[simp] theorem State.overrun_readLimit (s : State) : s.overrun.readLimit = s.readLimit := rfl
@[simp] theorem State.overrun_ctx (s : State) (j : Nat) : s.overrun.ctx j = s.ctx j := rfl
@[simp] theorem State.withCommand_level (s : State) (w : Word) : (s.withCommand w).level = s.level := rfl
@[simp] theorem State.withCommand_depth (s : State) (w : Word) : (s.withCommand w).depth = s.depth := rfl
@[simp] theorem State.withCommand_channels (s : State) (w : Word) : (s.withCommand w).channels = s.channels := rfl
@[simp] theorem State.withCommand_readLimit (s : State) (w : Word) : (s.withCommand w).readLimit = s.readLimit := rfl
@[simp] theorem State.withCommand_ctx (s : State) (w : Word) (j : Nat) : (s.withCommand w).ctx j = s.ctx j := rfl

end Sys2Proof.Machine
end

