-- ==== Sys2Proof/Laws/Step.lean ====
section
/-! SUPPORT. What a step can be: the core's, of a command or of an illegal word, or the host's, by its next
operation. -/

namespace Sys2Proof.Machine

theorem step_core (s : State) (h : s.coreReady = true) : step s = coreTurn s := by simp [step, turn, h]

theorem step_host (s : State) (h : s.coreReady = false) : step s = hostTurn s := by simp [step, turn, h]

/-- The core moves next exactly when a command is in flight, the reset input is released, and the delay has passed
or the host has nothing to do. -/
theorem coreReady_iff (s : State) :
    s.coreReady = true ↔ s.busy = true ∧ s.resetInput = false ∧ (s.delay = 0 ∨ s.host = []) := by
  simp [State.coreReady, and_assoc]

/-- The core's turn on a word that decodes. -/
theorem coreTurn_cmd (s : State) (i : Instr) (h : decode s.cmdl = .cmd i) :
    coreTurn s =
      match exec i s with
      | .next t => .next t.retire
      | .fault r => .fault r
      | .refused r => .refused r := by
  cases he : exec i s <;> simp only [coreTurn, h, he]

/-- The core's turn on an illegal word. -/
theorem coreTurn_illegal (s : State) (why : Illegal) (h : decode s.cmdl = .illegal why) :
    coreTurn s = .next (s.recordError (illegalCause why) s.cmdl).retire := by
  simp [coreTurn, h]

/-- With nothing for either agent to do, nothing happens (spec/60_exceptions.md R305). -/
theorem step_idle (s : State) (hb : s.busy = false) (hh : s.host = []) : step s = .next s := by
  have : s.coreReady = false := by simp [State.coreReady, hb]
  simp [step_host s this, hostTurn, hh]

/-- A run of one step more, when the step answers a next state. -/
theorem run_next (k : Nat) (s t : State) (h : step s = .next t) :
    Host.Core.run Sys2Proof.core (k + 1) s = Host.Core.run Sys2Proof.core k t := by
  have h' : Sys2Proof.core.step s = .next t := h
  simp only [Host.Core.run, h']

/-! The placing of a command. -/

theorem withFetchWord_coreReady (s : State) (nbits w : Nat) : (s.withFetchWord nbits w).coreReady = true := rfl

theorem withFetchWord_cmdl (s : State) (nbits w : Nat) : (s.withFetchWord nbits w).cmdl = tableWord nbits w := rfl

end Sys2Proof.Machine
end

