-- ==== Sys2Proof/Laws/Bus.lean ====
section
/-! SUPPORT. What an access of the window reaches, region by region (spec/20_memory.md R82 to R85, R101), and the
host's step of a read, of a write and of a wait. -/

namespace Sys2Proof.Machine

/-- Each register lies at its offset (spec/10_state.md R35). -/
theorem access_offset (r : Reg) : access .w32 r.offset = .reg r := by cases r <;> decide

theorem regAt_above (o : Nat) (h : 0x048 ≤ o) : regAt o = none := by
  unfold regAt
  split <;> first | rfl | omega

/-- The aligned offsets of the register region up to 0x044 hold registers, one each. -/
theorem access_register (o : Nat) (h : o ≤ 0x044) (h4 : o % 4 = 0) : ∃ r : Reg, r.offset = o := by
  have hm : o ∈ (List.range 18).map (4 * ·) :=
    List.mem_map.2 ⟨o / 4, List.mem_range.2 (by omega), by omega⟩
  have : ∀ o ∈ (List.range 18).map (4 * ·),
      ((regAt o).map Reg.offset) = some o := by decide
  obtain ⟨r, -, hr⟩ := Option.map_eq_some_iff.1 (this o hm)
  exact ⟨r, hr⟩

/-- The other aligned offsets of the register region are unmapped (R84). -/
theorem access_unmapped (o : Nat) (h : 0x048 ≤ o) (h' : o < 0x10000) (h4 : o % 4 = 0) :
    access .w32 o = .unmapped := by
  unfold access
  rw [if_neg (by simp only [Config.windowBytes]; omega), if_pos (show o < Config.bufferBase from h'),
    if_pos ⟨rfl, h4⟩, regAt_above o h]

/-- A register-region access of another width or alignment is a bus error (R83). -/
theorem access_registerBusError (width : Width) (o : Nat) (h : o < 0x10000) (hw : width ≠ .w32 ∨ o % 4 ≠ 0) :
    access width o = .refused .registerBusError := by
  unfold access
  rw [if_neg (by simp only [Config.windowBytes]; omega), if_pos (show o < Config.bufferBase from h),
    if_neg (by rintro ⟨h₁, h₂⟩; rcases hw with hw | hw <;> exact hw (by assumption))]

/-- A naturally aligned access of the buffer region reaches its byte (R85). -/
theorem access_buffer (width : Width) (o : Nat) (h : 0x10000 ≤ o) (h' : o < 0x20000) (ha : o % width.bytes = 0) :
    access width o = .buffer (o - 0x10000) := by
  unfold access
  rw [if_neg (by simp only [Config.windowBytes]; omega), if_neg (by simp only [Config.bufferBase]; omega), if_pos ha]
  rfl

/-- Any other access of the buffer region is a bus error (R85). -/
theorem access_bufferBusError (width : Width) (o : Nat) (h : 0x10000 ≤ o) (h' : o < 0x20000)
    (ha : o % width.bytes ≠ 0) : access width o = .refused .bufferBusError := by
  unfold access
  rw [if_neg (by simp only [Config.windowBytes]; omega), if_neg (by simp only [Config.bufferBase]; omega), if_neg ha]

/-- Beyond the window an access is the platform's (R101). -/
theorem access_outside (width : Width) (o : Nat) (h : 0x20000 ≤ o) : access width o = .refused .outsideWindow := by
  unfold access
  exact if_pos h

/-! The host's steps. -/

theorem step_read (s : State) (width : Width) (offset : Nat) (rest : List HostOp)
    (h : s.host = .read width offset :: rest) (hc : s.coreReady = false) (hr : s.resetInput = false) :
    step s = hostRead width offset { s with host := rest, delay := s.delay - 1 } := by
  rw [step_host s hc]
  simp [hostTurn, h, hr]

theorem step_write (s : State) (width : Width) (offset : Nat) (v : Word) (rest : List HostOp)
    (h : s.host = .write width offset v :: rest) (hc : s.coreReady = false) (hr : s.resetInput = false) :
    step s = hostWrite width offset v { s with host := rest, delay := s.delay - 1 } := by
  rw [step_host s hc]
  simp [hostTurn, h, hr]

theorem step_wait (s : State) (rest : List HostOp) (h : s.host = .wait :: rest) (hc : s.coreReady = false)
    (hr : s.resetInput = false) : step s = hostWait { s with delay := s.delay - 1 } rest := by
  rw [step_host s hc]
  simp [hostTurn, h, hr]

end Sys2Proof.Machine
end

