-- ==== Sys2Proof/Laws/Reads.lean ====
section
/-! SUPPORT. What the reads of bits can do, said once for each (spec/20_memory.md R91, spec/41_bitio.md R157, R159,
spec/42_entropy.md R184): the cases in which each answers, and what it answers. -/

namespace Sys2Proof.Machine

/-- A bit is read exactly below the limit (spec/20_memory.md R91). -/
theorem readBit_eq_some (m : List Host.Cell) (limit p : Nat) (b : Bool) :
    readBit m limit p = some b ↔ p < limit ∧ bitRead m p = b := by
  unfold readBit
  split <;> simp <;> omega

theorem readBit_eq_none (m : List Host.Cell) (limit p : Nat) : readBit m limit p = none ↔ limit ≤ p := by
  unfold readBit
  split <;> simp <;> omega

/-- The value of the `n` bits from p on, most significant first, on top of the value `v` read before. -/
def fieldValue (m : List Host.Cell) : Nat → Nat → Nat → Nat
  | 0, _, v => v
  | n + 1, p, v => fieldValue m n (p + 1) (2 * v + (bitRead m p).toNat)

/-- A field of `n` bits is read exactly when all of them lie below the limit; else it is truncated
(spec/20_memory.md R91). -/
theorem readField_eq (m : List Host.Cell) (limit n p v : Nat) :
    readField m limit n p v =
      if n = 0 ∨ p + n ≤ limit then .got (fieldValue m n p v) (p + n) else .failed .truncated := by
  induction n generalizing p v with
  | zero => simp [readField, fieldValue]
  | succ n ih =>
    rw [readField]
    cases hb : readBit m limit p with
    | none =>
      rw [readBit_eq_none] at hb
      simp [show ¬ p + (n + 1) ≤ limit by omega]
    | some b =>
      obtain ⟨hp, rfl⟩ := (readBit_eq_some _ _ _ _).1 hb
      simp only [ih, fieldValue, show p + 1 + n = p + (n + 1) by omega]
      by_cases h : p + (n + 1) ≤ limit
      · simp [h]
      · simp [h, show n ≠ 0 by omega]

/-- The bits of a field's value: bit `i` below `n` is the bit `n - 1 - i` places after p, the bits above are those
of the value read before. -/
theorem testBit_fieldValue (m : List Host.Cell) (n p v i : Nat) :
    (fieldValue m n p v).testBit i =
      if i < n then bitRead m (p + (n - 1 - i)) else v.testBit (i - n) := by
  induction n generalizing p v with
  | zero => simp [fieldValue]
  | succ n ih =>
    rw [fieldValue, ih]
    by_cases h : i < n
    · rw [if_pos h, if_pos (by omega)]
      congr 1
      omega
    · rw [if_neg h]
      by_cases h' : i = n
      · subst h'
        simp [Nat.testBit_zero]
        cases bitRead m p <;> simp
      · rw [if_neg (by omega), show i - n = (i - (n + 1)) + 1 by omega, Nat.testBit_succ]
        congr 1
        cases bitRead m p <;> simp
        omega

/-- BR_UNARY's loop answers `c + j` when `j` ones and a zero follow, all below the limit and `j` fewer than its
bound (spec/41_bitio.md R157). -/
theorem readUnary_got (m : List Host.Cell) (limit n p c j : Nat) (hj : j < n) (hlim : p + j < limit)
    (hone : ∀ i, i < j → bitRead m (p + i) = true) (hzero : bitRead m (p + j) = false) :
    readUnary m limit n p c = .got (c + j) (p + j + 1) := by
  induction n generalizing p c j with
  | zero => omega
  | succ n ih =>
    cases j with
    | zero =>
      have : readBit m limit p = some false := (readBit_eq_some _ _ _ _).2 ⟨by omega, hzero⟩
      simp [readUnary, this]
    | succ j =>
      have : readBit m limit p = some true :=
        (readBit_eq_some _ _ _ _).2 ⟨by omega, by simpa using hone 0 (by omega)⟩
      simp only [readUnary, this]
      rw [ih (p + 1) (c + 1) j (by omega) (by omega)
        (fun i hi => by rw [show p + 1 + i = p + (i + 1) by omega]; exact hone _ (by omega))
        (by rw [show p + 1 + j = p + (j + 1) by omega]; exact hzero)]
      congr 1 <;> omega

/-- BR_UNARY's loop raises the runaway run when its bound of ones follows, all below the limit. -/
theorem readUnary_runaway (m : List Host.Cell) (limit n p c : Nat) (hlim : p + n ≤ limit)
    (hone : ∀ i, i < n → bitRead m (p + i) = true) : readUnary m limit n p c = .failed .runawayUnary := by
  induction n generalizing p c with
  | zero => rfl
  | succ n ih =>
    have : readBit m limit p = some true :=
      (readBit_eq_some _ _ _ _).2 ⟨by omega, by simpa using hone 0 (by omega)⟩
    simp only [readUnary, this]
    exact ih (p + 1) (c + 1) (by omega)
      fun i hi => by rw [show p + 1 + i = p + (i + 1) by omega]; exact hone _ (by omega)

/-- BR_UNARY's loop is truncated when only ones lie below the limit, fewer than its bound. -/
theorem readUnary_truncated (m : List Host.Cell) (limit n p c j : Nat) (hj : j < n) (hlim : limit ≤ p + j)
    (hone : ∀ i, i < j → bitRead m (p + i) = true) :
    readUnary m limit n p c = .failed .truncated := by
  induction n generalizing p c j with
  | zero => omega
  | succ n ih =>
    cases hb : readBit m limit p with
    | none => simp [readUnary, hb]
    | some b =>
      obtain ⟨hp, rfl⟩ := (readBit_eq_some _ _ _ _).1 hb
      cases j with
      | zero => omega
      | succ j =>
        have h0 : bitRead m p = true := by simpa using hone 0 (by omega)
        simp only [readUnary, hb, h0]
        exact ih (p + 1) (c + 1) j (by omega) (by omega)
          fun i hi => by rw [show p + 1 + i = p + (i + 1) by omega]; exact hone _ (by omega)

/-- The quotient loop answers after `j` ones and a zero below the limit (spec/42_entropy.md R184). -/
theorem readQuotient_got (m : List Host.Cell) (limit n p q j : Nat) (hj : j < n) (hlim : p + j < limit)
    (hone : ∀ i, i < j → bitRead m (p + i) = true) (hzero : bitRead m (p + j) = false) :
    readQuotient m limit n p q = .got (q + j) (p + j + 1) := by
  induction n generalizing p q j with
  | zero => omega
  | succ n ih =>
    cases j with
    | zero =>
      have : readBit m limit p = some false := (readBit_eq_some _ _ _ _).2 ⟨by omega, hzero⟩
      simp [readQuotient, this]
    | succ j =>
      have : readBit m limit p = some true :=
        (readBit_eq_some _ _ _ _).2 ⟨by omega, by simpa using hone 0 (by omega)⟩
      simp only [readQuotient, this]
      rw [ih (p + 1) (q + 1) j (by omega) (by omega)
        (fun i hi => by rw [show p + 1 + i = p + (i + 1) by omega]; exact hone _ (by omega))
        (by rw [show p + 1 + j = p + (j + 1) by omega]; exact hzero)]
      congr 1 <;> omega

/-- The quotient loop ends without a zero after its bound of ones (the escape, R184). -/
theorem readQuotient_full (m : List Host.Cell) (limit n p q : Nat) (hlim : p + n ≤ limit)
    (hone : ∀ i, i < n → bitRead m (p + i) = true) : readQuotient m limit n p q = .got (q + n) (p + n) := by
  induction n generalizing p q with
  | zero => rfl
  | succ n ih =>
    have : readBit m limit p = some true :=
      (readBit_eq_some _ _ _ _).2 ⟨by omega, by simpa using hone 0 (by omega)⟩
    simp only [readQuotient, this]
    rw [ih (p + 1) (q + 1) (by omega)
      fun i hi => by rw [show p + 1 + i = p + (i + 1) by omega]; exact hone _ (by omega)]
    congr 1 <;> omega

/-- The quotient loop is truncated when only ones lie below the limit, fewer than its bound. -/
theorem readQuotient_truncated (m : List Host.Cell) (limit n p q j : Nat) (hj : j < n) (hlim : limit ≤ p + j)
    (hone : ∀ i, i < j → p + i < limit → bitRead m (p + i) = true) :
    readQuotient m limit n p q = .failed .truncated := by
  induction n generalizing p q j with
  | zero => omega
  | succ n ih =>
    cases hb : readBit m limit p with
    | none => simp [readQuotient, hb]
    | some b =>
      obtain ⟨hp, rfl⟩ := (readBit_eq_some _ _ _ _).1 hb
      cases j with
      | zero => omega
      | succ j =>
        have h0 : bitRead m p = true := by simpa using hone 0 (by omega) (by omega)
        simp only [readQuotient, hb, h0]
        exact ih (p + 1) (q + 1) j (by omega) (by omega) fun i hi hl => by
          rw [show p + 1 + i = p + (i + 1) by omega]; exact hone _ (by omega) (by omega)

/-- The quotient loop never answers more than its bound, and never moves past the limit unless it read nothing. -/
theorem readQuotient_bound (m : List Host.Cell) (limit n p q q' p' : Nat)
    (h : readQuotient m limit n p q = .got q' p') : q ≤ q' ∧ q' ≤ q + n ∧ p ≤ p' ∧ (p' = p ∨ p' ≤ limit) := by
  induction n generalizing p q with
  | zero =>
    simp only [readQuotient, Taken.got.injEq] at h
    omega
  | succ n ih =>
    cases hb : readBit m limit p with
    | none => simp [readQuotient, hb] at h
    | some b =>
      obtain ⟨hp, -⟩ := (readBit_eq_some _ _ _ _).1 hb
      cases b
      · simp only [readQuotient, hb, Taken.got.injEq] at h
        omega
      · simp only [readQuotient, hb] at h
        have := ih _ _ h
        omega

/-- BR_UNARY's loop never moves past the limit, and moves forward. -/
theorem readUnary_bound (m : List Host.Cell) (limit n p c c' p' : Nat)
    (h : readUnary m limit n p c = .got c' p') : p ≤ p' ∧ (p' = p ∨ p' ≤ limit) := by
  induction n generalizing p c with
  | zero => simp [readUnary] at h
  | succ n ih =>
    cases hb : readBit m limit p with
    | none => simp [readUnary, hb] at h
    | some b =>
      obtain ⟨hp, -⟩ := (readBit_eq_some _ _ _ _).1 hb
      cases b
      · simp only [readUnary, hb, Taken.got.injEq] at h
        omega
      · simp only [readUnary, hb] at h
        have := ih _ _ h
        omega

/-- BR_ALIGN's loop never moves past the limit unless it read nothing, and moves forward. -/
theorem readPad_bound (m : List Host.Cell) (limit n p v p' : Nat)
    (h : readPad m limit n p = .got v p') : p ≤ p' ∧ (p' = p ∨ p' ≤ limit) := by
  induction n generalizing p with
  | zero =>
    simp only [readPad, Taken.got.injEq] at h
    omega
  | succ n ih =>
    cases hb : readBit m limit p with
    | none => simp [readPad, hb] at h
    | some b =>
      obtain ⟨hp, -⟩ := (readBit_eq_some _ _ _ _).1 hb
      cases b
      · simp only [readPad, hb] at h
        have := ih _ h
        omega
      · simp [readPad, hb] at h

/-- A field's read never moves past the limit unless it read nothing, and moves forward. -/
theorem readField_bound (m : List Host.Cell) (limit n p v v' p' : Nat)
    (h : readField m limit n p v = .got v' p') : p ≤ p' ∧ (p' = p ∨ p' ≤ limit) := by
  rw [readField_eq] at h
  split at h
  · simp only [Taken.got.injEq] at h
    omega
  · cases h

/-- The read of a code never moves past the limit unless it read nothing, and moves forward. -/
theorem readCode_bound (m : List Host.Cell) (limit k p u p' : Nat) (h : readCode m limit k p = .got u p') :
    p ≤ p' ∧ (p' = p ∨ p' ≤ limit) := by
  unfold readCode at h
  split at h
  · cases h
  · next q p₁ hq =>
    have h₁ := readQuotient_bound _ _ _ _ _ _ _ hq
    split at h
    · split at h
      · cases h
      · next u' p₂ hu =>
        have h₂ := readField_bound _ _ _ _ _ _ _ hu
        split at h
        · cases h
        · simp only [Taken.got.injEq] at h
          omega
    · split at h
      · cases h
      · next r p₂ hr =>
        have h₂ := readField_bound _ _ _ _ _ _ _ hr
        simp only [Taken.got.injEq] at h
        omega

/-- BR_ALIGN's loop answers exactly when every pad bit lies below the limit and is 0 (spec/41_bitio.md R159). -/
theorem readPad_got (m : List Host.Cell) (limit n p : Nat)
    (h : ∀ i, i < n → p + i < limit ∧ bitRead m (p + i) = false) :
    readPad m limit n p = .got 0 (p + n) := by
  induction n generalizing p with
  | zero => rfl
  | succ n ih =>
    have : readBit m limit p = some false := (readBit_eq_some _ _ _ _).2 (by simpa using h 0 (by omega))
    simp only [readPad, this]
    rw [ih (p + 1) fun i hi => by rw [show p + 1 + i = p + (i + 1) by omega]; exact h _ (by omega)]
    congr 1
    omega

/-- BR_ALIGN's loop raises at its first pad bit that is at the limit or is 1. -/
theorem readPad_failed (m : List Host.Cell) (limit n p j : Nat) (hj : j < n)
    (h : ∀ i, i < j → p + i < limit ∧ bitRead m (p + i) = false) :
    (limit ≤ p + j → readPad m limit n p = .failed .truncated) ∧
      (p + j < limit → bitRead m (p + j) = true → readPad m limit n p = .failed .badPadding) := by
  induction n generalizing p j with
  | zero => omega
  | succ n ih =>
    cases j with
    | zero =>
      refine ⟨fun hl => ?_, fun hl hb => ?_⟩
      · have : readBit m limit p = none := (readBit_eq_none _ _ _).2 (by omega)
        simp [readPad, this]
      · have : readBit m limit p = some true := (readBit_eq_some _ _ _ _).2 ⟨by omega, hb⟩
        simp [readPad, this]
    | succ j =>
      have : readBit m limit p = some false := (readBit_eq_some _ _ _ _).2 (by simpa using h 0 (by omega))
      simp only [readPad, this]
      have := ih (p + 1) j (by omega)
        fun i hi => by rw [show p + 1 + i = p + (i + 1) by omega]; exact h _ (by omega)
      rwa [show p + 1 + j = p + (j + 1) by omega] at this

end Sys2Proof.Machine
end

