-- ==== Sys2Proof/Laws/Ops.lean ====
section
/-! SUPPORT. One lemma per shared operation that says everything it can do: the end of a command, the shared
checks, a store, a read at RPOS, the contexts, an issue. -/

namespace Sys2Proof.Machine

/-! The end of a command (spec/00_scope.md R13). -/

@[simp] theorem finish_done (i : Instr) (s t : State) : finish i s (.done t) = .next t.count := rfl

@[simp] theorem finish_raised (i : Instr) (s : State) (k : Cause) :
    finish i s (.raised k) = .next (s.recordError k (encode i)) := rfl

/-- A command always ends in a next state: its working copy counted, or the error recorded. -/
theorem finish_cases (i : Instr) (s : State) (e : Effect) :
    (∃ t, e = .done t ∧ finish i s e = .next t.count) ∨
      (∃ k, e = .raised k ∧ finish i s e = .next (s.recordError k (encode i))) := by
  cases e with
  | done t => exact .inl ⟨t, rfl, rfl⟩
  | raised k => exact .inr ⟨k, rfl, rfl⟩

/-! The shared checks (spec/60_exceptions.md R282 steps 3 to 5). -/

theorem onContext_unconfigured (s : State) (ch : BitVec 4) (body : Ctx → Effect) (h : s.cfgValid = false) :
    onContext s ch body = .raised .notConfigured := by simp [onContext, h]

theorem onContext_badChannel (s : State) (ch : BitVec 4) (body : Ctx → Effect) (h : s.cfgValid = true)
    (hc : s.channels ≤ ch.toNat) : onContext s ch body = .raised .badChannel := by simp [onContext, h, hc]

theorem onContext_opens (s : State) (ch : BitVec 4) (body : Ctx → Effect) (h : s.cfgValid = true)
    (hc : ch.toNat < s.channels) : onContext s ch body = body (s.ctx ch.toNat) := by
  simp [onContext, h, Nat.not_le.2 hc]

/-- The shared checks of shape C come to NOCFG, SHAPE, or the command's own pseudocode on the context. -/
theorem onContext_cases (s : State) (ch : BitVec 4) (body : Ctx → Effect) :
    (s.cfgValid = false ∧ onContext s ch body = .raised .notConfigured) ∨
      (s.cfgValid = true ∧ s.channels ≤ ch.toNat ∧ onContext s ch body = .raised .badChannel) ∨
        (s.cfgValid = true ∧ ch.toNat < s.channels ∧ onContext s ch body = body (s.ctx ch.toNat)) := by
  cases h : s.cfgValid with
  | false => exact .inl ⟨rfl, onContext_unconfigured s ch body h⟩
  | true =>
    rcases Nat.lt_or_ge ch.toNat s.channels with hc | hc
    · exact .inr (.inr ⟨rfl, hc, onContext_opens s ch body h hc⟩)
    · exact .inr (.inl ⟨rfl, hc, onContext_badChannel s ch body h hc⟩)

theorem onWidth_legal (n : BitVec 6) (body : Nat → Effect) (h : n.toNat ≤ 32) :
    onWidth n body = body n.toNat := by simp [onWidth, Nat.not_lt.2 h]

theorem onWidth_illegal (n : BitVec 6) (body : Nat → Effect) (h : 32 < n.toNat) :
    onWidth n body = .raised .illegalOperand := by simp [onWidth, h]

/-! A store at WPOS (spec/41_bitio.md R151). -/

theorem store_noRoom (s : State) (bits : List Bool) (h : Config.capBits < s.wpos.toNat + bits.length) :
    s.store bits = .raised .noRoom := by simp [State.store, h]

theorem store_fits (s : State) (bits : List Bool) (h : s.wpos.toNat + bits.length ≤ Config.capBits) :
    s.store bits = .done { s with
      buf := writeBits s.buf s.wpos.toNat bits
      wpos := BitVec.ofNat 20 (s.wpos.toNat + bits.length) } := by
  simp [State.store, Nat.not_lt.2 h]

/-- A store raises RESOURCE or puts the bits at WPOS, moves WPOS past them, and changes nothing else. -/
theorem store_cases (s : State) (bits : List Bool) :
    (Config.capBits < s.wpos.toNat + bits.length ∧ s.store bits = .raised .noRoom) ∨
      (s.wpos.toNat + bits.length ≤ Config.capBits ∧
        s.store bits = .done { s with
          buf := writeBits s.buf s.wpos.toNat bits
          wpos := BitVec.ofNat 20 (s.wpos.toNat + bits.length) }) := by
  rcases Nat.lt_or_ge Config.capBits (s.wpos.toNat + bits.length) with h | h
  · exact .inl ⟨h, store_noRoom s bits h⟩
  · exact .inr ⟨h, store_fits s bits h⟩

@[simp] theorem fieldBits_length (n v : Nat) : (fieldBits n v).length = n := by
  induction n with
  | zero => rfl
  | succ n ih => simp [fieldBits, ih]

@[simp] theorem unaryBits_length (q : Nat) : (unaryBits q).length = q + 1 := by simp [unaryBits]

/-- Bit `i` of a field in stream order is bit `n - 1 - i` of its value (spec/20_memory.md R91). -/
theorem fieldBits_getElem (n v i : Nat) (h : i < n) : (fieldBits n v)[i]? = some (v.testBit (n - 1 - i)) := by
  induction n generalizing i with
  | zero => omega
  | succ n ih =>
    cases i with
    | zero => simp [fieldBits]
    | succ i =>
      rw [fieldBits, List.getElem?_cons_succ, ih i (by omega)]
      congr 2
      omega

/-- The length of a code: `q + 1 + K` in the unary form, `QESC + ESC_BITS` for the escape
(spec/42_entropy.md R183, R190). -/
theorem codeBits_length (k u : Nat) :
    (codeBits k u).length =
      if u >>> k < Config.qEsc then u >>> k + 1 + k else Config.qEsc + Config.escBits := by
  unfold codeBits
  split
  · simp
    omega
  · simp

/-! A read at RPOS (spec/41_bitio.md R150, R152). -/

@[simp] theorem take_got (s : State) (v p : Nat) (body : State → Nat → Effect) :
    s.take (.got v p) body = body { s with rpos := BitVec.ofNat 20 p } v := rfl

@[simp] theorem take_failed (s : State) (k : Cause) (body : State → Nat → Effect) :
    s.take (.failed k) body = .raised k := rfl

/-! The contexts (spec/10_state.md R60). -/

/-- A context reads back as written, every other context as before. -/
theorem ctx_setCtx (s : State) (c j : Nat) (x : Ctx) :
    (s.setCtx c x).ctx j = if j = c ∧ c < 8 then x else s.ctx j := by
  unfold State.ctx State.setCtx
  simp only [Vector.getElem?_setIfInBounds]
  by_cases h : c = j
  · subst h
    by_cases hc : c < 8
    · simp [hc]
    · simp [hc]
  · simp [h, Ne.symm h]

/-- Two states with the same contexts show the same context. -/
theorem ctx_congr (s t : State) (h : t.ctxs = s.ctxs) (c : Nat) : t.ctx c = s.ctx c := by
  simp only [State.ctx, h]

/-- In a state whose contexts are those of `s` with one replaced, that one is the replacement. -/
theorem ctx_of_setCtx (s t : State) (c : Nat) (x : Ctx) (h : t.ctxs = (s.setCtx c x).ctxs) (j : Nat) :
    t.ctx j = if j = c ∧ c < 8 then x else s.ctx j := by
  rw [ctx_congr _ _ h, ctx_setCtx]

theorem ctx_setCtx_self (s : State) (c : Nat) (x : Ctx) (h : c < 8) : (s.setCtx c x).ctx c = x := by
  simp [ctx_setCtx, h]

theorem ctx_setCtx_ne (s : State) (c j : Nat) (x : Ctx) (h : j ≠ c) : (s.setCtx c x).ctx j = s.ctx j := by
  simp [ctx_setCtx, h]

/-- There is no context at or above `CTX_COUNT` to read. -/
theorem ctx_outside (s : State) (c : Nat) (h : 8 ≤ c) : s.ctx c = Ctx.blank := by
  simp [State.ctx, h]

/-! The error record (spec/60_exceptions.md R283). -/

theorem recordError_err_ne_zero (s : State) (k : Cause) (w : Word) : (s.recordError k w).err ≠ 0#9 := by
  intro h
  have : k.errMask ≠ 0#9 := by cases k <;> decide
  apply this
  have h' : s.err ||| k.errMask = 0#9 := h
  exact (BitVec.or_eq_zero_iff.1 h').2

theorem causeWord_code (k : Cause) (w : Word) : (causeWord k w).toNat % 256 = k.code.toNat := by
  have h : (chField w ++ opField w ++ k.code).toNat % 2 ^ 8 = k.code.toNat := by
    rw [BitVec.toNat_append, Nat.or_mod_two_pow, Nat.shiftLeft_eq, Nat.mul_mod_left, Nat.zero_or,
      Nat.mod_eq_of_lt k.code.isLt]
  exact h

theorem Cause.code_range (k : Cause) : 1 ≤ k.code.toNat ∧ k.code.toNat ≤ 14 := by cases k <;> decide

/-! The issue of a command (spec/60_exceptions.md R282, R285). -/

theorem issue_skips (s : State) (w : Word) (h : s.err ≠ 0#9) (hw : runsWhilePending w = false) :
    s.issue w = { s with err := s.err ||| skippedMask } := by
  simp [State.issue, h, hw]

theorem issue_latches (s : State) (w : Word) (h : s.err = 0#9 ∨ runsWhilePending w = true) :
    s.issue w = { s with
      cmdl := w
      argl := s.arg0
      busy := true
      delay := Config.commandDelay s.draws
      draws := s.draws + 1 } := by
  rcases h with h | h <;> simp [State.issue, h]

end Sys2Proof.Machine
end

