-- ==== Sys2Proof/Laws/Codes.lean ====
section
/-! SUPPORT. The reading of a code (spec/42_entropy.md R184, R185), said once: what it answers after a quotient and
after an escape, and what the bits of a field are worth. -/

namespace Sys2Proof.Machine

/-- The unary form of a code (R183). -/
theorem codeBits_unary (k u : Nat) (h : u >>> k < 16) :
    codeBits k u = List.replicate (u >>> k) true ++ false :: fieldBits k u := by
  unfold codeBits
  exact if_pos h

/-- The escape form of a code (R183). -/
theorem codeBits_escape (k u : Nat) (h : 16 ≤ u >>> k) :
    codeBits k u = List.replicate 16 true ++ fieldBits 32 u := by
  unfold codeBits
  exact if_neg (Nat.not_lt.2 h)

/-- A field that holds the bits of a value is worth the value modulo its width (spec/20_memory.md R91). -/
theorem fieldValue_eq (m : List Host.Cell) (n p u : Nat)
    (h : ∀ i, i < n → bitRead m (p + i) = u.testBit (n - 1 - i)) : fieldValue m n p 0 = u % 2 ^ n := by
  apply Nat.eq_of_testBit_eq
  intro i
  rw [testBit_fieldValue, Nat.testBit_mod_two_pow]
  by_cases hi : i < n
  · rw [if_pos hi, h _ (by omega), show n - 1 - (n - 1 - i) = i by omega]
    simp [hi]
  · simp [hi]

/-- After sixteen ones a code is an escape: 32 bits follow, and their value must need it. -/
theorem readCode_escape (m : List Host.Cell) (limit k p p' : Nat)
    (h : readQuotient m limit Config.qEsc p 0 = .got 16 p') :
    readCode m limit k p =
      match readField m limit 32 p' 0 with
      | .failed c => .failed c
      | .got u p'' => if u >>> k < 16 then .failed .badEscape else .got u p'' := by
  unfold readCode
  rw [h]
  rfl

/-- After a shorter quotient the low bits of the value follow. -/
theorem readCode_quotient (m : List Host.Cell) (limit k p q p' : Nat)
    (h : readQuotient m limit Config.qEsc p 0 = .got q p') (hq : q ≠ 16) :
    readCode m limit k p =
      match readField m limit k p' 0 with
      | .failed c => .failed c
      | .got r p'' => .got (q * 2 ^ k + r) p'' := by
  unfold readCode
  rw [h]
  exact if_neg hq

/-- A quotient that cannot be read is what the code raises. -/
theorem readCode_failed (m : List Host.Cell) (limit k p : Nat) (c : Cause)
    (h : readQuotient m limit Config.qEsc p 0 = .failed c) : readCode m limit k p = .failed c := by
  unfold readCode
  rw [h]

end Sys2Proof.Machine
end

