-- ==== Sys2Proof/Laws/Encoding.lean ====
section
/-! SUPPORT. The fields of a command word as numbers, the fields of a packed word, and the rows of the opcode map
(spec/30_encoding.md R120, R124). -/

namespace Sys2Proof

theorem opField_toNat (w : Word) : (opField w).toNat = w.toNat / 2 ^ 24 % 2 ^ 8 := by
  simp [opField, BitVec.extractLsb'_toNat, Nat.shiftRight_eq_div_pow]

theorem chField_toNat (w : Word) : (chField w).toNat = w.toNat / 2 ^ 20 % 2 ^ 4 := by
  simp [chField, BitVec.extractLsb'_toNat, Nat.shiftRight_eq_div_pow]

theorem rsvField_toNat (w : Word) : (rsvField w).toNat = w.toNat / 2 ^ 6 % 2 ^ 14 := by
  simp [rsvField, BitVec.extractLsb'_toNat, Nat.shiftRight_eq_div_pow]

theorem nField_toNat (w : Word) : (nField w).toNat = w.toNat % 2 ^ 6 := by
  simp [nField, BitVec.extractLsb'_toNat]

/-- A word is the sum of its fields in their places (R120). -/
theorem word_toNat_fields (w : Word) :
    w.toNat = (opField w).toNat * 2 ^ 24 + (chField w).toNat * 2 ^ 20 + (rsvField w).toNat * 2 ^ 6 +
      (nField w).toNat := by
  rw [opField_toNat, chField_toNat, rsvField_toNat, nField_toNat]
  have := w.isLt
  omega

/-- A packed word as a number: its fields in their places, RSV 0. -/
theorem packWord_toNat (op : BitVec 8) (ch : BitVec 4) (n : BitVec 6) :
    (packWord op ch n).toNat = op.toNat * 2 ^ 24 + ch.toNat * 2 ^ 20 + n.toNat := by
  have hc := ch.isLt
  have hn := n.isLt
  change (op ++ ch ++ 0#14 ++ n).toNat = _
  rw [BitVec.toNat_append, BitVec.toNat_append, BitVec.toNat_append,
    ← Nat.shiftLeft_add_eq_or_of_lt hn, ← Nat.shiftLeft_add_eq_or_of_lt (by simp),
    ← Nat.shiftLeft_add_eq_or_of_lt hc]
  simp only [Nat.shiftLeft_eq, BitVec.toNat_ofNat, Nat.zero_mod]
  omega

@[simp] theorem opField_packWord (op : BitVec 8) (ch : BitVec 4) (n : BitVec 6) :
    opField (packWord op ch n) = op := by
  apply BitVec.eq_of_toNat_eq
  rw [opField_toNat, packWord_toNat]
  have := op.isLt
  have := ch.isLt
  have := n.isLt
  omega

@[simp] theorem chField_packWord (op : BitVec 8) (ch : BitVec 4) (n : BitVec 6) :
    chField (packWord op ch n) = ch := by
  apply BitVec.eq_of_toNat_eq
  rw [chField_toNat, packWord_toNat]
  have := ch.isLt
  have := n.isLt
  omega

@[simp] theorem rsvField_packWord (op : BitVec 8) (ch : BitVec 4) (n : BitVec 6) :
    rsvField (packWord op ch n) = 0#14 := by
  apply BitVec.eq_of_toNat_eq
  rw [rsvField_toNat, packWord_toNat, BitVec.toNat_ofNat]
  have := n.isLt
  omega

@[simp] theorem nField_packWord (op : BitVec 8) (ch : BitVec 4) (n : BitVec 6) :
    nField (packWord op ch n) = n := by
  apply BitVec.eq_of_toNat_eq
  rw [nField_toNat, packWord_toNat]
  have := n.isLt
  omega

/-- A word with RSV 0 is packed from its fields. -/
theorem packWord_fields (w : Word) (h : rsvField w = 0#14) :
    packWord (opField w) (chField w) (nField w) = w := by
  apply BitVec.eq_of_toNat_eq
  rw [packWord_toNat]
  have hw := word_toNat_fields w
  rw [h, BitVec.toNat_ofNat] at hw
  omega

end Sys2Proof
end

