-- ==== Sys2Proof/Laws/Values.lean ====
section
/-! SUPPORT. The small lemmas of the values: the primitives of spec/00_scope.md R11, the coder's k and sum
(spec/42_entropy.md R186, R187), the lengths the filter keeps (spec/43_filter.md R217, R218). -/

namespace Sys2Proof.Machine

/-- `bitlen(v)` is the least n with `v < 2^n` (R11). -/
theorem bitlen_le_iff (v n : Nat) : bitlen v ≤ n ↔ v < 2 ^ n := by
  unfold bitlen
  split
  · next h => subst h; simp
  · next h =>
    rw [Nat.succ_le_iff, Nat.log2_lt h]

theorem clamp_le (lo hi v : Int) (h : lo ≤ hi) : lo ≤ clamp lo hi v ∧ clamp lo hi v ≤ hi := by
  unfold clamp
  split <;> [skip; split] <;> omega

/-- The clamp changes nothing within its bounds. -/
theorem clamp_eq_self (lo hi v : Int) (h₁ : lo ≤ v) (h₂ : v ≤ hi) : clamp lo hi v = v := by
  unfold clamp
  rw [if_neg (by omega), if_neg (by omega)]

theorem sgn_cases (v : Int) : (0 < v ∧ sgn v = 1) ∨ (v = 0 ∧ sgn v = 0) ∨ (v < 0 ∧ sgn v = -1) := by
  unfold sgn
  rcases Int.lt_trichotomy v 0 with h | h | h
  · exact .inr (.inr ⟨h, by rw [if_neg (by omega), if_pos h]⟩)
  · exact .inr (.inl ⟨h, by subst h; rfl⟩)
  · exact .inl ⟨h, by rw [if_pos h]⟩

/-- The residual mod 2^32 and back: decoding a stage adds the prediction that encoding subtracted
(spec/43_filter.md R216). -/
theorem wrap32_sub_add (x : Word) (p : Int) : wrap32 ((wrap32 (x.toInt - p)).toInt + p) = x := by
  unfold wrap32
  rw [BitVec.ofInt_add, BitVec.ofInt_toInt, ← BitVec.ofInt_add, Int.sub_add_cancel, BitVec.ofInt_toInt]

/-- What a legal CONFIG is (spec/44_frame_pipeline.md R240). -/
theorem cfgLegal_iff (c : Word) :
    cfgLegal c = true ↔
      cfgReservedZero c = true ∧ cfgLevel c ≤ 3 ∧ 8 ≤ cfgDepth c ∧ cfgDepth c ≤ 24 ∧ cfgChannels c ≤ 8 := by
  unfold cfgLegal
  simp only [Bool.and_eq_true, and_assoc]
  exact ⟨fun ⟨h, a, b, c, d⟩ =>
      ⟨h, of_decide_eq_true a, of_decide_eq_true b, of_decide_eq_true c, of_decide_eq_true d⟩,
    fun ⟨h, a, b, c, d⟩ =>
      ⟨h, decide_eq_true a, decide_eq_true b, decide_eq_true c, decide_eq_true d⟩⟩

/-- `KOf(S)` is at most B (R187). -/
theorem kOf_le (b S : Nat) : kOf b S ≤ b := Nat.min_le_left _ _

/-- `KOf` of a 30-bit sum fits the 5-bit field of K. -/
theorem kOf_lt (b S : Nat) (h : S < 2 ^ 30) : kOf b S < 2 ^ 5 := by
  have h' : S >>> (Config.adaptShift + 1) < 2 ^ 25 := by
    rw [Nat.shiftRight_eq_div_pow]
    simp only [Config.adaptShift]
    omega
  have : bitlen (S >>> (Config.adaptShift + 1)) ≤ 25 := (bitlen_le_iff _ _).2 h'
  exact Nat.lt_of_le_of_lt (Nat.min_le_right _ _) (by omega)

@[simp] theorem coderUpdate_stages (b u : Nat) (c : Ctx) : (coderUpdate b u c).stages = c.stages := rfl
@[simp] theorem coderReset_stages (b : Nat) (c : Ctx) : (coderReset b c).stages = c.stages := rfl
@[simp] theorem filterReset_S (l : Nat) (c : Ctx) : (filterReset l c).S = c.S := rfl
@[simp] theorem filterReset_K (l : Nat) (c : Ctx) : (filterReset l c).K = c.K := rfl
@[simp] theorem filterReset_stages (l : Nat) (c : Ctx) : (filterReset l c).stages = initialStages l := rfl

/-! Lengths the filter keeps. -/

@[simp] theorem adapt_h (q : StageParam) (st : Stage) (r : Word) : (adapt q st r).h = st.h := rfl
@[simp] theorem shiftIn_w (st : Stage) (x : Word) : (shiftIn st x).w = st.w := rfl

@[simp] theorem shiftIn_h_length (st : Stage) (x : Word) : (shiftIn st x).h.length = st.h.length := by
  simp [shiftIn]

theorem adapt_w_length (q : StageParam) (st : Stage) (r : Word) (h : st.w.length = st.h.length) :
    (adapt q st r).w.length = st.w.length := by
  simp [adapt, h]

/-- One stage's encoding keeps both lengths. -/
theorem stageEnc_lengths (q : StageParam) (st : Stage) (x : Word) (h : st.w.length = st.h.length) :
    (stageEnc q st x).1.h.length = st.h.length ∧ (stageEnc q st x).1.w.length = st.w.length := by
  simp [stageEnc, adapt_w_length _ _ _ h]

/-- One stage's decoding keeps both lengths. -/
theorem stageDec_lengths (q : StageParam) (st : Stage) (r : Word) (h : st.w.length = st.h.length) :
    (stageDec q st r).1.h.length = st.h.length ∧ (stageDec q st r).1.w.length = st.w.length := by
  simp [stageDec, adapt_w_length _ _ _ h]

/-- What a level's reset stages are (spec/43_filter.md R212). -/
theorem initialStages_zero : initialStages 0 = [] := rfl

end Sys2Proof.Machine
end

