-- ==== Sys2Proof/Laws/Exec.lean ====
section
/-! SUPPORT. What a command can do, said once: it raises one error, or it completes in one of the ways `Completes`
lists, one constructor per command. -/

namespace Sys2Proof.Machine

/-- The state after bits are stored at WPOS (spec/20_memory.md R91). -/
def stored (s : State) (bits : List Bool) : State :=
  { s with
    buf := writeBits s.buf s.wpos.toNat bits
    wpos := BitVec.ofNat 20 (s.wpos.toNat + bits.length) }

/-- The state after bits are taken up to `p` (spec/41_bitio.md R150). -/
def takenTo (s : State) (p : Nat) : State := { s with rpos := BitVec.ofNat 20 p }

/-- The bits fit (spec/41_bitio.md R151). -/
def hasRoom (s : State) (bits : List Bool) : Prop := s.wpos.toNat + bits.length ≤ Config.capBits

/-- `p` is a place that a read from RPOS can end at (spec/41_bitio.md R160). -/
def reaches (s : State) (p : Nat) : Prop := s.rpos.toNat ≤ p ∧ (p = s.rpos.toNat ∨ p ≤ s.readLimit)

/-- The shared checks of shape C pass (spec/60_exceptions.md R282). -/
def passes (s : State) (ch : BitVec 4) : Prop := s.cfgValid = true ∧ ch.toNat < s.channels

/-- How each command completes, from a state to the state it leaves. -/
inductive Completes (s : State) : Instr → State → Prop where
  | nop : Completes s .nop s.count
  | softReset : Completes s .softReset s.softReset
  | clrErr : Completes s .clrErr s.clearError.count
  | bwBits (n : BitVec 6) (bits : List Bool) (h : hasRoom s bits) :
      Completes s (.bwBits n) (stored s bits).count
  | brBits (n : BitVec 6) (p : Nat) (v : Word) (h : reaches s p) :
      Completes s (.brBits n) { takenTo s p with result := v }.count
  | brSbits (n : BitVec 6) (p : Nat) (v : Word) (h : reaches s p) :
      Completes s (.brSbits n) { takenTo s p with result := v }.count
  | bwUnary (bits : List Bool) (h : hasRoom s bits) : Completes s .bwUnary (stored s bits).count
  | brUnary (p : Nat) (v : Word) (h : reaches s p) :
      Completes s .brUnary { takenTo s p with result := v }.count
  | bwFlush (bits : List Bool) (h : hasRoom s bits) : Completes s .bwFlush (stored s bits).count
  | brAlign (p : Nat) (h : reaches s p) : Completes s .brAlign (takenTo s p).count
  | ecEnc (ch : BitVec 4) (u : Nat) (bits : List Bool) (hc : passes s ch) (h : hasRoom s bits) :
      Completes s (.ecEnc ch) (stored (s.setCtx ch.toNat (coderUpdate s.depth u (s.ctx ch.toNat))) bits).count
  | ecDec (ch : BitVec 4) (u p : Nat) (v : Word) (hc : passes s ch) (h : reaches s p) :
      Completes s (.ecDec ch)
        { (takenTo s p).setCtx ch.toNat (coderUpdate s.depth u (s.ctx ch.toNat)) with result := v }.count
  | ecReset (ch : BitVec 4) (hc : passes s ch) :
      Completes s (.ecReset ch) (s.setCtx ch.toNat (coderReset s.depth (s.ctx ch.toNat))).count
  | fcEnc (ch : BitVec 4) (hc : passes s ch) :
      Completes s (.fcEnc ch)
        { s.setCtx ch.toNat { s.ctx ch.toNat with
            stages := (filterEnc (stagesOf s.level) (s.ctx ch.toNat).stages s.argl).1 } with
          result := (filterEnc (stagesOf s.level) (s.ctx ch.toNat).stages s.argl).2 }.count
  | fcDec (ch : BitVec 4) (hc : passes s ch) :
      Completes s (.fcDec ch)
        { s.setCtx ch.toNat { s.ctx ch.toNat with
            stages := (filterDec (stagesOf s.level) (s.ctx ch.toNat).stages s.argl).1 } with
          result := (filterDec (stagesOf s.level) (s.ctx ch.toNat).stages s.argl).2 }.count
  | fcReset (ch : BitVec 4) (hc : passes s ch) :
      Completes s (.fcReset ch) (s.setCtx ch.toNat (filterReset s.level (s.ctx ch.toNat))).count
  | frameStart (h : cfgLegal s.config = true) :
      Completes s .frameStart { s with
        active := s.config
        cfgValid := true
        ctxs := Vector.replicate 8 (freshContext s.config)
        frameWpos := s.wpos
        frameRpos := s.rpos }.count
  | smpEnc (ch : BitVec 4) (x v : Word) (u : Nat) (bits : List Bool) (hc : passes s ch) (h : hasRoom s bits) :
      Completes s (.smpEnc ch)
        (stored { s.setCtx ch.toNat (coderUpdate s.depth u { s.ctx ch.toNat with
            stages := (filterEnc (stagesOf s.level) (s.ctx ch.toNat).stages x).1 }) with result := v } bits).count
  | smpDec (ch : BitVec 4) (x v : Word) (u p : Nat) (hc : passes s ch) (h : reaches s p) :
      Completes s (.smpDec ch)
        { (takenTo s p).setCtx ch.toNat (coderUpdate s.depth u { s.ctx ch.toNat with
            stages := (filterDec (stagesOf s.level) (s.ctx ch.toNat).stages x).1 }) with result := v }.count

/-- A store's ways to end, in the words of `stored` and `hasRoom`. -/
theorem store_raises_or_stores (s : State) (bits : List Bool) :
    s.store bits = .raised .noRoom ∨ (hasRoom s bits ∧ s.store bits = .done (stored s bits)) := by
  rcases store_cases s bits with ⟨-, h⟩ | ⟨h, h'⟩
  · exact .inl h
  · exact .inr ⟨h, h'⟩

/-- A command whose pseudocode is one store raises RESOURCE or completes with the bits stored. -/
theorem finish_store (i : Instr) (s u : State) (bits : List Bool) :
    (∃ k, finish i s (u.store bits) = .next (s.recordError k (encode i))) ∨
      (hasRoom u bits ∧ finish i s (u.store bits) = .next (stored u bits).count) := by
  rcases store_raises_or_stores u bits with h | ⟨hr, h⟩
  · exact .inl ⟨.noRoom, by rw [h]; rfl⟩
  · exact .inr ⟨hr, by rw [h]; rfl⟩

/-- Every command raises one error, with the state it found otherwise kept, or completes. -/
theorem exec_cases (i : Instr) (s : State) :
    (∃ k, exec i s = .next (s.recordError k (encode i))) ∨ ∃ t, exec i s = .next t ∧ Completes s i t := by
  cases i with
  | nop => exact .inr ⟨_, rfl, .nop⟩
  | softReset => exact .inr ⟨_, rfl, .softReset⟩
  | clrErr => exact .inr ⟨_, rfl, .clrErr⟩
  | bwBits n =>
    simp only [exec, execBwBits]
    rcases Nat.lt_or_ge 32 n.toNat with h | h
    · exact .inl ⟨_, by rw [onWidth_illegal _ _ h]; rfl⟩
    · rw [onWidth_legal _ _ h]
      rcases finish_store (.bwBits n) s s (fieldBits n.toNat s.argl.toNat) with h' | ⟨hr, h'⟩
      · exact .inl h'
      · exact .inr ⟨_, h', .bwBits n _ hr⟩
  | brBits n =>
    simp only [exec, execBrBits]
    rcases Nat.lt_or_ge 32 n.toNat with h | h
    · exact .inl ⟨_, by rw [onWidth_illegal _ _ h]; rfl⟩
    · rw [onWidth_legal _ _ h]
      cases ht : readField s.buf s.readLimit n.toNat s.rpos.toNat 0 with
      | failed k => exact .inl ⟨k, rfl⟩
      | got v p => exact .inr ⟨_, rfl, .brBits n p _ (readField_bound _ _ _ _ _ _ _ ht)⟩
  | brSbits n =>
    simp only [exec, execBrSbits]
    rcases Nat.lt_or_ge 32 n.toNat with h | h
    · exact .inl ⟨_, by rw [onWidth_illegal _ _ h]; rfl⟩
    · rw [onWidth_legal _ _ h]
      cases ht : readField s.buf s.readLimit n.toNat s.rpos.toNat 0 with
      | failed k => exact .inl ⟨k, rfl⟩
      | got v p => exact .inr ⟨_, rfl, .brSbits n p _ (readField_bound _ _ _ _ _ _ _ ht)⟩
  | bwUnary =>
    simp only [exec, execBwUnary]
    split
    · exact .inl ⟨_, rfl⟩
    · rcases finish_store .bwUnary s s (unaryBits s.argl.toNat) with h' | ⟨hr, h'⟩
      · exact .inl h'
      · exact .inr ⟨_, h', .bwUnary _ hr⟩
  | brUnary =>
    simp only [exec, execBrUnary]
    cases ht : readUnary s.buf s.readLimit (Config.unaryMax + 1) s.rpos.toNat 0 with
    | failed k => exact .inl ⟨k, rfl⟩
    | got v p => exact .inr ⟨_, rfl, .brUnary p _ (readUnary_bound _ _ _ _ _ _ _ ht)⟩
  | bwFlush =>
    simp only [exec, execBwFlush]
    rcases finish_store .bwFlush s s (fieldBits (padLength s.wpos.toNat) 0) with h' | ⟨hr, h'⟩
    · exact .inl h'
    · exact .inr ⟨_, h', .bwFlush _ hr⟩
  | brAlign =>
    simp only [exec, execBrAlign]
    cases ht : readPad s.buf s.readLimit (padLength s.rpos.toNat) s.rpos.toNat with
    | failed k => exact .inl ⟨k, rfl⟩
    | got v p => exact .inr ⟨_, rfl, .brAlign p (readPad_bound _ _ _ _ _ _ ht)⟩
  | ecEnc ch =>
    simp only [exec, execEcEnc]
    rcases onContext_cases s ch fun c =>
      (s.setCtx ch.toNat (coderUpdate s.depth (zigzag s.argl).toNat c)).store
        (codeBits c.K.toNat (zigzag s.argl).toNat) with ⟨-, h⟩ | ⟨-, -, h⟩ | ⟨hv, hc, h⟩
    · exact .inl ⟨_, by rw [h]; rfl⟩
    · exact .inl ⟨_, by rw [h]; rfl⟩
    · rw [h]
      rcases finish_store (.ecEnc ch) s
        (s.setCtx ch.toNat (coderUpdate s.depth (zigzag s.argl).toNat (s.ctx ch.toNat)))
        (codeBits (s.ctx ch.toNat).K.toNat (zigzag s.argl).toNat) with h' | ⟨hr, h'⟩
      · exact .inl h'
      · exact .inr ⟨_, h', .ecEnc ch _ _ ⟨hv, hc⟩ hr⟩
  | ecDec ch =>
    simp only [exec, execEcDec]
    rcases onContext_cases s ch fun c =>
      s.take (readCode s.buf s.readLimit c.K.toNat s.rpos.toNat) fun t u =>
        .done { t.setCtx ch.toNat (coderUpdate s.depth u c) with
          result := unzigzag (BitVec.ofNat 32 u) } with ⟨-, h⟩ | ⟨-, -, h⟩ | ⟨hv, hc, h⟩
    · exact .inl ⟨_, by rw [h]; rfl⟩
    · exact .inl ⟨_, by rw [h]; rfl⟩
    · rw [h]
      cases ht : readCode s.buf s.readLimit (s.ctx ch.toNat).K.toNat s.rpos.toNat with
      | failed k => exact .inl ⟨k, rfl⟩
      | got u p => exact .inr ⟨_, rfl, .ecDec ch u p _ ⟨hv, hc⟩ (readCode_bound _ _ _ _ _ _ ht)⟩
  | ecReset ch =>
    simp only [exec, execEcReset]
    rcases onContext_cases s ch fun c => .done (s.setCtx ch.toNat (coderReset s.depth c)) with
      ⟨-, h⟩ | ⟨-, -, h⟩ | ⟨hv, hc, h⟩
    · exact .inl ⟨_, by rw [h]; rfl⟩
    · exact .inl ⟨_, by rw [h]; rfl⟩
    · exact .inr ⟨_, by rw [h]; rfl, .ecReset ch ⟨hv, hc⟩⟩
  | fcEnc ch =>
    simp only [exec, execFcEnc]
    rcases onContext_cases s ch fun c =>
      if inSampleRange s.depth s.argl.toInt then
        .done { s.setCtx ch.toNat { c with stages := (filterEnc (stagesOf s.level) c.stages s.argl).1 } with
          result := (filterEnc (stagesOf s.level) c.stages s.argl).2 }
      else .raised .sampleRange with ⟨-, h⟩ | ⟨-, -, h⟩ | ⟨hv, hc, h⟩
    · exact .inl ⟨_, by rw [h]; rfl⟩
    · exact .inl ⟨_, by rw [h]; rfl⟩
    · rw [h]
      split
      · exact .inr ⟨_, rfl, .fcEnc ch ⟨hv, hc⟩⟩
      · exact .inl ⟨_, rfl⟩
  | fcDec ch =>
    simp only [exec, execFcDec]
    rcases onContext_cases s ch fun c =>
      if inSampleRange s.depth (filterDec (stagesOf s.level) c.stages s.argl).2.toInt then
        .done { s.setCtx ch.toNat { c with stages := (filterDec (stagesOf s.level) c.stages s.argl).1 } with
          result := (filterDec (stagesOf s.level) c.stages s.argl).2 }
      else .raised .sampleOutOfRange with ⟨-, h⟩ | ⟨-, -, h⟩ | ⟨hv, hc, h⟩
    · exact .inl ⟨_, by rw [h]; rfl⟩
    · exact .inl ⟨_, by rw [h]; rfl⟩
    · rw [h]
      split
      · exact .inr ⟨_, rfl, .fcDec ch ⟨hv, hc⟩⟩
      · exact .inl ⟨_, rfl⟩
  | fcReset ch =>
    simp only [exec, execFcReset]
    rcases onContext_cases s ch fun c => .done (s.setCtx ch.toNat (filterReset s.level c)) with
      ⟨-, h⟩ | ⟨-, -, h⟩ | ⟨hv, hc, h⟩
    · exact .inl ⟨_, by rw [h]; rfl⟩
    · exact .inl ⟨_, by rw [h]; rfl⟩
    · exact .inr ⟨_, by rw [h]; rfl, .fcReset ch ⟨hv, hc⟩⟩
  | frameStart =>
    simp only [exec, execFrameStart]
    split
    · next h => exact .inr ⟨_, rfl, .frameStart h⟩
    · exact .inl ⟨_, rfl⟩
  | smpEnc ch =>
    simp only [exec, execSmpEnc, onContext]
    split
    · exact .inl ⟨_, rfl⟩
    · next hv =>
      split
      · exact .inl ⟨_, rfl⟩
      · next hc =>
        have hp : passes s ch := ⟨by simpa using hv, Nat.not_le.1 hc⟩
        split
        · rcases finish_store (.smpEnc ch) s _ _ with h' | ⟨hr, h'⟩
          · exact .inl h'
          · exact .inr ⟨_, h', .smpEnc ch _ _ _ _ hp hr⟩
        · exact .inl ⟨_, rfl⟩
  | smpDec ch =>
    simp only [exec, execSmpDec, onContext]
    split
    · exact .inl ⟨_, rfl⟩
    · next hv =>
      split
      · exact .inl ⟨_, rfl⟩
      · next hc =>
        have hp : passes s ch := ⟨by simpa using hv, Nat.not_le.1 hc⟩
        cases ht : readCode s.buf s.readLimit (s.ctx ch.toNat).K.toNat s.rpos.toNat with
        | failed k => exact .inl ⟨k, rfl⟩
        | got u p =>
          simp only [take_got]
          split
          · exact .inr ⟨_, rfl, .smpDec ch _ _ u p hp (readCode_bound _ _ _ _ _ _ ht)⟩
          · exact .inl ⟨_, rfl⟩

/-- The inversion of a command's next state. -/
theorem exec_next (i : Instr) (s t : State) (h : exec i s = .next t) :
    (∃ k, t = s.recordError k (encode i)) ∨ Completes s i t := by
  rcases exec_cases i s with ⟨k, hk⟩ | ⟨u, hu, hc⟩
  · rw [hk] at h
    cases h
    exact .inl ⟨k, rfl⟩
  · rw [hu] at h
    cases h
    exact .inr hc

/-- A command never ends in a fault or a refusal. -/
theorem exec_is_next (i : Instr) (s : State) : ∃ t, exec i s = .next t := by
  rcases exec_cases i s with ⟨k, hk⟩ | ⟨t, ht, -⟩
  · exact ⟨_, hk⟩
  · exact ⟨t, ht⟩

end Sys2Proof.Machine
end

