-- ==== Sys2Proof/Laws/PerInstr.lean ====
section
/-! SUPPORT. Families of statements about every instruction as syntax, one lemma per constructor. -/

namespace Sys2Proof.Laws

/-- The opcode-table row of a command: mask and match (spec/30_encoding.md R124). -/
def row : Instr → Word × Word
  | .nop => (0xFFFFFFFF#32, 0x00000000#32)
  | .softReset => (0xFFFFFFFF#32, 0x01000000#32)
  | .clrErr => (0xFFFFFFFF#32, 0x02000000#32)
  | .bwBits _ => (0xFFFFFFC0#32, 0x10000000#32)
  | .brBits _ => (0xFFFFFFC0#32, 0x11000000#32)
  | .brSbits _ => (0xFFFFFFC0#32, 0x12000000#32)
  | .bwUnary => (0xFFFFFFFF#32, 0x13000000#32)
  | .brUnary => (0xFFFFFFFF#32, 0x14000000#32)
  | .bwFlush => (0xFFFFFFFF#32, 0x15000000#32)
  | .brAlign => (0xFFFFFFFF#32, 0x16000000#32)
  | .ecEnc _ => (0xFF0FFFFF#32, 0x20000000#32)
  | .ecDec _ => (0xFF0FFFFF#32, 0x21000000#32)
  | .ecReset _ => (0xFF0FFFFF#32, 0x22000000#32)
  | .fcEnc _ => (0xFF0FFFFF#32, 0x30000000#32)
  | .fcDec _ => (0xFF0FFFFF#32, 0x31000000#32)
  | .fcReset _ => (0xFF0FFFFF#32, 0x32000000#32)
  | .frameStart => (0xFFFFFFFF#32, 0x40000000#32)
  | .smpEnc _ => (0xFF0FFFFF#32, 0x41000000#32)
  | .smpDec _ => (0xFF0FFFFF#32, 0x42000000#32)

/-- The command's word matches its row: `(word and mask) = match` (spec/30_encoding.md R124). -/
def MatchesRow.Statement (i : Instr) : Prop := encode i &&& (row i).1 = (row i).2

theorem MatchesRow.nop : MatchesRow.Statement .nop := by unfold MatchesRow.Statement; decide
theorem MatchesRow.softReset : MatchesRow.Statement .softReset := by unfold MatchesRow.Statement; decide
theorem MatchesRow.clrErr : MatchesRow.Statement .clrErr := by unfold MatchesRow.Statement; decide
theorem MatchesRow.bwUnary : MatchesRow.Statement .bwUnary := by unfold MatchesRow.Statement; decide
theorem MatchesRow.brUnary : MatchesRow.Statement .brUnary := by unfold MatchesRow.Statement; decide
theorem MatchesRow.bwFlush : MatchesRow.Statement .bwFlush := by unfold MatchesRow.Statement; decide
theorem MatchesRow.brAlign : MatchesRow.Statement .brAlign := by unfold MatchesRow.Statement; decide
theorem MatchesRow.frameStart : MatchesRow.Statement .frameStart := by unfold MatchesRow.Statement; decide

theorem MatchesRow.bwBits (n : BitVec 6) : MatchesRow.Statement (.bwBits n) := by
  unfold MatchesRow.Statement; revert n; decide
theorem MatchesRow.brBits (n : BitVec 6) : MatchesRow.Statement (.brBits n) := by
  unfold MatchesRow.Statement; revert n; decide
theorem MatchesRow.brSbits (n : BitVec 6) : MatchesRow.Statement (.brSbits n) := by
  unfold MatchesRow.Statement; revert n; decide

theorem MatchesRow.ecEnc (ch : BitVec 4) : MatchesRow.Statement (.ecEnc ch) := by
  unfold MatchesRow.Statement; revert ch; decide
theorem MatchesRow.ecDec (ch : BitVec 4) : MatchesRow.Statement (.ecDec ch) := by
  unfold MatchesRow.Statement; revert ch; decide
theorem MatchesRow.ecReset (ch : BitVec 4) : MatchesRow.Statement (.ecReset ch) := by
  unfold MatchesRow.Statement; revert ch; decide
theorem MatchesRow.fcEnc (ch : BitVec 4) : MatchesRow.Statement (.fcEnc ch) := by
  unfold MatchesRow.Statement; revert ch; decide
theorem MatchesRow.fcDec (ch : BitVec 4) : MatchesRow.Statement (.fcDec ch) := by
  unfold MatchesRow.Statement; revert ch; decide
theorem MatchesRow.fcReset (ch : BitVec 4) : MatchesRow.Statement (.fcReset ch) := by
  unfold MatchesRow.Statement; revert ch; decide
theorem MatchesRow.smpEnc (ch : BitVec 4) : MatchesRow.Statement (.smpEnc ch) := by
  unfold MatchesRow.Statement; revert ch; decide
theorem MatchesRow.smpDec (ch : BitVec 4) : MatchesRow.Statement (.smpDec ch) := by
  unfold MatchesRow.Statement; revert ch; decide

end Sys2Proof.Laws
end

