-- ==== Sys2Proof/Tests/Slice0.lean ====
section
/-! SUPPORT. The model's own tests: the smoke test of WellFormed, a word of each command written out from
spec/30_encoding.md R120 and R124, one or two single steps per command with the values of
spec/95_test_vectors.md, and a witness for every obligation that has hypotheses. -/

namespace Sys2Proof.Tests

open Sys2Proof Sys2Proof.Machine

/-! Helpers. -/

/-- A field of the next state. -/
def after {α : Type} (f : State → α) : Host.Outcome State Fault Refusal → Option α
  | .next t => some (f t)
  | .fault _ => none
  | .refused _ => none

/-- The refusal of a step. -/
def refusal : Host.Outcome State Fault Refusal → Option Refusal
  | .next _ => none
  | .fault _ => none
  | .refused r => some r

/-- ERR and CAUSE. -/
def errCause (s : State) : Nat × Nat := (s.err.toNat, s.cause.toNat)

/-- S and K of a context. -/
def coderOf (s : State) (c : Nat) : Nat × Nat := ((s.ctx c).S.toNat, (s.ctx c).K.toNat)

/-- A state right after FRAME_START under a configuration (R240), the whole buffer readable. -/
def started (cfg : Word) : State :=
  { State.reset with
    config := cfg
    active := cfg
    cfgValid := true
    ctxs := Vector.replicate 8 (freshContext cfg)
    rlimit := 524288#20 }

/-- Level 0, B = 16, two channels. -/
def plain : State := started 0x00011000#32

/-- Level 1, B = 16, one channel: the configuration of spec/95_test_vectors.md 1.4. -/
def filtered : State := started 0x00001001#32

/-- A state with the operand A latched. -/
def withOperand (s : State) (v : Word) : State := { s with argl := v }

/-- A state with bytes in the buffer. -/
def withBytes (s : State) (m : List Host.Cell) : State := { s with buf := m }

/-- A state with cursors. -/
def withCursors (s : State) (w r l : Cursor) : State := { s with wpos := w, rpos := r, rlimit := l }

/-- A state whose host has these operations to do. -/
def withHost (s : State) (ops : List HostOp) : State := { s with host := ops }

/-- A state with an illegal opcode recorded. -/
def pending : State := State.reset.recordError .illegalOpcode 0x05000000#32

/-- A state with a NOP in flight and one host operation to come before the core's step of it. -/
def inFlight : State := { State.reset with busy := true, delay := 1 }

/-- A command, and a second one in the state the first left with its RESULT latched as the operand: the RESULT and the
CMD_COUNT the first left, and the CMD_COUNT the second left. -/
def afterTwo (first second : State → Host.Outcome State Fault Refusal) (s : State) : Option (Word × Word × Word) :=
  match first s with
  | .next t => after (fun u => (t.result, t.cmdCount, u.cmdCount)) (second (withOperand t t.result))
  | .fault _ => none
  | .refused _ => none

/-! The hypotheses of the statements that `decide` does not unfold. -/

theorem plain_opens (ch : BitVec 4) (h : ch.toNat < 2) : plain.opens ch := ⟨rfl, h⟩
theorem filtered_opens : filtered.opens 0#4 := ⟨rfl, by decide⟩

/-- A bit string is held where each of its bits is. -/
theorem holdsBits_of_all (m : List Host.Cell) (p : Nat) (bits : List Bool)
    (h : ∀ i : Fin bits.length, bitRead m (p + i.val) = bits[i]) : holdsBits m p bits := by
  intro i b hb
  obtain ⟨hi, rfl⟩ := List.getElem?_eq_some_iff.1 hb
  exact h ⟨i, hi⟩

/-- A bit string that is held is held as far as it lies below any limit. -/
theorem holdsBitsBelow_of_holdsBits (m : List Host.Cell) (limit p : Nat) (bits : List Bool) (h : holdsBits m p bits) :
    holdsBitsBelow m limit p bits := fun i b hb _ => h i b hb

/-! WellFormed refuses an N above 32 (R127). -/

theorem test_bwBits_33_is_ill_formed : (Instr.bwBits 33#6).wellFormed = false := by decide
theorem test_brBits_33_is_ill_formed : (Instr.brBits 33#6).wellFormed = false := by decide
theorem test_brSbits_63_is_ill_formed : (Instr.brSbits 63#6).wellFormed = false := by decide
theorem test_n_32_is_well_formed :
    (Instr.bwBits 32#6).wellFormed ∧ (Instr.brBits 32#6).wellFormed ∧ (Instr.brSbits 32#6).wellFormed := by decide

/-! A word of every command: OP in [31:24], CH in [23:20], RSV in [19:6], N in [5:0] (R120, R124). -/

theorem test_decode_nop : decode 0b00000000000000000000000000000000#32 = .cmd .nop := by decide
theorem test_decode_softReset : decode 0b00000001000000000000000000000000#32 = .cmd .softReset := by decide
theorem test_decode_clrErr : decode 0b00000010000000000000000000000000#32 = .cmd .clrErr := by decide
theorem test_decode_bwBits : decode 0b00010000000000000000000000010101#32 = .cmd (.bwBits 21#6) := by decide
theorem test_decode_brBits : decode 0b00010001000000000000000000100000#32 = .cmd (.brBits 32#6) := by decide
theorem test_decode_brSbits : decode 0b00010010000000000000000000000011#32 = .cmd (.brSbits 3#6) := by decide
theorem test_decode_bwUnary : decode 0b00010011000000000000000000000000#32 = .cmd .bwUnary := by decide
theorem test_decode_brUnary : decode 0b00010100000000000000000000000000#32 = .cmd .brUnary := by decide
theorem test_decode_bwFlush : decode 0b00010101000000000000000000000000#32 = .cmd .bwFlush := by decide
theorem test_decode_brAlign : decode 0b00010110000000000000000000000000#32 = .cmd .brAlign := by decide
theorem test_decode_ecEnc : decode 0b00100000100000000000000000000000#32 = .cmd (.ecEnc 8#4) := by decide
theorem test_decode_ecDec : decode 0b00100001000100000000000000000000#32 = .cmd (.ecDec 1#4) := by decide
theorem test_decode_ecReset : decode 0b00100010001100000000000000000000#32 = .cmd (.ecReset 3#4) := by decide
theorem test_decode_fcEnc : decode 0b00110000010100000000000000000000#32 = .cmd (.fcEnc 5#4) := by decide
theorem test_decode_fcDec : decode 0b00110001011100000000000000000000#32 = .cmd (.fcDec 7#4) := by decide
theorem test_decode_fcReset : decode 0b00110010001000000000000000000000#32 = .cmd (.fcReset 2#4) := by decide
theorem test_decode_frameStart : decode 0b01000000000000000000000000000000#32 = .cmd .frameStart := by decide
theorem test_decode_smpEnc : decode 0b01000001010000000000000000000000#32 = .cmd (.smpEnc 4#4) := by decide
theorem test_decode_smpDec : decode 0b01000010111100000000000000000000#32 = .cmd (.smpDec 15#4) := by decide

/-- Each check of R128, and the order in which they are made. -/
theorem test_decode_illegal :
    decode 0xFF00000C#32 = .illegal .opcode ∧ decode 0x43FFFFFF#32 = .illegal .opcode ∧
      decode 0x10000040#32 = .illegal .reservedField ∧ decode 0x10100021#32 = .illegal .reservedField ∧
      decode 0x00000001#32 = .illegal .reservedField ∧ decode 0x20000001#32 = .illegal .reservedField ∧
      decode 0x12000021#32 = .illegal .operand := by decide

theorem test_encode_fields :
    encode (.bwBits 12#6) = 0x1000000C#32 ∧ encode (.smpDec 7#4) = 0x42700000#32 := by decide

/-- A table row's bits, and the placing of its word as the command the next step runs. -/
theorem test_decodeTableWord : decodeTableWord 32 0x41100000 = some (.smpEnc 1#4) := by decide
theorem test_withFetchWord_runs :
    after (fun t => (t.cmdCount, t.busy)) (step (State.reset.withFetchWord 32 0)) = some (1#32, false) := by decide

/-! Control (spec/95_test_vectors.md 2.5). -/

theorem test_nop_counts : after State.cmdCount (exec .nop { pending with cmdCount := 0xFFFFFFFF#32 }) = some 0#32 := by
  decide
theorem test_softReset_config :
    after (fun t => (t.config, t.cfgValid, t.cmdCount)) (exec .softReset plain) =
      some (0x00001000#32, false, 0#32) := by decide
theorem test_clrErr_clears : after errCause (exec .clrErr pending) = some (0, 0) := by decide

/-! Bit I/O (B1, B4, B6, B9, B10, B11 to B15, B18 to B20). -/

theorem test_bwBits_stores :
    after (fun t => (t.buf, t.wpos)) (exec (.bwBits 12#6) (withOperand State.reset 0xABC#32)) =
      some ([(0, 0xAB#8), (1, 0xC0#8)], 12#20) := by decide
theorem test_bwBits_no_room :
    after errCause (exec (.bwBits 9#6) (withCursors State.reset 524280#20 0#20 0#20)) = some (0x40, 0x0000100D) := by
  decide
theorem test_brBits_reads :
    after (fun t => (t.result, t.rpos))
      (exec (.brBits 32#6) (withCursors (withBytes State.reset
        [(0, 0xFD#8), (1, 0xEA#8), (2, 0xDB#8), (3, 0xEE#8), (4, 0xF1#8)]) 41#20 4#20 41#20)) =
      some (0xDEADBEEF#32, 36#20) := by decide
theorem test_brBits_truncated :
    after errCause (exec (.brBits 11#6) (withCursors State.reset 0#20 0#20 10#20)) = some (0x10, 0x00001108) := by
  decide
theorem test_brSbits_extends :
    after (fun t => (t.result, t.rpos))
      (exec (.brSbits 1#6) (withCursors (withBytes State.reset [(0, 0xFD#8)]) 0#20 0#20 41#20)) =
      some (0xFFFFFFFF#32, 1#20) := by decide
theorem test_brSbits_zero_bits :
    after (fun t => (t.result, t.rpos))
      (exec (.brSbits 0#6) { withCursors State.reset 0#20 7#20 0#20 with result := 5#32 }) =
      some (0#32, 7#20) := by decide
theorem test_bwUnary_stores :
    after (fun t => (t.buf, t.wpos)) (exec .bwUnary (withOperand (withCursors State.reset 1#20 0#20 0#20) 3#32)) =
      some ([(0, 0x70#8)], 5#20) := by decide
theorem test_bwUnary_33 : after errCause (exec .bwUnary (withOperand State.reset 33#32)) = some (1, 0x00001303) := by
  decide
theorem test_brUnary_counts :
    after (fun t => (t.result, t.rpos))
      (exec .brUnary (withCursors (withBytes State.reset [(0, 0xF8#8)]) 0#20 0#20 6#20)) =
      some (5#32, 6#20) := by decide
theorem test_brUnary_runaway :
    after errCause (exec .brUnary (withCursors (withBytes State.reset
      [(0, 0xFF#8), (1, 0xFF#8), (2, 0xFF#8), (3, 0xFF#8), (4, 0x80#8)]) 34#20 0#20 34#20)) =
      some (0x20, 0x00001409) := by decide
theorem test_bwFlush_pads :
    after (fun t => (t.buf, t.wpos))
      (exec .bwFlush (withCursors (withBytes State.reset [(0, 0xAB#8), (1, 0xCF#8)]) 12#20 0#20 0#20)) =
      some ([(0, 0xAB#8), (1, 0xC0#8)], 16#20) := by decide
theorem test_bwFlush_no_room :
    after errCause (exec .bwFlush (withCursors State.reset 0x80001#20 0#20 0#20)) = some (0x40, 0x0000150D) := by decide
theorem test_brAlign_skips :
    after State.rpos (exec .brAlign (withCursors (withBytes State.reset [(0, 0xAB#8), (1, 0xC0#8)])
      0#20 12#20 16#20)) = some 16#20 := by decide
theorem test_brAlign_padding :
    after errCause (exec .brAlign (withCursors (withBytes State.reset [(0, 0xAB#8), (1, 0xC4#8)])
      0#20 12#20 16#20)) = some (0x20, 0x0000160C) := by decide

/-! Entropy coder (1.4, 2.2). -/

theorem test_zigzag_corners :
    zigzag 0x7FFFFFFF#32 = 0xFFFFFFFE#32 ∧ zigzag 0x80000000#32 = 0xFFFFFFFF#32 ∧
      unzigzag 0xFFFFFFFF#32 = 0x80000000#32 ∧ zigzag (-50#32) = 99#32 := by decide
theorem test_ecEnc_codes :
    after (fun t => (t.buf, t.wpos, coderOf t 0, coderOf t 1)) (exec (.ecEnc 0#4) (withOperand plain 100#32)) =
      some ([(0, 0x64#8)], 9#20, (4040, 7), (4096, 8)) := by decide
theorem test_ecEnc_bad_channel :
    after errCause (exec (.ecEnc 2#4) plain) = some (0x08, 0x00022006) := by decide
theorem test_ecDec_decodes :
    after (fun t => (t.result, t.rpos, coderOf t 1)) (exec (.ecDec 1#4) (withBytes plain [(0, 0x64#8)])) =
      some (100#32, 9#20, (4040, 7)) := by decide
theorem test_ecDec_bad_escape :
    after errCause (exec (.ecDec 0#4) (withBytes plain [(0, 0xFF#8), (1, 0xFF#8), (5, 1#8)])) =
      some (0x20, 0x0000210A) := by decide
theorem test_ecReset_restores :
    after (fun t => coderOf t 0) (exec (.ecReset 0#4) (plain.setCtx 0 Ctx.blank)) = some (4096, 8) := by decide
theorem test_ecReset_unconfigured :
    after errCause (exec (.ecReset 3#4) State.reset) = some (0x02, 0x00032204) := by decide

/-! Filter chain: the third step of 1.2. -/

/-- The context of 1.2 after its steps 0 and 1. -/
def twoStepsIn : Ctx :=
  { S := 4096#30
    K := 8#5
    stages := [⟨50#32 :: (-50#32) :: List.replicate 14 0#32, 4080#16 :: List.replicate 15 0#16⟩] }

theorem test_fcEnc_third_step :
    after (fun t => (t.result, t.ctx 0)) (exec (.fcEnc 0#4) (withOperand (filtered.setCtx 0 twoStepsIn) (-50#32))) =
      some (-100#32, { twoStepsIn with
        stages := [⟨(-50#32) :: 50#32 :: (-50#32) :: List.replicate 13 0#32,
          4064#16 :: 16#16 :: List.replicate 14 0#16⟩] }) := by decide
theorem test_fcEnc_sample_range :
    after errCause (exec (.fcEnc 0#4) (withOperand filtered 32768#32)) = some (0x08, 0x00003007) := by decide
theorem test_fcDec_third_step :
    after (fun t => (t.result, t.ctx 0)) (exec (.fcDec 0#4) (withOperand (filtered.setCtx 0 twoStepsIn) (-100#32))) =
      some (-50#32, { twoStepsIn with
        stages := [⟨(-50#32) :: 50#32 :: (-50#32) :: List.replicate 13 0#32,
          4064#16 :: 16#16 :: List.replicate 14 0#16⟩] }) := by decide
theorem test_fcDec_sample_out_of_range :
    after errCause (exec (.fcDec 0#4) (withOperand filtered (-32769#32))) = some (0x20, 0x0000310B) := by decide
theorem test_fcReset_primes :
    after (fun t => (t.ctx 0).stages) (exec (.fcReset 0#4) (filtered.setCtx 0 twoStepsIn)) =
      some [⟨List.replicate 16 0#32, 4096#16 :: List.replicate 15 0#16⟩] := by decide

/-! Frame and pipeline (1.4). -/

theorem test_frameStart_latches :
    after (fun t => (t.active, t.frameWpos, t.frameRpos, coderOf t 7))
      (exec .frameStart { withCursors State.reset 40#20 80#20 0#20 with config := 0x00070801#32 }) =
      some (0x00070801#32, 40#20, 80#20, (256, 4)) := by decide
theorem test_frameStart_depth_25 :
    after errCause (exec .frameStart { State.reset with config := 0x00001900#32 }) = some (0x04, 0x00004005) := by decide
theorem test_smpEnc_codes :
    after (fun t => (t.result, t.buf, t.wpos, coderOf t 0)) (exec (.smpEnc 0#4) (withOperand filtered 32767#32)) =
      some (32767#32, [(0, 0xFF#8), (1, 0xFF#8), (4, 0xFF#8), (5, 0xFE#8)], 48#20, (69374, 12)) := by decide +kernel
theorem test_smpDec_decodes :
    after (fun t => (t.result, t.rpos, coderOf t 0)) (exec (.smpDec 0#4)
      (withBytes filtered [(0, 0x31#8), (1, 0x80#8)])) = some (-50#32, 9#20, (3939, 7)) := by decide

/-! The host's side (R83, R84, R99, R285). -/

theorem test_skipped :
    after (fun t => (errCause t, t.busy)) (step (withHost pending [writeRegOp .cmd 0x40000000#32])) =
      some ((0x101, 0x00000501), false) := by decide
theorem test_overrun :
    after errCause (step (withHost inFlight [writeRegOp .wpos 5#32])) = some (0x80, 0x0000000E) := by decide
theorem test_little_endian :
    after State.buf (step (withHost State.reset [writeBufOp .w16 2 0x1234#32])) =
      some [(2, 0x34#8), (3, 0x12#8)] := by decide
theorem test_refused :
    refusal (step (withHost State.reset [.read .w16 0x004])) = some .registerBusError := by decide

/-! Witnesses: concrete states and operands that meet an obligation's hypotheses, at the boundaries of its clauses. -/

/-- A word in flight with the core's step next. -/
def flying (w : Word) : State := State.reset.withCommand w

theorem witness_DecodeAndEncodeAgree :
    (Instr.brBits 32#6).wellFormed = true ∧ decode 0x42F00000#32 = .cmd (.smpDec 15#4) := by decide

/-- A reserved opcode below, between and above the assigned ones; a field that its shape leaves unused; N = 33; and the
legal words beside them. -/
theorem witness_IllegalWordsRaiseAndDoNothingElse :
    (∀ op ∈ [0x03, 0x17, 0x43, 0xFF], op ∉ shapeZOps ∧ op ∉ shapeWOps ∧ op ∉ shapeCOps) ∧
    ((flying 0x03000000#32).coreReady = true ∧ (opField (flying 0x03000000#32).cmdl).toNat = 0x03) ∧
    ((flying 0x00000001#32).coreReady = true ∧ 0x00 ∈ shapeZOps ∧ nField 0x00000001#32 ≠ 0#6) ∧
    ((flying 0x10100021#32).coreReady = true ∧ 0x10 ∈ shapeWOps ∧ chField 0x10100021#32 ≠ 0#4) ∧
    ((flying 0x42080000#32).coreReady = true ∧ 0x42 ∈ shapeCOps ∧ rsvField 0x42080000#32 ≠ 0#14) ∧
    ((flying 0x12000021#32).coreReady = true ∧ 0x12 ∈ shapeWOps ∧ rsvField 0x12000021#32 = 0#14 ∧
      chField 0x12000021#32 = 0#4 ∧ 32 < (nField 0x12000021#32).toNat) ∧
    ((flying 0x12000020#32).coreReady = true ∧ rsvField 0x12000020#32 = 0#14 ∧ chField 0x12000020#32 = 0#4 ∧
      (nField 0x12000020#32).toNat ≤ 32) := by decide

theorem witness_StepRunsTheDecodedCommand :
    (flying 0x1000000C#32).coreReady = true ∧ decode (flying 0x1000000C#32).cmdl = .cmd (.bwBits 12#6) ∧
      after State.wpos (exec (.bwBits 12#6) (flying 0x1000000C#32)) = some 12#20 := by decide

theorem witness_RecordErrorKeepsTheFirstCause : State.reset.err = 0#9 ∧ pending.err ≠ 0#9 := by decide

theorem witness_CommandsLeaveHostStateAlone :
    exec .nop plain = .next { plain with cmdCount := 1#32 } ∧ Instr.nop ≠ .softReset ∧ Instr.nop ≠ .frameStart :=
  ⟨rfl, by decide, by decide⟩

/-- A write command that moves WPOS to the end of the buffer, and a read command that moves RPOS to the limit. -/
theorem witness_CursorsMoveOnTheirOwnSide :
    after State.wpos (exec (.bwBits 8#6) (withCursors State.reset 524280#20 0#20 0#20)) = some 524288#20 ∧
      after State.rpos (exec (.brBits 8#6) (withCursors State.reset 0#20 0#20 8#20)) = some 8#20 ∧
      after State.wpos (exec (.brBits 8#6) (withCursors State.reset 0#20 0#20 8#20)) = some 0#20 := by decide

/-- A coder command, a filter command and a command of no channel that complete. -/
theorem witness_CommandsWriteOnlyTheirContext :
    channelOf (.ecReset 7#4) = some 7#4 ∧ channelOf (.fcReset 0#4) = some 0#4 ∧ channelOf .nop = none ∧
      after State.cmdCount (exec (.ecReset 7#4) (started 0x00071000#32)) = some 1#32 ∧
      after State.cmdCount (exec (.fcReset 0#4) filtered) = some 1#32 ∧
      after State.cmdCount (exec .nop filtered) = some 1#32 := by decide

theorem witness_OtherChannelsAreNotRead :
    channelOf (.ecReset 1#4) = some 1#4 ∧
      ({ plain with ctxs := plain.ctxs.set 0 Ctx.blank } : State).ctx 1 = plain.ctx 1 ∧
      ({ plain with ctxs := plain.ctxs.set 0 Ctx.blank } : State).ctxs ≠ plain.ctxs ∧
      after State.cmdCount (exec (.ecReset 1#4) plain) = some 1#32 := by decide

theorem witness_ConfigIsReadOnlyByFrameStart :
    Instr.nop ≠ .frameStart ∧ exec .nop plain = .next { plain with cmdCount := 1#32 } ∧
      after State.config (exec .softReset plain) = some 0x00001000#32 := ⟨by decide, rfl, by decide⟩

theorem witness_FrameStateDependsOnConfigAlone :
    State.reset.config = (started 0x00001000#32).config ∧ cfgLegal State.reset.config = true ∧
      State.reset ≠ started 0x00001000#32 := by decide

/-- The invariant holds in a state with an error pending and a configuration, and a step leaves it. -/
theorem witness_StepKeepsStateWellFormed :
    State.Wf { plain with err := 1#9, cause := 1#20 } ∧
      step { plain with err := 1#9, cause := 1#20 } = .next { plain with err := 1#9, cause := 1#20 } := by
  refine ⟨⟨by decide, fun _ => by decide, fun _ c hc => ?_, fun h => absurd h (by decide), fun h => absurd h (by decide),
    fun _ => by decide, fun h => absurd h (by decide)⟩, rfl⟩
  have : ∀ c : Fin 8, (plain.ctx c.val).S.toNat ≤ 16 * Config.uClamp ∧
      (plain.ctx c.val).K.toNat = kOf (cfgDepth plain.active) (plain.ctx c.val).S.toNat ∧
      shapesMatch (stagesOf (cfgLevel plain.active)) (plain.ctx c.val).stages = true := by decide
  exact this ⟨c, hc⟩

theorem witness_NopOnlyCounts : opField 0x00000001#32 = 0x00#8 ∧ 0x00000001#32 ≠ 0#32 := by decide
theorem witness_SoftResetRestoresRegisters :
    opField 0x01100000#32 = 0x01#8 ∧ 0x01100000#32 ≠ 0x01000000#32 := by decide
theorem witness_ClrErrClearsOnlyTheError : opField 0x02000040#32 = 0x02#8 ∧ 0x02000040#32 ≠ 0x02000000#32 := by decide

/-- N at 0 and 32, a cursor that just fits and one that just does not, and N = 33. -/
theorem witness_BwBitsStoresTheField :
    ((0#6).toNat ≤ 32 ∧ (withCursors State.reset 524288#20 0#20 0#20).wpos.toNat + (0#6).toNat ≤ 524288) ∧
      ((32#6).toNat ≤ 32 ∧ (withCursors State.reset 524256#20 0#20 0#20).wpos.toNat + (32#6).toNat ≤ 524288) ∧
      524288 < (withCursors State.reset 524257#20 0#20 0#20).wpos.toNat + (32#6).toNat ∧ 32 < (33#6).toNat := by decide

/-- N = 0 above the limit, a field that ends at the limit, one a bit beyond it, and N = 33. -/
theorem witness_BrBitsReadsTheField :
    (0#6).toNat = 0 ∧
      (withCursors State.reset 0#20 0#20 32#20).rpos.toNat + (32#6).toNat ≤
        (withCursors State.reset 0#20 0#20 32#20).readLimit ∧
      (withCursors State.reset 0#20 1#20 32#20).readLimit <
        (withCursors State.reset 0#20 1#20 32#20).rpos.toNat + (32#6).toNat ∧ 32 < (33#6).toNat := by decide

theorem witness_BrSbitsSignExtendsTheField :
    (0#6).toNat = 0 ∧
      ((1#6).toNat ≠ 0 ∧ (withCursors State.reset 0#20 31#20 32#20).rpos.toNat + (1#6).toNat ≤
        (withCursors State.reset 0#20 31#20 32#20).readLimit) ∧
      (withCursors State.reset 0#20 32#20 32#20).readLimit <
        (withCursors State.reset 0#20 32#20 32#20).rpos.toNat + (1#6).toNat ∧ 32 < (63#6).toNat := by decide

theorem witness_BwUnaryStoresOnesAndAZero :
    (let s := withOperand (withCursors State.reset 524255#20 0#20 0#20) 32#32
     s.argl.toNat ≤ 32 ∧ s.wpos.toNat + s.argl.toNat + 1 ≤ 524288) ∧
    (let s := withOperand (withCursors State.reset 524256#20 0#20 0#20) 32#32
     s.argl.toNat ≤ 32 ∧ 524288 < s.wpos.toNat + s.argl.toNat + 1) ∧
    32 < (withOperand State.reset 33#32).argl.toNat := by decide

/-- 32 ones and a zero below the limit; 33 ones; 5 ones and the limit. -/
theorem witness_BrUnaryCountsTheOnes :
    (let s := withCursors (withBytes State.reset [(0, 0xFF#8), (1, 0xFF#8), (2, 0xFF#8), (3, 0xFF#8)]) 0#20 0#20 33#20
     (∀ i, i < 32 → bitRead s.buf (s.rpos.toNat + i) = true) ∧ s.rpos.toNat + 32 < s.readLimit ∧
       bitRead s.buf (s.rpos.toNat + 32) = false) ∧
    (let s := withCursors (withBytes State.reset [(0, 0xFF#8), (1, 0xFF#8), (2, 0xFF#8), (3, 0xFF#8), (4, 0x80#8)])
        0#20 0#20 33#20
     (∀ i, i < 33 → bitRead s.buf (s.rpos.toNat + i) = true) ∧ s.rpos.toNat + 33 ≤ s.readLimit) ∧
    (let s := withCursors (withBytes State.reset [(0, 0xF8#8)]) 0#20 0#20 5#20
     (∀ i, i < 5 → bitRead s.buf (s.rpos.toNat + i) = true) ∧ s.readLimit ≤ s.rpos.toNat + 5) := by decide

theorem witness_BwFlushPadsWithZeros :
    (7 = (8 - (withCursors State.reset 524281#20 0#20 0#20).wpos.toNat % 8) % 8 ∧
        (withCursors State.reset 524281#20 0#20 0#20).wpos.toNat ≤ 524288) ∧
      (0 = (8 - (withCursors State.reset 524288#20 0#20 0#20).wpos.toNat % 8) % 8 ∧
        (withCursors State.reset 524288#20 0#20 0#20).wpos.toNat ≤ 524288) ∧
      524288 < (withCursors State.reset 524289#20 0#20 0#20).wpos.toNat := by decide

/-- Four zero pad bits; a pad bit at the limit; a pad bit that is 1. -/
theorem witness_BrAlignChecksThePadding :
    4 = (8 - (12#20).toNat % 8) % 8 ∧
    (let s := withCursors (withBytes State.reset [(1, 0xC0#8)]) 0#20 12#20 16#20
     ∀ i, i < 4 → s.rpos.toNat + i < s.readLimit ∧ bitRead s.buf (s.rpos.toNat + i) = false) ∧
    (let s := withCursors (withBytes State.reset [(1, 0xC0#8)]) 0#20 12#20 14#20
     (∀ i, i < 2 → s.rpos.toNat + i < s.readLimit ∧ bitRead s.buf (s.rpos.toNat + i) = false) ∧
       s.readLimit ≤ s.rpos.toNat + 2) ∧
    (let s := withCursors (withBytes State.reset [(1, 0xC4#8)]) 0#20 12#20 16#20
     (∀ i, i < 1 → s.rpos.toNat + i < s.readLimit ∧ bitRead s.buf (s.rpos.toNat + i) = false) ∧
       s.rpos.toNat + 1 < s.readLimit ∧ bitRead s.buf (s.rpos.toNat + 1) = true) := by decide

/-- A writer's state and a reader's that meets what the read back asks for. -/
theorem witness_WrittenFieldReadsBack :
    (32#6).toNat ≤ 32 ∧ (withOperand State.reset 0xDEADBEEF#32).wpos.toNat + (32#6).toNat ≤ 524288 ∧
      after State.buf (exec (.bwBits 32#6) (withOperand State.reset 0xDEADBEEF#32)) =
        some [(0, 0xDE#8), (1, 0xAD#8), (2, 0xBE#8), (3, 0xEF#8)] ∧
      State.reset.wpos.toNat + (32#6).toNat ≤ (withCursors State.reset 0#20 0#20 32#20).readLimit := by decide +kernel

theorem witness_WrittenUnaryReadsBack :
    (withOperand State.reset 32#32).argl.toNat ≤ 32 ∧
      (withOperand State.reset 32#32).wpos.toNat + (withOperand State.reset 32#32).argl.toNat + 1 ≤ 524288 ∧
      after State.wpos (exec .bwUnary (withOperand State.reset 32#32)) = some 33#20 ∧
      33 ≤ (withCursors State.reset 0#20 0#20 33#20).readLimit := by decide

theorem witness_ZigzagIsABijection :
    (0 : Int) ≤ (0#32).toInt ∧ (0x80000000#32).toInt < 0 ∧ (0#32).toNat % 2 = 0 ∧ (0xFFFFFFFF#32).toNat % 2 = 1 := by
  decide

/-- Quotients 15 and 16, and k at 24. -/
theorem witness_CodeBitsFollowTheRule :
    4095 >>> 8 < 16 ∧ 16 ≤ 4096 >>> 8 ∧ (24 : Nat) ≤ 24 ∧ (2 ^ 28 - 1) >>> 24 < 16 := by decide

theorem witness_CoderUpdateFollowsTheAverage :
    ({ Ctx.blank with S := 1073741808#30 } : Ctx).S.toNat ≤ 16 * 67108863 ∧ (24 : Nat) ≤ 24 := by decide

/-- A context that opens, with room for the 48 bits of an escape and one bit too few for it. -/
theorem witness_EcEncWritesTheCode :
    (withOperand (withCursors plain 524240#20 0#20 0#20) 2048#32).opens 1#4 ∧
      (let s := withOperand (withCursors plain 524240#20 0#20 0#20) 2048#32
       (zigzag s.argl).toNat = 4096 ∧ (s.ctx 1).K.toNat = 8 ∧ s.wpos.toNat + 48 ≤ 524288) ∧
      524288 < (withCursors plain 524241#20 0#20 0#20).wpos.toNat + 48 := ⟨⟨rfl, by decide⟩, by decide⟩

/-- A context's checks: not configured, and a channel at NCH. -/
theorem witness_checksContext :
    State.reset.cfgValid = false ∧ plain.cfgValid = true ∧ plain.channels ≤ (2#4).toNat := by decide

/-- The buffer of `EC_ENC #100` read whole and cut by the limit, and an escape of 4095 at K = 8 so read and cut. -/
theorem witness_EcDecReadsTheCode :
    plain.opens 0#4 ∧ (plain.ctx 0).K.toNat = 8 ∧
      holdsBitsBelow [(0, 0x64#8)] 9 0 (codeBits 8 (200#32).toNat) ∧
      holdsBitsBelow [(0, 0x64#8)] 8 0 (codeBits 8 (200#32).toNat) ∧
      0 + (codeBits 8 (200#32).toNat).length ≤ (withCursors plain 0#20 0#20 9#20).readLimit ∧
      (withCursors plain 0#20 0#20 8#20).readLimit < 0 + (codeBits 8 (200#32).toNat).length ∧
      holdsBitsBelow [(0, 0xFF#8), (1, 0xFF#8), (4, 0x0F#8), (5, 0xFF#8)] 48 0
        (List.replicate 16 true ++ fieldBits 32 (4095#32).toNat) ∧
      (withCursors plain 0#20 0#20 47#20).readLimit < 0 + 48 ∧
      0 + 48 ≤ plain.readLimit ∧ (4095#32).toNat >>> (plain.ctx 0).K.toNat < 16 :=
  ⟨plain_opens _ (by decide), by decide,
    holdsBitsBelow_of_holdsBits _ _ _ _ (holdsBits_of_all _ _ _ (by decide)),
    holdsBitsBelow_of_holdsBits _ _ _ _ (holdsBits_of_all _ _ _ (by decide)), by decide, by decide,
    holdsBitsBelow_of_holdsBits _ _ _ _ (holdsBits_of_all _ _ _ (by decide)), by decide, by decide, by decide⟩

theorem witness_EcResetSetsTheInitialCoderState : plain.opens 1#4 := plain_opens _ (by decide)

/-- An encoder's state, and the decoder's with the same context and the bits the encoder wrote. -/
theorem witness_EntropyCodeRoundTrip :
    (withOperand plain 100#32).opens 0#4 ∧ (withBytes plain [(0, 0x64#8)]).opens 1#4 ∧ cfgLegal plain.active = true ∧
      9 = (codeBits (plain.ctx 0).K.toNat (zigzag 100#32).toNat).length ∧ plain.wpos.toNat + 9 ≤ 524288 ∧
      after State.buf (exec (.ecEnc 0#4) (withOperand plain 100#32)) = some [(0, 0x64#8)] ∧
      (withBytes plain [(0, 0x64#8)]).ctx 1 = (withOperand plain 100#32).ctx 0 ∧
      (withBytes plain [(0, 0x64#8)]).rpos.toNat + 9 ≤ (withBytes plain [(0, 0x64#8)]).readLimit :=
  ⟨plain_opens _ (by decide), plain_opens _ (by decide), by decide⟩

/-- The stage of 1.2 before its step 2, with the dot product and the prediction given there. -/
theorem witness_StageStepFollowsTheRules :
    let h : List (BitVec 32) := 50#32 :: (-50#32) :: List.replicate 14 0#32
    let w : List (BitVec 16) := 4080#16 :: List.replicate 15 0#16
    0 < h.length ∧ w.length = h.length ∧ 1 ≤ 12 ∧
      (204000 : Int) = (Finset.range h.length).sum (fun i => (w.getD i 0).toInt * (h.getD i 0).toInt) ∧
      (50 : Int) = max (-(2 : Int) ^ 31) (min ((2 : Int) ^ 31 - 1) (((204000 : Int) + 2 ^ (12 - 1)).fdiv (2 ^ 12))) := by decide

/-- The B-bit range at its two ends and beyond them. -/
theorem witness_FcEncRunsTheCascade :
    filtered.opens 0#4 ∧
      -(2 : Int) ^ (filtered.depth - 1) = (-32768#32).toInt ∧ (32767#32).toInt = (2 : Int) ^ (filtered.depth - 1) - 1 ∧
      (-32769#32).toInt < -(2 : Int) ^ (filtered.depth - 1) ∧ (2 : Int) ^ (filtered.depth - 1) - 1 < (32768#32).toInt ∧
      plain.level = 0 ∧
      (filtered.ctx 0).stages.length = (stagesOf filtered.level).length :=
  ⟨filtered_opens, by decide⟩

theorem witness_FcDecRunsTheCascadeBackwards :
    filtered.opens 0#4 ∧
      (filterDec (stagesOf filtered.level) (filtered.ctx 0).stages 32767#32).2 = 32767#32 ∧
      (filterDec (stagesOf filtered.level) (filtered.ctx 0).stages 32768#32).2 = 32768#32 ∧ plain.level = 0 ∧
      (filtered.ctx 0).stages.length = (stagesOf filtered.level).length :=
  ⟨filtered_opens, by decide⟩

theorem witness_FcResetSetsTheInitialFilterState :
    filtered.opens 0#4 ∧ plain.level = 0 ∧ (plain.ctx 1).stages = [] :=
  ⟨filtered_opens, by decide⟩

theorem witness_FilterChainIsReversible :
    filtered.opens 0#4 ∧ cfgLegal filtered.active = true ∧ inSampleRange filtered.depth (-50#32).toInt = true ∧
      after State.result (exec (.fcEnc 0#4) (withOperand filtered (-50#32))) = some (-50#32) :=
  ⟨filtered_opens, by decide⟩

/-- The least and the greatest legal configuration, and for each check one that it alone refuses. -/
theorem witness_FrameStartLatchesAndResets :
    [0x00000800#32, 0x00071803#32].all cfgLegal = true ∧
      [0x00001010#32, 0x00003000#32, 0x00101000#32, 0x00001004#32, 0x00000700#32, 0x00001900#32, 0x00081000#32].all
        (fun c => !cfgLegal c) = true := by decide

theorem witness_SmpEncFiltersAndCodes :
    filtered.opens 0#4 ∧
      filterEnc (stagesOf filtered.level) (filtered.ctx 0).stages 32767#32 =
        ([⟨32767#32 :: List.replicate 15 0#32, 4096#16 :: List.replicate 15 0#16⟩], 32767#32) ∧
      (zigzag 32767#32).toNat = 65534 ∧ ¬ 65534 >>> (filtered.ctx 0).K.toNat < 16 ∧
      (withCursors filtered 524240#20 0#20 0#20).wpos.toNat + 48 ≤ 524288 ∧
      524288 < (withCursors filtered 524241#20 0#20 0#20).wpos.toNat + 48 :=
  ⟨filtered_opens, by decide⟩

/-- The code of -50 read whole and cut by the limit, a residual that gives a sample out of range, and an escape of 4095
at K = 8 read and cut. -/
theorem witness_SmpDecDecodesAndRebuilds :
    filtered.opens 0#4 ∧ (filtered.ctx 0).K.toNat = 8 ∧
      holdsBitsBelow [(0, 0x31#8), (1, 0x80#8)] 9 0 (codeBits 8 (99#32).toNat) ∧
      (filterDec (stagesOf filtered.level) (filtered.ctx 0).stages (unzigzag 99#32)).2 = -50#32 ∧
      0 + (codeBits 8 (99#32).toNat).length ≤ (withCursors filtered 0#20 0#20 9#20).readLimit ∧
      (withCursors filtered 0#20 0#20 8#20).readLimit < 0 + (codeBits 8 (99#32).toNat).length ∧
      holdsBitsBelow [(0, 0xFF#8), (1, 0xFF#8), (3, 1#8)] 48 0 (codeBits 8 (65536#32).toNat) ∧
      (filterDec (stagesOf filtered.level) (filtered.ctx 0).stages (unzigzag 65536#32)).2 = 32768#32 ∧
      holdsBitsBelow [(0, 0xFF#8), (1, 0xFF#8), (4, 0x0F#8), (5, 0xFF#8)] 48 0
        (List.replicate 16 true ++ fieldBits 32 (4095#32).toNat) ∧
      (withCursors filtered 0#20 0#20 47#20).readLimit < 0 + 48 ∧
      0 + 48 ≤ filtered.readLimit ∧ (4095#32).toNat >>> (filtered.ctx 0).K.toNat < 16 :=
  ⟨filtered_opens, by decide, holdsBitsBelow_of_holdsBits _ _ _ _ (holdsBits_of_all _ _ _ (by decide)), by decide,
    by decide, by decide, holdsBitsBelow_of_holdsBits _ _ _ _ (holdsBits_of_all _ _ _ (by decide)), by decide,
    holdsBitsBelow_of_holdsBits _ _ _ _ (holdsBits_of_all _ _ _ (by decide)), by decide, by decide, by decide⟩

/-- FC_ENC, and EC_ENC in the state it leaves with its residual latched. -/
theorem witness_SmpEncIsFcEncThenEcEnc :
    afterTwo (exec (.fcEnc 0#4)) (exec (.ecEnc 0#4)) (withOperand filtered 100#32) =
      some (100#32, 1#32, 2#32) := by decide

/-- EC_DEC, and FC_DEC in the state it leaves with its residual latched. -/
theorem witness_SmpDecIsEcDecThenFcDec :
    afterTwo (exec (.ecDec 0#4)) (exec (.fcDec 0#4)) (withBytes filtered [(0, 0x31#8), (1, 0x80#8)]) =
      some (-50#32, 1#32, 2#32) := by decide

theorem witness_SampleCodingIsLossless :
    filtered.opens 0#4 ∧ cfgLegal filtered.active = true ∧ inSampleRange filtered.depth (-50#32).toInt = true ∧
      after (fun t => (t.buf, t.wpos)) (exec (.smpEnc 0#4) (withOperand filtered (-50#32))) =
        some ([(0, 0x31#8), (1, 0x80#8)], 9#20) ∧
      (withBytes filtered [(0, 0x31#8), (1, 0x80#8)]).ctx 0 = (withOperand filtered (-50#32)).ctx 0 ∧
      0 + 9 ≤ filtered.readLimit := ⟨filtered_opens, by decide⟩

/-- A reset asserted with a command in flight, released, and an access while it is asserted. -/
theorem witness_PowerOnResetRestoresRegisters :
    (withHost inFlight [.assertReset]).coreReady = false ∧ (withHost inFlight [.assertReset]).host = .assertReset :: [] ∧
      ({ withHost State.reset [.releaseReset] with resetInput := true } : State).resetInput = true ∧
      ({ withHost State.reset [.wait] with resetInput := true } : State).host = .wait :: [] := by decide

/-- No error and any word; an error and NOP, SOFT_RESET, CLR_ERR; an error and the next opcode. -/
theorem witness_CmdWriteIssuesOrSkips :
    (withHost State.reset [writeRegOp .cmd 0x40000000#32]).host = .write .w32 0x010 0x40000000#32 :: [] ∧
      State.reset.busy = false ∧ State.reset.resetInput = false ∧ State.reset.err = 0#9 ∧ pending.err ≠ 0#9 ∧
      pending.busy = false ∧ (opField 0x02000000#32).toNat ∈ [0x00, 0x01, 0x02] ∧
      (opField 0x03000000#32).toNat ∉ [0x00, 0x01, 0x02] := by decide

/-- The host next while BUSY; the offsets at which the clauses meet. -/
theorem witness_BusyWritesOverrun :
    (withHost inFlight [.write .w32 0x028 7#32]).busy = true ∧
      (withHost inFlight [.write .w32 0x028 7#32]).hostNext ∧
      (0x044 ≤ 0x044 ∧ 0x044 % 4 = 0 ∧ 0x044 ≠ 0x028) ∧ (0x10000 ≤ 0x1FFFE ∧ 0x1FFFE < 0x20000 ∧ 0x1FFFE % 2 = 0) ∧
      (0x048 ≤ 0xFFFC ∧ 0xFFFC < 0x10000 ∧ 0xFFFC % 4 = 0) :=
  ⟨rfl, ⟨rfl, rfl⟩, by decide⟩

theorem witness_BusyReadsDoNotDisturb :
    (withHost inFlight [.read .w32 0x004]).busy = true ∧
      (withHost inFlight [.read .w32 0x004]).hostNext ∧
      (0xFFFC < 0x10000 ∧ 0xFFFC % 4 = 0) ∧ (0x10000 ≤ 0x1FFFF ∧ 0x1FFFF < 0x20000 ∧ 0x1FFFF % Width.w8.bytes = 0) :=
  ⟨rfl, ⟨rfl, rfl⟩, by decide⟩

/-- A byte read of a register, an unaligned 16-bit access of the buffer, the first offset beyond the window. -/
theorem witness_BadAccessesAreRefused :
    (withHost State.reset [.read .w8 0x004]).hostNext ∧
      (0xFFFC < 0x10000 ∧ Width.w8 ≠ .w32) ∧ (0x10000 ≤ 0x1FFFF ∧ 0x1FFFF < 0x20000 ∧ 0x1FFFF % Width.w16.bytes ≠ 0) ∧
      0x20000 ≤ 0x20000 ∧ (0xFFFC < 0x10000 ∧ 0xFFFC % 4 = 0) :=
  ⟨⟨rfl, rfl⟩, by decide⟩

theorem witness_UnmappedAndReadOnlyIgnoreWrites :
    (withHost State.reset [.read .w32 0xFFFC]).hostNext ∧ (withHost inFlight [.write .w32 0x048 1#32]).hostNext ∧
      0xFFFC % 4 = 0 ∧ 0x048 % 4 = 0 ∧ State.reset.busy = false ∧
      (withHost State.reset [.read .w32 0xFFFC]).host = .read .w32 0xFFFC :: [] ∧
      (withHost inFlight [.write .w32 0x048 1#32]).host = .write .w32 0x048 1#32 :: [] ∧
      0x044 ∈ [0x000, 0x004, 0x008, 0x00C, 0x020, 0x024, 0x02C, 0x030, 0x038, 0x040, 0x044] :=
  ⟨⟨rfl, rfl⟩, ⟨rfl, rfl⟩, by decide⟩

theorem witness_WritableRegistersStoreTheirFields :
    State.reset.busy = false ∧ State.reset.resetInput = false ∧
      (withHost State.reset [writeRegOp .dbgSel 0xFFFFFFFF#32]).host = .write .w32 Reg.dbgSel.offset 0xFFFFFFFF#32 :: [] := by
  decide

/-- A read with a configuration, at the last context that exists and beyond it, and without one. -/
theorem witness_RegisterReadsAnswerTheFields :
    (withHost plain [readRegOp .dbgS]).host = .read .w32 Reg.dbgS.offset :: [] ∧ plain.busy = false ∧
      plain.resetInput = false ∧ ({ plain with dbgSel := 7#4 } : State).dbgSel.toNat < 8 ∧
      8 ≤ ({ plain with dbgSel := 8#4 } : State).dbgSel.toNat ∧ State.reset.cfgValid = false := by decide

/-- The last word of the buffer, written and read. -/
theorem witness_BufferAccessesAreLittleEndian :
    State.reset.busy = false ∧ State.reset.resetInput = false ∧ 65532 + Width.w32.bytes ≤ 65536 ∧
      65532 % Width.w32.bytes = 0 ∧
      (withHost State.reset [writeBufOp .w32 65532 1#32]).host = .write .w32 (0x10000 + 65532) 1#32 :: [] ∧
      (withHost State.reset [readBufOp .w32 65532]).host = .read .w32 (0x10000 + 65532) :: [] := by decide

/-- A core's step that follows one poll, and one that follows none. -/
theorem witness_CommandInFlightCompletes :
    (withHost inFlight [.wait]).busy = true ∧ (withHost inFlight [.wait]).resetInput = false ∧
      (withHost inFlight [.wait]).host = .wait :: [] ∧ (withHost inFlight [.wait]).delay = 1 ∧
      decode (withHost inFlight [.wait]).cmdl = .cmd .nop ∧
      (withHost (flying 0x05000000#32) [.wait]).busy = true ∧ (withHost (flying 0x05000000#32) [.wait]).resetInput = false ∧
      (withHost (flying 0x05000000#32) [.wait]).host = .wait :: [] ∧ (withHost (flying 0x05000000#32) [.wait]).delay = 0 ∧
      decode (withHost (flying 0x05000000#32) [.wait]).cmdl = .illegal .opcode := by decide

/-- The first and the last bit of the buffer, and R88's example: after a 32-bit write of 0xF0 at address 0 bits 0 to 3
are 1 and bits 4 to 31 are 0. -/
theorem witness_BitsLieMostSignificantFirst :
    0 < 524288 ∧ 524287 < 524288 ∧
      (List.range 32).map (bitRead (memWrite State.reset.buf 0 4 0x000000F0)) =
        List.replicate 4 true ++ List.replicate 28 false := by decide

end Sys2Proof.Tests
end

section
/-! SUPPORT. What a command that completes does to the command counter and to the error registers
(spec/00_scope.md R13, spec/10_state.md R51, spec/60_exceptions.md R280, R284). -/

namespace Sys2Proof.Machine

variable {i : Instr} {s t : State}

/-- SOFT_RESET is the one command that does not count itself (spec/10_state.md R51, spec/45_control.md R261). -/
theorem Completes.cmdCount (h : Completes s i t) (hi : i ≠ .softReset) :
    t.cmdCount = s.cmdCount + 1#32 := by
  cases h with
  | softReset => exact absurd rfl hi
  | _ => rfl

/-- The returns from an error, SOFT_RESET and CLR_ERR, are the only commands that write ERR and CAUSE when they
complete (spec/60_exceptions.md R284, R288). -/
theorem Completes.err_cause (h : Completes s i t) (hi : i ≠ .softReset) (hi' : i ≠ .clrErr) :
    t.err = s.err ∧ t.cause = s.cause := by
  cases h with
  | softReset => exact absurd rfl hi
  | clrErr => exact absurd rfl hi'
  | _ => exact ⟨rfl, rfl⟩

/-- Settles O6: `exec_cases` splits a command into the raise and the ways to complete, and each of these counts
the command and leaves the error registers alone. -/
theorem everyCommandCompletesOrRaisesOnce : Obligations.EveryCommandCompletesOrRaisesOnce := by
  intro i s
  rcases exec_cases i s with hraise | ⟨t, ht, hc⟩
  · exact .inl hraise
  · exact .inr ⟨t, ht, hc.cmdCount, hc.err_cause⟩

end Sys2Proof.Machine
end

section
/-! SUPPORT. The invariant of the machine, operation by operation: what the coder and the filter keep of a context
(spec/10_state.md R63, R60(b)), what each operation on the state keeps of `State.Wf`, and from these the core's step
and the host's. -/

namespace Sys2Proof.Machine

/-! The coder keeps R63 (spec/42_entropy.md R186, R187, R193). -/

/-- The running sum stays in its bound (spec/42_entropy.md R189). -/
theorem nextSum_le (S u : Nat) (h : S ≤ 16 * Config.uClamp) : nextSum S u ≤ 16 * Config.uClamp := by
  simp only [nextSum, Nat.shiftRight_eq_div_pow, Config.adaptShift, Config.uClamp] at *
  omega

/-- A sum within the bound is held exactly in the 30-bit field of S. -/
theorem toNat_ofNat_sum (S : Nat) (h : S ≤ 16 * Config.uClamp) : (BitVec.ofNat 30 S).toNat = S := by
  rw [BitVec.toNat_ofNat]
  exact Nat.mod_eq_of_lt (by simp only [Config.uClamp] at h; omega)

/-- `KOf` of a sum that S holds is held exactly in the 5-bit field of K. -/
theorem toNat_ofNat_kOf (b : Nat) (S : BitVec 30) :
    (BitVec.ofNat 5 (kOf b S.toNat)).toNat = kOf b S.toNat := by
  rw [BitVec.toNat_ofNat]
  exact Nat.mod_eq_of_lt (kOf_lt b _ S.isLt)

/-- The initial sum of a legal depth is within the bound (spec/42_entropy.md R193). -/
theorem initialSum_le (b : Nat) (h : b ≤ 24) : initialSum b ≤ 16 * Config.uClamp := by
  have hpow : 2 ^ (b >>> 1) ≤ 2 ^ 12 :=
    Nat.pow_le_pow_right (by decide) (by rw [Nat.shiftRight_eq_div_pow]; omega)
  simp only [initialSum, Config.uClamp]
  omega

/-- A coder state whose sum is in the bound and whose K is `KOf` of it satisfies R63. -/
theorem Ctx.wf_mk {active : Word} {S : BitVec 30} {sts : List Stage} (hS : S.toNat ≤ 16 * Config.uClamp)
    (hshape : shapesMatch (stagesOf (cfgLevel active)) sts = true) :
    Ctx.wf active { S := S, K := BitVec.ofNat 5 (kOf (cfgDepth active) S.toNat), stages := sts } :=
  ⟨hS, toNat_ofNat_kOf _ _, hshape⟩

/-- The initial coder state of a legal depth satisfies R63. -/
theorem Ctx.wf_initial {active : Word} {sts : List Stage} (hb : cfgDepth active ≤ 24)
    (hshape : shapesMatch (stagesOf (cfgLevel active)) sts = true) :
    Ctx.wf active
      { S := BitVec.ofNat 30 (initialSum (cfgDepth active))
        K := BitVec.ofNat 5 (kOf (cfgDepth active) (initialSum (cfgDepth active)))
        stages := sts } := by
  have hinit := initialSum_le _ hb
  have hS := toNat_ofNat_sum _ hinit
  have hwf := Ctx.wf_mk (S := BitVec.ofNat 30 (initialSum (cfgDepth active))) (hS.symm ▸ hinit) hshape
  rwa [hS] at hwf

theorem Ctx.wf.coderUpdate {active : Word} {c : Ctx} (h : c.wf active) (u : Nat) :
    (coderUpdate (cfgDepth active) u c).wf active := by
  obtain ⟨hS, -, hshape⟩ := h
  have hnext := nextSum_le c.S.toNat u hS
  exact Ctx.wf_mk ((toNat_ofNat_sum _ hnext).symm ▸ hnext) hshape

theorem Ctx.wf.coderReset {active : Word} {c : Ctx} (h : c.wf active) (hb : cfgDepth active ≤ 24) :
    (coderReset (cfgDepth active) c).wf active := by
  obtain ⟨-, -, hshape⟩ := h
  exact Ctx.wf_initial hb hshape

/-! The filter keeps the shape of the stages (spec/10_state.md R60(b)). -/

theorem shapesMatch_cons (q : StageParam) (qs : List StageParam) (st : Stage) (sts : List Stage) :
    shapesMatch (q :: qs) (st :: sts) = true ↔
      st.h.length = q.order ∧ st.w.length = q.order ∧ shapesMatch qs sts = true := by
  simp [shapesMatch, and_assoc]

/-- A stage after it has encoded has the shape it had. -/
theorem stageEnc_order {q : StageParam} {st : Stage} (x : Word) (hh : st.h.length = q.order)
    (hw : st.w.length = q.order) :
    (stageEnc q st x).1.h.length = q.order ∧ (stageEnc q st x).1.w.length = q.order := by
  obtain ⟨hh', hw'⟩ := stageEnc_lengths q st x (hw.trans hh.symm)
  exact ⟨hh'.trans hh, hw'.trans hw⟩

/-- A stage after it has decoded has the shape it had. -/
theorem stageDec_order {q : StageParam} {st : Stage} (r : Word) (hh : st.h.length = q.order)
    (hw : st.w.length = q.order) :
    (stageDec q st r).1.h.length = q.order ∧ (stageDec q st r).1.w.length = q.order := by
  obtain ⟨hh', hw'⟩ := stageDec_lengths q st r (hw.trans hh.symm)
  exact ⟨hh'.trans hh, hw'.trans hw⟩

theorem shapesMatch_filterEnc (qs : List StageParam) (sts : List Stage) (x : Word)
    (h : shapesMatch qs sts = true) : shapesMatch qs (filterEnc qs sts x).1 = true := by
  induction qs generalizing sts x with
  | nil => exact h
  | cons q qs ih =>
    cases sts with
    | nil => exact h
    | cons st sts =>
      obtain ⟨hh, hw, hrest⟩ := (shapesMatch_cons _ _ _ _).1 h
      obtain ⟨hh', hw'⟩ := stageEnc_order x hh hw
      exact (shapesMatch_cons _ _ _ _).2 ⟨hh', hw', ih _ _ hrest⟩

theorem shapesMatch_filterDec (qs : List StageParam) (sts : List Stage) (r : Word)
    (h : shapesMatch qs sts = true) : shapesMatch qs (filterDec qs sts r).1 = true := by
  induction qs generalizing sts r with
  | nil => exact h
  | cons q qs ih =>
    cases sts with
    | nil => exact h
    | cons st sts =>
      obtain ⟨hh, hw, hrest⟩ := (shapesMatch_cons _ _ _ _).1 h
      obtain ⟨hh', hw'⟩ := stageDec_order (filterDec qs sts r).2 hh hw
      exact (shapesMatch_cons _ _ _ _).2 ⟨hh', hw', ih _ _ hrest⟩

theorem shapesMatch_zeroStages (qs : List StageParam) : shapesMatch qs (qs.map zeroStage) = true := by
  induction qs with
  | nil => rfl
  | cons q qs ih => exact (shapesMatch_cons _ _ _ _).2 ⟨by simp [zeroStage], by simp [zeroStage], ih⟩

/-- The initial filter state has the shape of its level (spec/43_filter.md R212). -/
theorem shapesMatch_initialStages (level : Nat) : shapesMatch (stagesOf level) (initialStages level) = true := by
  unfold initialStages
  cases stagesOf level with
  | nil => rfl
  | cons q qs =>
    exact (shapesMatch_cons _ _ _ _).2
      ⟨by simp [primeStage, zeroStage], by simp [primeStage, zeroStage], shapesMatch_zeroStages qs⟩

/-- New stages of the level's shape leave the rest of the context invariant as it was. -/
theorem Ctx.wf.withStages {active : Word} {c : Ctx} {sts : List Stage} (h : c.wf active)
    (hshape : shapesMatch (stagesOf (cfgLevel active)) sts = true) : Ctx.wf active { c with stages := sts } := by
  obtain ⟨hS, hK, -⟩ := h
  exact ⟨hS, hK, hshape⟩

theorem Ctx.wf.shapes {active : Word} {c : Ctx} (h : c.wf active) :
    shapesMatch (stagesOf (cfgLevel active)) c.stages = true := by
  obtain ⟨-, -, hshape⟩ := h
  exact hshape

theorem Ctx.wf.filterEnc {active : Word} {c : Ctx} (h : c.wf active) (x : Word) :
    Ctx.wf active { c with stages := (filterEnc (stagesOf (cfgLevel active)) c.stages x).1 } :=
  h.withStages (shapesMatch_filterEnc _ _ x h.shapes)

theorem Ctx.wf.filterDec {active : Word} {c : Ctx} (h : c.wf active) (r : Word) :
    Ctx.wf active { c with stages := (filterDec (stagesOf (cfgLevel active)) c.stages r).1 } :=
  h.withStages (shapesMatch_filterDec _ _ r h.shapes)

/-- FRAME_START's contexts under a legal configuration (spec/44_frame_pipeline.md R240). -/
theorem freshContext_wf (cfg : Word) (h : cfgLegal cfg = true) : (freshContext cfg).wf cfg := by
  obtain ⟨-, -, -, hb, -⟩ := (cfgLegal_iff cfg).1 h
  exact Ctx.wf_initial hb (shapesMatch_initialStages _)

/-! What each operation on the state keeps of the invariant. -/

namespace State.Wf

variable {s : State}

theorem recordError (h : s.Wf) (k : Cause) (w : Word) : (s.recordError k w).Wf :=
  { h with
    noCause := fun he => absurd he (recordError_err_ne_zero s k w)
    someCause := fun _ => by
      simp only [State.causeCode, State.recordError_cause]
      split
      · rw [causeWord_code]
        exact k.code_range
      · next he => exact h.someCause he }

theorem clearError (h : s.Wf) : s.clearError.Wf :=
  { h with
    noCause := fun _ => rfl
    someCause := fun he => absurd rfl he }

theorem count (h : s.Wf) : s.count.Wf := { h with }

theorem withResult (h : s.Wf) (v : Word) : State.Wf { s with result := v } := { h with }

theorem takenTo (h : s.Wf) (p : Nat) : (takenTo s p).Wf := { h with }

theorem stored (h : s.Wf) (bits : List Bool) : (stored s bits).Wf :=
  { h with buf := bufWf_writeBits _ _ _ h.buf }

theorem setCtx (h : s.Wf) (c : Nat) {x : Ctx} (hx : x.wf s.active) : (s.setCtx c x).Wf :=
  { h with
    contexts := fun hv j hj => by
      rw [ctx_setCtx]
      split
      · exact hx
      · exact h.contexts hv j hj }

theorem retire (h : s.Wf) : s.retire.Wf := { h with reset := fun _ => rfl }

/-- SOFT_RESET leaves the core unconfigured, without an error and idle, so that of the state before only the buffer
matters (spec/45_control.md R261). -/
theorem softReset (h : bufWf s.buf = true) : s.softReset.Wf where
  buf := h
  active := nofun
  contexts := nofun
  idle := fun _ => rfl
  noCause := fun _ => rfl
  someCause := fun he => absurd rfl he
  reset := fun _ => rfl

/-- The contents drawn at a power-on reset are in the canonical form, whatever the state before
(spec/70_reset_and_hazards.md R320). -/
theorem powerOnReset (s : State) : s.powerOnReset.Wf :=
  softReset (s := { s with buf := ofCells (Config.powerOnCells s.draws) }) (bufWf_ofCells _)

/-- FRAME_START latches a legal configuration and resets every context to it (spec/44_frame_pipeline.md R240). -/
theorem latchConfig (h : s.Wf) (hcfg : cfgLegal s.config = true) :
    State.Wf { s with
      active := s.config
      cfgValid := true
      ctxs := Vector.replicate 8 (freshContext s.config)
      frameWpos := s.wpos
      frameRpos := s.rpos } :=
  { h with
    active := fun _ => hcfg
    contexts := fun _ c hc => by
      simpa [State.ctx, show c < 8 from hc] using freshContext_wf _ hcfg
    idle := nofun }

/-- A channel that passes the checks of shape C has a context that satisfies R63. -/
theorem ctx_of_passes (h : s.Wf) {ch : BitVec 4} (hp : passes s ch) : (s.ctx ch.toNat).wf s.active := by
  obtain ⟨hv, hch⟩ := hp
  obtain ⟨-, -, -, -, hnch⟩ := (cfgLegal_iff _).1 (h.active hv)
  exact h.contexts hv _ (Nat.lt_of_lt_of_le hch hnch)

theorem depth_of_passes (h : s.Wf) {ch : BitVec 4} (hp : passes s ch) : cfgDepth s.active ≤ 24 := by
  obtain ⟨hv, -⟩ := hp
  obtain ⟨-, -, -, hb, -⟩ := (cfgLegal_iff _).1 (h.active hv)
  exact hb

/-- Every way a command completes keeps the invariant. -/
theorem completes (h : s.Wf) {i : Instr} {t : State} (hc : Completes s i t) : t.Wf := by
  cases hc with
  | nop => exact h.count
  | softReset => exact softReset h.buf
  | clrErr => exact h.clearError.count
  | bwBits _ bits _ | bwUnary bits _ | bwFlush bits _ => exact (h.stored bits).count
  | brBits _ p v _ | brSbits _ p v _ | brUnary p v _ => exact ((h.takenTo p).withResult v).count
  | brAlign p _ => exact (h.takenTo p).count
  | ecEnc ch u bits hp _ =>
    exact ((h.setCtx ch.toNat ((h.ctx_of_passes hp).coderUpdate u)).stored bits).count
  | ecDec ch u p v hp _ =>
    exact (((h.takenTo p).setCtx ch.toNat ((h.ctx_of_passes hp).coderUpdate u)).withResult v).count
  | ecReset ch hp => exact (h.setCtx ch.toNat ((h.ctx_of_passes hp).coderReset (h.depth_of_passes hp))).count
  | fcEnc ch hp => exact ((h.setCtx ch.toNat ((h.ctx_of_passes hp).filterEnc s.argl)).withResult _).count
  | fcDec ch hp => exact ((h.setCtx ch.toNat ((h.ctx_of_passes hp).filterDec s.argl)).withResult _).count
  | fcReset ch hp =>
    exact (h.setCtx ch.toNat ((h.ctx_of_passes hp).withStages (shapesMatch_initialStages _))).count
  | frameStart hcfg => exact (h.latchConfig hcfg).count
  | smpEnc ch x v u bits hp _ =>
    exact (((h.setCtx ch.toNat (((h.ctx_of_passes hp).filterEnc x).coderUpdate u)).withResult v).stored
      bits).count
  | smpDec ch x v u p hp _ =>
    exact (((h.takenTo p).setCtx ch.toNat
      (((h.ctx_of_passes hp).filterDec x).coderUpdate u)).withResult v).count

/-- A command keeps the invariant, whether it raises or completes. -/
theorem exec (h : s.Wf) {i : Instr} {t : State} (he : exec i s = .next t) : t.Wf := by
  rcases exec_next i s t he with ⟨k, rfl⟩ | hc
  · exact h.recordError k _
  · exact h.completes hc

/-- The core's step keeps the invariant, on an illegal word and on a command. -/
theorem coreTurn (h : s.Wf) {t : State} (ht : coreTurn s = .next t) : t.Wf := by
  cases hd : decode s.cmdl with
  | illegal why =>
    rw [coreTurn_illegal s why hd] at ht
    cases ht
    exact (h.recordError _ _).retire
  | cmd i =>
    obtain ⟨u, hu⟩ := exec_is_next i s
    rw [coreTurn_cmd s i hd, hu] at ht
    cases ht
    exact (h.exec hu).retire

/-! The host's side. -/

theorem hostMoved (h : s.Wf) (rest : List HostOp) (d : Nat) : State.Wf { s with host := rest, delay := d } :=
  { h with }

theorem answer (h : s.Wf) (v : Word) : (s.answer v).Wf := { h with }

theorem withDraws (h : s.Wf) (n : Nat) : State.Wf { s with draws := n } := { h with }

theorem busyReadReg (h : s.Wf) (r : Reg) : (s.busyReadReg r).Wf := by
  cases r with
  | id | arg0 => exact h.answer _
  | _ => exact (h.withDraws _).answer _

/-- An issue or a skip keeps the invariant while the reset input is released: the one may set BUSY, the other adds
SKIPPED to an ERR that is not 0 (spec/60_exceptions.md R282, R285). -/
theorem issue (h : s.Wf) (hr : s.resetInput = false) (w : Word) : (s.issue w).Wf := by
  unfold State.issue
  split
  · next hskip =>
    obtain ⟨herr, -⟩ := hskip
    exact { h with
      noCause := fun he => absurd (BitVec.or_eq_zero_iff.1 he).1 herr
      someCause := fun _ => h.someCause herr }
  · exact { h with reset := fun hr' => absurd (hr.symm.trans hr') (by decide) }

theorem writeReg (h : s.Wf) (hr : s.resetInput = false) (r : Reg) (v : Word) : (s.writeReg r v).Wf := by
  cases r with
  | cmd => exact h.issue hr v
  | _ => exact { h with }

theorem hostRead (h : s.Wf) {width : Width} {offset : Nat} {t : State}
    (ht : hostRead width offset s = .next t) : t.Wf := by
  unfold Machine.hostRead at ht
  split at ht
  · cases ht
  · cases ht
    exact h.answer _
  · split at ht <;> cases ht
    · exact h.busyReadReg _
    · exact h.answer _
  · split at ht <;> cases ht
    · exact (h.withDraws _).answer _
    · exact h.answer _

theorem hostWrite (h : s.Wf) {width : Width} {offset : Nat} {v : Word} {t : State}
    (ht : hostWrite width offset v s = .next t) (hr : s.resetInput = false) : t.Wf := by
  unfold Machine.hostWrite at ht
  split at ht
  · cases ht
  · cases ht
    exact h
  · split at ht
    · split at ht <;> cases ht
      · exact { h with }
      · exact h.recordError _ _
    · cases ht
      exact h.writeReg hr _ v
  · split at ht <;> cases ht
    · exact h.recordError _ _
    · exact { h with buf := bufWf_memWrite _ _ _ _ h.buf }

theorem hostWait (h : s.Wf) {rest : List HostOp} {t : State} (ht : hostWait s rest = .next t) : t.Wf := by
  unfold Machine.hostWait at ht
  split at ht <;> cases ht
  · exact h.busyReadReg _
  · exact (h.hostMoved rest s.delay).answer _

/-- An access has a next state only while the reset input is released (spec/70_reset_and_hazards.md R320). -/
theorem released_of_access {s t : State} {e : Host.Outcome State Fault Refusal}
    (ht : (if s.resetInput = true then .refused .accessDuringReset else e) = .next t) :
    s.resetInput = false ∧ e = .next t := by
  cases hr : s.resetInput with
  | true => simp [hr] at ht
  | false => exact ⟨rfl, by simpa [hr] using ht⟩

/-- The host's step keeps the invariant, operation by operation (spec/70_reset_and_hazards.md R320, R322). -/
theorem hostTurn (h : s.Wf) {t : State} (ht : hostTurn s = .next t) : t.Wf := by
  unfold Machine.hostTurn at ht
  cases hh : s.host with
  | nil =>
    rw [hh] at ht
    cases ht
    exact h
  | cons op rest =>
    rw [hh] at ht
    cases op with
    | assertReset =>
      cases ht
      exact { h with reset := fun _ => rfl }
    | releaseReset =>
      dsimp only at ht
      split at ht <;> cases ht
      · exact { powerOnReset { s with host := rest } with reset := nofun }
      · exact h.hostMoved _ _
    | read width offset =>
      obtain ⟨-, hread⟩ := released_of_access ht
      exact (h.hostMoved _ _).hostRead hread
    | write width offset v =>
      obtain ⟨hr, hwrite⟩ := released_of_access ht
      exact (h.hostMoved _ _).hostWrite hwrite hr
    | wait =>
      obtain ⟨-, hwait⟩ := released_of_access ht
      exact (h.hostMoved _ _).hostWait hwait

end State.Wf

/-- Settles O13: a step is the core's turn or the host's, and each keeps the invariant. -/
theorem stepKeepsStateWellFormed : Obligations.StepKeepsStateWellFormed := by
  intro s t h hs
  cases hready : s.coreReady with
  | true => exact h.coreTurn (step_core s hready ▸ hs)
  | false => exact h.hostTurn (step_host s hready ▸ hs)

end Sys2Proof.Machine
end

section
/-! SUPPORT. What a command leaves unchanged: the host's registers and the latch (spec/10_state.md R33, R47 to R50,
R54), and the context state that is not its own (spec/10_state.md R62). -/

namespace Sys2Proof.Machine

variable {i : Instr} {s t : State}

/-! The host's side, the latch and the frame registers. -/

/-- The operations, the answers and the reset input are the host's, and kept even by SOFT_RESET. -/
theorem Completes.hostSide (h : Completes s i t) :
    t.host = s.host ∧ t.answers = s.answers ∧ t.resetInput = s.resetInput := by
  cases h <;> exact ⟨rfl, rfl, rfl⟩

/-- The registers that the host alone writes, the latch, BUSY and the model's own fields. -/
theorem Completes.hostRegisters (h : Completes s i t) (hi : i ≠ .softReset) :
    t.arg0 = s.arg0 ∧ t.rlimit = s.rlimit ∧ t.config = s.config ∧ t.dbgSel = s.dbgSel ∧ t.cmdl = s.cmdl ∧
      t.argl = s.argl ∧ t.busy = s.busy ∧ t.delay = s.delay ∧ t.draws = s.draws := by
  cases h with
  | softReset => exact absurd rfl hi
  | _ => exact ⟨rfl, rfl, rfl, rfl, rfl, rfl, rfl, rfl, rfl⟩

/-- The registers of the frame are FRAME_START's to write (spec/10_state.md R48, R49, R54). -/
theorem Completes.frameRegisters (h : Completes s i t) (hi : i ≠ .softReset) (hf : i ≠ .frameStart) :
    t.active = s.active ∧ t.cfgValid = s.cfgValid ∧ t.frameWpos = s.frameWpos ∧ t.frameRpos = s.frameRpos := by
  cases h with
  | softReset => exact absurd rfl hi
  | frameStart => exact absurd rfl hf
  | _ => exact ⟨rfl, rfl, rfl, rfl⟩

/-- Settles O7: a raise writes ERR and CAUSE alone, and each way to complete keeps what it does not own. -/
theorem commandsLeaveHostStateAlone : Obligations.CommandsLeaveHostStateAlone := by
  intro i s t h
  rcases exec_next i s t h with ⟨k, rfl⟩ | hc
  · exact ⟨rfl, rfl, rfl, fun _ =>
      ⟨rfl, rfl, rfl, rfl, rfl, rfl, rfl, rfl, rfl, fun _ => ⟨rfl, rfl, rfl, rfl⟩⟩⟩
  · obtain ⟨hhost, hanswers, hreset⟩ := hc.hostSide
    refine ⟨hhost, hanswers, hreset, fun hi => ?_⟩
    obtain ⟨harg0, hrlimit, hconfig, hdbg, hcmdl, hargl, hbusy, hdelay, hdraws⟩ := hc.hostRegisters hi
    exact ⟨harg0, hrlimit, hconfig, hdbg, hcmdl, hargl, hbusy, hdelay, hdraws, hc.frameRegisters hi⟩

/-! The contexts. -/

/-- A coder command (spec/42_entropy.md): the filter state is not its own. -/
def isCoder : Instr → Bool
  | .ecEnc _ | .ecDec _ | .ecReset _ => true
  | _ => false

/-- A filter command (spec/43_filter.md): the coder state is not its own. -/
def isFilter : Instr → Bool
  | .fcEnc _ | .fcDec _ | .fcReset _ => true
  | _ => false

/-- A shape-C command replaces the context of its channel, and no other; a coder command keeps its filter state and a
filter command its coder state. -/
theorem Completes.ownContext (h : Completes s i t) {ch : BitVec 4} (hch : channelOf i = some ch) :
    ∃ x : Ctx, t.ctxs = (s.setCtx ch.toNat x).ctxs ∧
      (isCoder i = true → x.stages = (s.ctx ch.toNat).stages) ∧
      (isFilter i = true → x.S = (s.ctx ch.toNat).S ∧ x.K = (s.ctx ch.toNat).K) := by
  cases h with
  | ecEnc | ecDec | ecReset =>
    cases hch
    exact ⟨_, rfl, fun _ => rfl, nofun⟩
  | fcEnc | fcDec | fcReset =>
    cases hch
    exact ⟨_, rfl, nofun, fun _ => ⟨rfl, rfl⟩⟩
  | smpEnc | smpDec =>
    cases hch
    exact ⟨_, rfl, nofun, nofun⟩
  | _ => cases hch

/-- A command of no channel keeps every context, but for FRAME_START and SOFT_RESET. -/
theorem Completes.ctxs_of_noChannel (h : Completes s i t) (hch : channelOf i = none) (hf : i ≠ .frameStart)
    (hi : i ≠ .softReset) : t.ctxs = s.ctxs := by
  cases h with
  | softReset => exact absurd rfl hi
  | frameStart => exact absurd rfl hf
  | nop | clrErr | bwBits | brBits | brSbits | bwUnary | brUnary | bwFlush | brAlign => rfl
  | _ => cases hch

/-- A property that one context has of another, in a state whose contexts are those of `s` with one replaced. -/
theorem ctx_replaced_rel {P : Ctx → Ctx → Prop} (hrefl : ∀ c, P c c) {c : Nat} {x : Ctx}
    (ht : t.ctxs = (s.setCtx c x).ctxs) (hx : P x (s.ctx c)) (j : Nat) : P (t.ctx j) (s.ctx j) := by
  rw [ctx_of_setCtx s t c x ht]
  split
  · next hj =>
    obtain ⟨rfl, -⟩ := hj
    exact hx
  · exact hrefl _

/-- Whichever way a coder command ends, it keeps every filter state. -/
theorem exec_coder_stages (he : exec i s = .next t) {ch : BitVec 4} (hch : channelOf i = some ch)
    (hi : isCoder i = true) (c : Nat) : (t.ctx c).stages = (s.ctx c).stages := by
  rcases exec_next i s t he with ⟨k, rfl⟩ | hc
  · rfl
  · obtain ⟨x, ht, hstages, -⟩ := hc.ownContext hch
    exact ctx_replaced_rel (P := fun a b => a.stages = b.stages) (fun _ => rfl) ht (hstages hi) c

/-- Whichever way a filter command ends, it keeps every coder state. -/
theorem exec_filter_coderState (he : exec i s = .next t) {ch : BitVec 4} (hch : channelOf i = some ch)
    (hi : isFilter i = true) (c : Nat) : (t.ctx c).S = (s.ctx c).S ∧ (t.ctx c).K = (s.ctx c).K := by
  rcases exec_next i s t he with ⟨k, rfl⟩ | hc
  · exact ⟨rfl, rfl⟩
  · obtain ⟨x, ht, -, hcoder⟩ := hc.ownContext hch
    exact ctx_replaced_rel (P := fun a b => a.S = b.S ∧ a.K = b.K) (fun _ => ⟨rfl, rfl⟩) ht (hcoder hi) c

/-- Whichever way a command of a channel ends, the contexts of the other channels are kept. -/
theorem exec_other_ctx (he : exec i s = .next t) {ch : BitVec 4} (hch : channelOf i = some ch) {c : Nat}
    (hc : c ≠ ch.toNat) : t.ctx c = s.ctx c := by
  rcases exec_next i s t he with ⟨k, rfl⟩ | hcomp
  · rfl
  · obtain ⟨x, ht, -⟩ := hcomp.ownContext hch
    rw [ctx_congr _ t ht, ctx_setCtx_ne _ _ _ _ hc]

/-- Whichever way a command of no channel ends, every context is kept, but for FRAME_START and SOFT_RESET. -/
theorem exec_noChannel_ctxs (he : exec i s = .next t) (hch : channelOf i = none) (hf : i ≠ .frameStart)
    (hi : i ≠ .softReset) : t.ctxs = s.ctxs := by
  rcases exec_next i s t he with ⟨k, rfl⟩ | hc
  · rfl
  · exact hc.ctxs_of_noChannel hch hf hi

/-- Settles O9, clause by clause from what a shape-C command replaces. -/
theorem commandsWriteOnlyTheirContext : Obligations.CommandsWriteOnlyTheirContext := by
  intro i s t he
  refine ⟨fun ch hch c hc => exec_other_ctx he hch hc, exec_noChannel_ctxs he, ?_, ?_⟩
  · rintro ch (rfl | rfl | rfl) <;> exact exec_coder_stages he rfl rfl
  · rintro ch (rfl | rfl | rfl) <;> exact exec_filter_coderState he rfl rfl

end Sys2Proof.Machine
end

section
/-! SUPPORT. A shape-C command reads no context but its own (spec/10_state.md R62): two states that differ in the other
contexts alone are led to two states that differ in the other contexts alone, by every shared operation and so by every
command. -/

namespace Sys2Proof.Machine

/-- The states differ at most in their contexts, and not in that of channel `ch`. -/
def AgreeOn (ch : BitVec 4) (s s' : State) : Prop :=
  (∃ v : Vector Ctx 8, s' = { s with ctxs := v }) ∧ s'.ctx ch.toNat = s.ctx ch.toNat

/-- Both effects raise the same cause, or both are done with working copies that agree. -/
inductive Effect.AgreeOn (ch : BitVec 4) : Effect → Effect → Prop where
  | done {t t' : State} (h : Machine.AgreeOn ch t t') : Effect.AgreeOn ch (.done t) (.done t')
  | raised (k : Cause) : Effect.AgreeOn ch (.raised k) (.raised k)

variable {ch : BitVec 4} {s s' : State}

/-- Effects agree under one condition, which raises the same cause where it fails. -/
theorem Effect.AgreeOn.ite {p : Prop} [Decidable p] {e e' : Effect} (h : p → Effect.AgreeOn ch e e') (k : Cause) :
    Effect.AgreeOn ch (if p then e else .raised k) (if p then e' else .raised k) := by
  split
  · next hp => exact h hp
  · exact .raised k

namespace AgreeOn

/-- What a command reads of its state, but for its context, is the same. -/
theorem reads (h : AgreeOn ch s s') :
    s'.cfgValid = s.cfgValid ∧ s'.channels = s.channels ∧ s'.level = s.level ∧ s'.depth = s.depth ∧
      s'.argl = s.argl ∧ s'.wpos = s.wpos ∧ s'.rpos = s.rpos ∧ s'.readLimit = s.readLimit ∧ s'.buf = s.buf := by
  obtain ⟨⟨v, rfl⟩, -⟩ := h
  exact ⟨rfl, rfl, rfl, rfl, rfl, rfl, rfl, rfl, rfl⟩

theorem setCtx (h : AgreeOn ch s s') (x : Ctx) : AgreeOn ch (s.setCtx ch.toNat x) (s'.setCtx ch.toNat x) := by
  obtain ⟨⟨v, rfl⟩, hch⟩ := h
  refine ⟨⟨_, rfl⟩, ?_⟩
  rw [ctx_setCtx, ctx_setCtx, hch]

theorem withResult (h : AgreeOn ch s s') (r : Word) :
    AgreeOn ch { s with result := r } { s' with result := r } := by
  obtain ⟨⟨v, rfl⟩, hch⟩ := h
  exact ⟨⟨_, rfl⟩, hch⟩

theorem takenTo (h : AgreeOn ch s s') (p : Nat) : AgreeOn ch (takenTo s p) (takenTo s' p) := by
  obtain ⟨⟨v, rfl⟩, hch⟩ := h
  exact ⟨⟨_, rfl⟩, hch⟩

theorem stored (h : AgreeOn ch s s') (bits : List Bool) : AgreeOn ch (stored s bits) (stored s' bits) := by
  obtain ⟨⟨v, rfl⟩, hch⟩ := h
  exact ⟨⟨_, rfl⟩, hch⟩

theorem count (h : AgreeOn ch s s') : AgreeOn ch s.count s'.count := by
  obtain ⟨⟨v, rfl⟩, hch⟩ := h
  exact ⟨⟨_, rfl⟩, hch⟩

theorem recordError (h : AgreeOn ch s s') (k : Cause) (w : Word) :
    AgreeOn ch (s.recordError k w) (s'.recordError k w) := by
  obtain ⟨⟨v, rfl⟩, hch⟩ := h
  exact ⟨⟨_, rfl⟩, hch⟩

/-- A store has room in both states or in neither. -/
theorem store (h : AgreeOn ch s s') (bits : List Bool) : Effect.AgreeOn ch (s.store bits) (s'.store bits) := by
  obtain ⟨-, -, -, -, -, hwpos, -⟩ := h.reads
  rcases Nat.lt_or_ge Config.capBits (s.wpos.toNat + bits.length) with hroom | hroom
  · rw [store_noRoom s bits hroom, store_noRoom s' bits (hwpos.symm ▸ hroom)]
    exact .raised _
  · rw [store_fits s bits hroom, store_fits s' bits (hwpos.symm ▸ hroom)]
    exact .done (h.stored bits)

/-- What follows a read agrees when it does from every pair of states that agree. -/
theorem take (h : AgreeOn ch s s') (r : Taken) {body body' : State → Nat → Effect}
    (hb : ∀ t t' v, AgreeOn ch t t' → Effect.AgreeOn ch (body t v) (body' t' v)) :
    Effect.AgreeOn ch (s.take r body) (s'.take r body') := by
  cases r with
  | failed k => exact .raised k
  | got v p => exact hb _ _ v (h.takenTo p)

/-- The checks of shape C come out the same, and the command's own pseudocode is run on the same context. -/
theorem onContext (h : AgreeOn ch s s') {body body' : Ctx → Effect}
    (hb : ∀ c, Effect.AgreeOn ch (body c) (body' c)) :
    Effect.AgreeOn ch (onContext s ch body) (onContext s' ch body') := by
  obtain ⟨hcfg, hchannels, -⟩ := h.reads
  obtain ⟨-, hch⟩ := h
  rcases onContext_cases s ch body with ⟨hv, he⟩ | ⟨hv, hc, he⟩ | ⟨hv, hc, he⟩ <;> rw [he]
  · rw [onContext_unconfigured s' ch body' (hcfg.trans hv)]
    exact .raised _
  · rw [onContext_badChannel s' ch body' (hcfg.trans hv) (hchannels.symm ▸ hc)]
    exact .raised _
  · rw [onContext_opens s' ch body' (hcfg.trans hv) (hchannels.symm ▸ hc), hch]
    exact hb _

/-- Effects that agree end the command in states that agree. -/
theorem finish (h : AgreeOn ch s s') (i : Instr) {e e' : Effect} (he : Effect.AgreeOn ch e e') {t : State}
    (ht : finish i s e = .next t) : ∃ t', finish i s' e' = .next t' ∧ AgreeOn ch t t' := by
  cases he with
  | done hdone =>
    cases ht
    exact ⟨_, rfl, hdone.count⟩
  | raised k =>
    cases ht
    exact ⟨_, rfl, h.recordError k _⟩

/-- A shape-C command, run in states that agree on its channel, ends in states that agree on it. -/
theorem exec (h : AgreeOn ch s s') {i : Instr} (hi : channelOf i = some ch) {t : State}
    (ht : exec i s = .next t) : ∃ t', exec i s' = .next t' ∧ AgreeOn ch t t' := by
  obtain ⟨-, -, hlevel, hdepth, hargl, -, hrpos, hlimit, hbuf⟩ := h.reads
  cases i with
  | ecEnc _ =>
    cases hi
    simp only [Machine.exec, execEcEnc, hdepth, hargl] at ht ⊢
    exact h.finish _ (h.onContext fun _ => (h.setCtx _).store _) ht
  | ecDec _ =>
    cases hi
    simp only [Machine.exec, execEcDec, hdepth, hrpos, hlimit, hbuf] at ht ⊢
    refine h.finish _ (h.onContext fun _ => h.take _ fun _ _ _ hu => ?_) ht
    exact .done ((hu.setCtx _).withResult _)
  | ecReset _ =>
    cases hi
    simp only [Machine.exec, execEcReset, hdepth] at ht ⊢
    exact h.finish _ (h.onContext fun _ => .done (h.setCtx _)) ht
  | fcEnc _ =>
    cases hi
    simp only [Machine.exec, execFcEnc, hlevel, hdepth, hargl] at ht ⊢
    exact h.finish _ (h.onContext fun _ => .ite (fun _ => .done ((h.setCtx _).withResult _)) _) ht
  | fcDec _ =>
    cases hi
    simp only [Machine.exec, execFcDec, hlevel, hdepth, hargl] at ht ⊢
    exact h.finish _ (h.onContext fun _ => .ite (fun _ => .done ((h.setCtx _).withResult _)) _) ht
  | fcReset _ =>
    cases hi
    simp only [Machine.exec, execFcReset, hlevel] at ht ⊢
    exact h.finish _ (h.onContext fun _ => .done (h.setCtx _)) ht
  | smpEnc _ =>
    cases hi
    simp only [Machine.exec, execSmpEnc, hlevel, hdepth, hargl] at ht ⊢
    exact h.finish _ (h.onContext fun _ => .ite (fun _ => ((h.setCtx _).withResult _).store _) _) ht
  | smpDec _ =>
    cases hi
    simp only [Machine.exec, execSmpDec, hlevel, hdepth, hrpos, hlimit, hbuf] at ht ⊢
    refine h.finish _ (h.onContext fun _ => h.take _ fun _ _ _ hu => ?_) ht
    exact .ite (fun _ => .done ((hu.setCtx _).withResult _)) _
  | _ => cases hi

end AgreeOn

/-- Settles O10: the state with other contexts put in agrees with `s` on the command's channel. -/
theorem otherChannelsAreNotRead : Obligations.OtherChannelsAreNotRead := by
  intro i ch s t v hi hv ht
  have hagree : AgreeOn ch s { s with ctxs := v } := ⟨⟨v, rfl⟩, hv⟩
  obtain ⟨t', ht', ⟨w, rfl⟩, hch⟩ := hagree.exec hi ht
  exact ⟨_, ht', rfl, hch⟩

end Sys2Proof.Machine
end

section
/-! SUPPORT. The host's accesses of the registers while BUSY is 0 (spec/10_state.md R40 to R57): the step of a read and
of a write of each, the fields a register reads as, and the values after reset. -/

namespace Sys2Proof.Machine

variable {s : State}

/-! The step of a register access. -/

theorem coreReady_of_idle (hb : s.busy = false) : s.coreReady = false := by
  simp [State.coreReady, hb]

/-- While BUSY is 0 a write at a register's offset is the write of that register. -/
theorem step_writeReg {r : Reg} {v : Word} {rest : List HostOp} (hb : s.busy = false) (hr : s.resetInput = false)
    (h : s.host = .write .w32 r.offset v :: rest) :
    step s = .next (State.writeReg { s with host := rest, delay := s.delay - 1 } r v) := by
  rw [step_write s _ _ _ rest h (coreReady_of_idle hb) hr]
  simp [hostWrite, access_offset, hb]

/-- While BUSY is 0 a read at a register's offset answers that register. -/
theorem step_readReg {r : Reg} {rest : List HostOp} (hb : s.busy = false) (hr : s.resetInput = false)
    (h : s.host = .read .w32 r.offset :: rest) :
    step s = .next { s with host := rest, delay := s.delay - 1, answers := s.readReg r :: s.answers } := by
  have hread : State.readReg { s with host := rest, delay := s.delay - 1 } r = s.readReg r := by cases r <;> rfl
  rw [step_read s _ _ rest h (coreReady_of_idle hb) hr]
  simp [hostRead, access_offset, hb, ← hread, State.answer]

/-! The fields of the registers. -/

/-- A field of `n` bits, written from a word and read with zeros above, is the word's low `n` bits. -/
theorem setWidth_setWidth_eq_and (v : Word) (n : Nat) (hn : n ≤ 32) :
    (v.setWidth n).setWidth 32 = v &&& BitVec.ofNat 32 (2 ^ n - 1) := by
  have hmask : 2 ^ n - 1 < 2 ^ 32 := by
    have := Nat.pow_le_pow_right (n := 2) (by decide) hn
    omega
  apply BitVec.eq_of_toNat_eq
  rw [BitVec.toNat_setWidth_of_le hn, BitVec.toNat_setWidth, BitVec.toNat_and, BitVec.toNat_ofNat,
    Nat.mod_eq_of_lt hmask, Nat.and_two_pow_sub_one_eq_mod]

/-- Settles O53: the step is the write of the register, whose equation for each writable one sets its field alone. -/
theorem writableRegistersStoreTheirFields : Obligations.WritableRegistersStoreTheirFields := by
  intro s r v rest hb hr hhost
  have hlow20 := setWidth_setWidth_eq_and v 20 (by decide)
  have hlow4 := setWidth_setWidth_eq_and v 4 (by decide)
  refine ⟨_, step_writeReg hb hr hhost, ?_, ?_, ?_, ?_, ?_, ?_⟩ <;> rintro rfl
  · exact ⟨rfl, hlow20⟩
  · exact ⟨rfl, hlow20⟩
  · exact ⟨rfl, hlow20⟩
  · exact ⟨rfl, hlow4⟩
  · rfl
  · rfl

/-- The bits of STATUS: BUSY, CFG_VALID and ERR_PEND from bit 0 on, and zeros above (spec/10_state.md R41). -/
theorem status_getLsbD (s : State) (i : Nat) :
    s.status.getLsbD i =
      if i = 0 then s.busy else if i = 1 then s.cfgValid else if i = 2 then decide (s.err ≠ 0#9) else false := by
  have hpend : s.errPend = decide (s.err ≠ 0#9) := by simp [State.errPend, bne, BEq.beq]
  change (0#29 ++ BitVec.ofBool s.errPend ++ BitVec.ofBool s.cfgValid ++ BitVec.ofBool s.busy).getLsbD i = _
  rw [BitVec.getLsbD_append, BitVec.getLsbD_append, BitVec.getLsbD_append, hpend]
  match i with
  | 0 | 1 | 2 => simp
  | i + 3 => simp

/-- DBG_K and DBG_S of a context that is shown (spec/10_state.md R56, R57). -/
theorem readReg_dbg_shown (hv : s.cfgValid = true) (hsel : s.dbgSel.toNat < 8) :
    s.readReg .dbgK = (s.ctx s.dbgSel.toNat).K.setWidth 32 ∧
      s.readReg .dbgS = (s.ctx s.dbgSel.toNat).S.setWidth 32 := by
  have hctx : s.debugCtx = some (s.ctx s.dbgSel.toNat) := if_pos ⟨hv, hsel⟩
  simp [State.readReg, hctx]

/-- DBG_K and DBG_S without a context to show. -/
theorem readReg_dbg_hidden (h : s.cfgValid = false ∨ 8 ≤ s.dbgSel.toNat) :
    s.readReg .dbgK = 0#32 ∧ s.readReg .dbgS = 0#32 := by
  have hctx : s.debugCtx = none := by
    refine if_neg fun ⟨hv, hsel⟩ => ?_
    rcases h with h | h
    · exact Bool.noConfusion (hv.symm.trans h)
    · exact absurd hsel (Nat.not_lt.2 h)
  simp [State.readReg, hctx]

/-- Settles O54: the step is the read's, and each register reads its field with zeros above, or all its bits. -/
theorem registerReadsAnswerTheFields : Obligations.RegisterReadsAnswerTheFields := by
  intro s r rest
  have hstatus : ∀ i, 3 ≤ i → s.status.getLsbD i = false := fun i hi => by
    rw [status_getLsbD, if_neg (by omega), if_neg (by omega), if_neg (by omega)]
  have hshown : s.cfgValid = true ∧ s.dbgSel.toNat < 8 →
      (s.readReg .dbgK).toNat = (s.ctx s.dbgSel.toNat).K.toNat ∧
        (s.readReg .dbgS).toNat = (s.ctx s.dbgSel.toNat).S.toNat := fun ⟨hv, hsel⟩ => by
    obtain ⟨hK, hS⟩ := readReg_dbg_shown hv hsel
    rw [hK, hS]
    exact ⟨BitVec.toNat_setWidth_of_le (by decide), BitVec.toNat_setWidth_of_le (by decide)⟩
  exact ⟨step_readReg, rfl, status_getLsbD s 0, status_getLsbD s 1, status_getLsbD s 2, hstatus,
    BitVec.toNat_setWidth_of_le (by decide), BitVec.toNat_setWidth_of_le (by decide), rfl,
    BitVec.toNat_setWidth_of_le (by decide), BitVec.toNat_setWidth_of_le (by decide),
    BitVec.toNat_setWidth_of_le (by decide), BitVec.toNat_setWidth_of_le (by decide),
    BitVec.toNat_setWidth_of_le (by decide), rfl, rfl, rfl, rfl, rfl,
    BitVec.toNat_setWidth_of_le (by decide), hshown, readReg_dbg_hidden⟩

/-- Settles O46: each register is read in the reset state. -/
theorem resetRegistersHoldTheirValues : Obligations.ResetRegistersHoldTheirValues := by
  refine ⟨fun r => ?_, rfl, rfl, rfl⟩
  cases r <;> rfl

end Sys2Proof.Machine
end

section
/-! SUPPORT. Which commands move which cursor, and how far (spec/20_memory.md R93, spec/41_bitio.md R150, R160). -/

namespace Sys2Proof.Machine

variable {i : Instr} {s t : State}

/-- The commands on the write side of the bit space (spec/20_memory.md R93). -/
def isWriter : Instr → Bool
  | .bwBits _ | .bwUnary | .bwFlush | .ecEnc _ | .smpEnc _ => true
  | _ => false

/-- The commands on the read side of the bit space (spec/20_memory.md R93). -/
def isReader : Instr → Bool
  | .brBits _ | .brSbits _ | .brUnary | .brAlign | .ecDec _ | .smpDec _ => true
  | _ => false

theorem isWriter_eq_false (hbits : ∀ n, i ≠ .bwBits n) (hunary : i ≠ .bwUnary) (hflush : i ≠ .bwFlush)
    (hec : ∀ c, i ≠ .ecEnc c) (hsmp : ∀ c, i ≠ .smpEnc c) : isWriter i = false := by
  cases i with
  | bwBits n => exact absurd rfl (hbits n)
  | bwUnary => exact absurd rfl hunary
  | bwFlush => exact absurd rfl hflush
  | ecEnc c => exact absurd rfl (hec c)
  | smpEnc c => exact absurd rfl (hsmp c)
  | _ => rfl

theorem isReader_eq_false (hbits : ∀ n, i ≠ .brBits n) (hsbits : ∀ n, i ≠ .brSbits n) (hunary : i ≠ .brUnary)
    (halign : i ≠ .brAlign) (hec : ∀ c, i ≠ .ecDec c) (hsmp : ∀ c, i ≠ .smpDec c) : isReader i = false := by
  cases i with
  | brBits n => exact absurd rfl (hbits n)
  | brSbits n => exact absurd rfl (hsbits n)
  | brUnary => exact absurd rfl hunary
  | brAlign => exact absurd rfl halign
  | ecDec c => exact absurd rfl (hec c)
  | smpDec c => exact absurd rfl (hsmp c)
  | _ => rfl

/-- Bits that fit leave WPOS within the buffer. -/
theorem stored_wpos_le {bits : List Bool} (h : hasRoom s bits) : (stored s bits).wpos.toNat ≤ Config.capBits :=
  Nat.le_trans (Nat.mod_le _ _) h

/-- A read that ends at a place it can reach leaves RPOS where it was, or within the read limit. -/
theorem takenTo_rpos {p : Nat} (h : reaches s p) :
    (takenTo s p).rpos = s.rpos ∨ (takenTo s p).rpos.toNat ≤ s.readLimit := by
  obtain ⟨-, rfl | hp⟩ := h
  · exact .inl ((BitVec.ofNat_toNat _ _).trans (BitVec.setWidth_eq _))
  · exact .inr (Nat.le_trans (Nat.mod_le _ _) hp)

/-- A command that is not on the write side keeps WPOS and the buffer. -/
theorem Completes.writeSide_kept (h : Completes s i t) (hi : i ≠ .softReset) (hw : isWriter i = false) :
    t.wpos = s.wpos ∧ t.buf = s.buf := by
  cases h with
  | softReset => exact absurd rfl hi
  | bwBits | bwUnary | bwFlush | ecEnc | smpEnc => cases hw
  | _ => exact ⟨rfl, rfl⟩

/-- A command on the write side leaves WPOS within the buffer (spec/41_bitio.md R160). -/
theorem Completes.wpos_le (h : Completes s i t) (hw : isWriter i = true) : t.wpos.toNat ≤ Config.capBits := by
  cases h with
  | bwBits _ _ hroom | bwUnary _ hroom | bwFlush _ hroom => exact stored_wpos_le hroom
  | ecEnc _ _ _ _ hroom | smpEnc _ _ _ _ _ _ hroom => exact stored_wpos_le hroom
  | _ => cases hw

/-- A command that is not on the read side keeps RPOS. -/
theorem Completes.rpos_kept (h : Completes s i t) (hi : i ≠ .softReset) (hr : isReader i = false) :
    t.rpos = s.rpos := by
  cases h with
  | softReset => exact absurd rfl hi
  | brBits | brSbits | brUnary | brAlign | ecDec | smpDec => cases hr
  | _ => rfl

/-- A command on the read side leaves RPOS where it was, or within the read limit (spec/41_bitio.md R160). -/
theorem Completes.rpos_le (h : Completes s i t) (hr : isReader i = true) :
    t.rpos = s.rpos ∨ t.rpos.toNat ≤ s.readLimit := by
  cases h with
  | brBits _ _ _ hp | brSbits _ _ _ hp | brUnary _ _ hp | brAlign _ hp => exact takenTo_rpos hp
  | ecDec _ _ _ _ _ hp | smpDec _ _ _ _ _ _ hp => exact takenTo_rpos hp
  | _ => cases hr

/-- Settles O8: a raise keeps both cursors and the buffer; a command that completes is on the side of the cursor it
moved, and so within that side's bound. -/
theorem cursorsMoveOnTheirOwnSide : Obligations.CursorsMoveOnTheirOwnSide := by
  intro i s t hi he
  rcases exec_next i s t he with ⟨k, rfl⟩ | hc
  · exact ⟨fun _ _ _ _ _ => ⟨rfl, rfl⟩, fun _ _ _ _ _ _ => rfl, fun hne => absurd rfl hne,
      fun hne => absurd rfl hne⟩
  · refine ⟨fun hbits hunary hflush hec hsmp => ?_, fun hbits hsbits hunary halign hec hsmp => ?_, fun hne => ?_,
      fun hne => ?_⟩
    · exact hc.writeSide_kept hi (isWriter_eq_false hbits hunary hflush hec hsmp)
    · exact hc.rpos_kept hi (isReader_eq_false hbits hsbits hunary halign hec hsmp)
    · cases hw : isWriter i with
      | true => exact hc.wpos_le hw
      | false =>
        obtain ⟨hwpos, -⟩ := hc.writeSide_kept hi hw
        exact absurd hwpos hne
    · cases hr : isReader i with
      | true => exact (hc.rpos_le hr).resolve_left hne
      | false => exact absurd (hc.rpos_kept hi hr) hne

end Sys2Proof.Machine
end

section
/-! SUPPORT. The host's accesses of the window (spec/20_memory.md R82 to R85, R99 to R101): which region an access
reaches, and what the step of an access of each region is, while BUSY is 1 and while it is 0. -/

namespace Sys2Proof.Machine

variable {s : State} {width : Width} {offset : Nat} {v : Word} {rest : List HostOp}

/-- An access that has a meaning (spec/20_memory.md R83, R85, R101): an aligned 32-bit access of the register region,
or a naturally aligned access of the buffer region. -/
def wellPlaced (width : Width) (offset : Nat) : Prop :=
  (width = .w32 ∧ offset < 0x10000 ∧ offset % 4 = 0) ∨
    (0x10000 ≤ offset ∧ offset < 0x20000 ∧ offset % width.bytes = 0)

/-- A well-placed access reaches a register at its offset, an unmapped offset, or the buffer. -/
theorem access_cases (h : wellPlaced width offset) :
    (∃ r : Reg, r.offset = offset ∧ access width offset = .reg r) ∨
      (offset < 0x10000 ∧ 0x048 ≤ offset ∧ access width offset = .unmapped) ∨
        (0x10000 ≤ offset ∧ access width offset = .buffer (offset - 0x10000)) := by
  rcases h with ⟨rfl, hlt, h4⟩ | ⟨hge, hlt, ha⟩
  · rcases Nat.lt_or_ge 0x044 offset with hhigh | hlow
    · have habove : 0x048 ≤ offset := by omega
      exact .inr (.inl ⟨hlt, habove, access_unmapped offset habove hlt h4⟩)
    · obtain ⟨r, rfl⟩ := access_register offset hlow h4
      exact .inl ⟨r, rfl, access_offset r⟩
  · exact .inr (.inr ⟨hge, access_buffer width offset hge hlt ha⟩)

/-! The refusals, and that there are no others. -/

/-- An access that the address map refuses is refused, a read and a write alike. -/
theorem step_access_refused {why : Refusal} (hnext : s.hostNext)
    (h : s.host = .read width offset :: rest ∨ s.host = .write width offset v :: rest)
    (hacc : access width offset = .refused why) : step s = .refused why := by
  obtain ⟨hcore, hreset⟩ := hnext
  rcases h with h | h
  · rw [step_read s _ _ rest h hcore hreset, hostRead, hacc]
  · rw [step_write s _ _ _ rest h hcore hreset, hostWrite, hacc]

/-- A read that the address map does not refuse has a next state. -/
theorem hostRead_is_next (s : State) (h : wellPlaced width offset) : ∃ t, hostRead width offset s = .next t := by
  rcases access_cases h with ⟨r, -, hacc⟩ | ⟨-, -, hacc⟩ | ⟨-, hacc⟩ <;> simp only [hostRead, hacc]
  · split <;> exact ⟨_, rfl⟩
  · exact ⟨_, rfl⟩
  · split <;> exact ⟨_, rfl⟩

/-- A write that the address map does not refuse has a next state. -/
theorem hostWrite_is_next (s : State) (v : Word) (h : wellPlaced width offset) :
    ∃ t, hostWrite width offset v s = .next t := by
  rcases access_cases h with ⟨r, -, hacc⟩ | ⟨-, -, hacc⟩ | ⟨-, hacc⟩ <;> simp only [hostWrite, hacc]
  · split
    · split <;> exact ⟨_, rfl⟩
    · exact ⟨_, rfl⟩
  · exact ⟨_, rfl⟩
  · split <;> exact ⟨_, rfl⟩

/-- Settles O51: each bad access is refused by the address map, and every well-placed one has a meaning. -/
theorem badAccessesAreRefused : Obligations.BadAccessesAreRefused := by
  intro s width offset v rest hnext h
  refine ⟨fun hlt hbad => ?_, fun hge hlt hbad => ?_, fun hge => ?_, fun hplaced => ?_⟩
  · exact step_access_refused hnext h (access_registerBusError width offset hlt hbad)
  · exact step_access_refused hnext h (access_bufferBusError width offset hge hlt hbad)
  · exact step_access_refused hnext h (access_outside width offset hge)
  · obtain ⟨hcore, hreset⟩ := hnext
    rcases h with h | h
    · rw [step_read s _ _ rest h hcore hreset]
      exact hostRead_is_next _ hplaced
    · rw [step_write s _ _ _ rest h hcore hreset]
      exact hostWrite_is_next _ v hplaced

/-! Unmapped offsets, busy or not (spec/20_memory.md R84, R99). -/

theorem step_read_unmapped (hnext : s.hostNext) (h : s.host = .read width offset :: rest)
    (hacc : access width offset = .unmapped) :
    step s = .next { s with host := rest, delay := s.delay - 1, answers := 0#32 :: s.answers } := by
  obtain ⟨hcore, hreset⟩ := hnext
  rw [step_read s _ _ rest h hcore hreset, hostRead, hacc]
  rfl

theorem step_write_unmapped (hnext : s.hostNext) (h : s.host = .write width offset v :: rest)
    (hacc : access width offset = .unmapped) : step s = .next { s with host := rest, delay := s.delay - 1 } := by
  obtain ⟨hcore, hreset⟩ := hnext
  rw [step_write s _ _ _ rest h hcore hreset, hostWrite, hacc]

/-! The registers that ignore writes (spec/10_state.md R35). -/

def readOnlyRegs : List Reg :=
  [.id, .status, .err, .cause, .frameWpos, .frameRpos, .cmdCount, .result, .active, .dbgK, .dbgS]

theorem writeReg_readOnly (s : State) {r : Reg} (v : Word) (hr : r ∈ readOnlyRegs) : s.writeReg r v = s := by
  cases r with
  | cmd | wpos | rpos | rlimit | arg0 | config | dbgSel => exact absurd hr (by decide)
  | _ => rfl

/-- Settles O52: the access reaches no register, or CMD, or a read-only register. -/
theorem unmappedAndReadOnlyIgnoreWrites : Obligations.UnmappedAndReadOnlyIgnoreWrites := by
  intro s offset v rest hnext h4
  have hunmapped : 0x048 ≤ offset ∧ offset ≤ 0xFFFC → access .w32 offset = .unmapped := fun ⟨hge, hle⟩ =>
    access_unmapped offset hge (by omega) h4
  have ⟨_, hreset⟩ := hnext
  refine ⟨fun h hoff => ?_, fun h hoff => ?_⟩
  · rcases hoff with hoff | ⟨rfl, hidle⟩
    · exact step_read_unmapped hnext h (hunmapped hoff)
    · exact step_readReg (r := .cmd) hidle hreset h
  · rcases hoff with hoff | ⟨hmem, hidle⟩
    · exact step_write_unmapped hnext h (hunmapped hoff)
    · obtain ⟨r, hr, rfl⟩ : ∃ r ∈ readOnlyRegs, r.offset = offset := List.mem_map.1 hmem
      rw [step_writeReg hidle hreset h, writeReg_readOnly _ v hr]

/-! Accesses while BUSY is 1 (spec/20_memory.md R99, R100). -/

theorem step_write_arg0_busy (hb : s.busy = true) (hnext : s.hostNext)
    (h : s.host = .write .w32 Reg.arg0.offset v :: rest) :
    step s = .next { s with host := rest, delay := s.delay - 1, arg0 := v } := by
  obtain ⟨hcore, hreset⟩ := hnext
  rw [step_write s _ _ _ rest h hcore hreset, hostWrite, access_offset]
  simp [hb]

/-- While BUSY is 1 a write of a register other than ARG0 is discarded with OVERRUN. -/
theorem step_write_reg_busy {r : Reg} (hb : s.busy = true) (hnext : s.hostNext) (hr : r ≠ .arg0)
    (h : s.host = .write .w32 r.offset v :: rest) :
    step s = .next (State.overrun { s with host := rest, delay := s.delay - 1 }) := by
  obtain ⟨hcore, hreset⟩ := hnext
  rw [step_write s _ _ _ rest h hcore hreset, hostWrite, access_offset]
  simp [hb, hr]

/-- While BUSY is 1 a write of the buffer is discarded with OVERRUN. -/
theorem step_write_buffer_busy {a : Nat} (hb : s.busy = true) (hnext : s.hostNext)
    (h : s.host = .write width offset v :: rest) (hacc : access width offset = .buffer a) :
    step s = .next (State.overrun { s with host := rest, delay := s.delay - 1 }) := by
  obtain ⟨hcore, hreset⟩ := hnext
  rw [step_write s _ _ _ rest h hcore hreset, hostWrite, hacc]
  simp [hb]

/-- Settles O49, by what the write reaches: ARG0, another register, the buffer, or no register. -/
theorem busyWritesOverrun : Obligations.BusyWritesOverrun := by
  intro s width offset v rest hb hnext h
  refine ⟨?_, ?_, ?_⟩
  · rintro rfl rfl
    exact step_write_arg0_busy hb hnext h
  · rintro (⟨rfl, hle, h4, hne⟩ | ⟨hge, hlt, ha⟩)
    · obtain ⟨r, rfl⟩ := access_register offset hle h4
      exact step_write_reg_busy hb hnext (fun hr => hne (congrArg Reg.offset hr)) h
    · exact step_write_buffer_busy hb hnext h (access_buffer width offset hge hlt ha)
  · rintro rfl hge hlt h4
    exact step_write_unmapped hnext h (access_unmapped offset hge hlt h4)

theorem step_read_reg_busy {r : Reg} (hb : s.busy = true) (hnext : s.hostNext)
    (h : s.host = .read width offset :: rest) (hacc : access width offset = .reg r) :
    step s = .next (State.busyReadReg { s with host := rest, delay := s.delay - 1 } r) := by
  obtain ⟨hcore, hreset⟩ := hnext
  rw [step_read s _ _ rest h hcore hreset, hostRead, hacc]
  simp [hb]

/-- While BUSY is 1 a read of the buffer answers a free value of its width. -/
theorem step_read_buffer_busy {a : Nat} (hb : s.busy = true) (hnext : s.hostNext)
    (h : s.host = .read width offset :: rest) (hacc : access width offset = .buffer a) :
    step s = .next { s with
      host := rest
      delay := s.delay - 1
      answers := width.low (Config.busyRead s.draws) :: s.answers
      draws := s.draws + 1 } := by
  obtain ⟨hcore, hreset⟩ := hnext
  rw [step_read s _ _ rest h hcore hreset, hostRead, hacc]
  simp [hb, State.answer]

/-- A register read while BUSY is 1 adds one answer and at most a draw; ID, ARG0 and STATUS.BUSY answer their values
(spec/20_memory.md R100). -/
theorem busyReadReg_eq (s : State) (r : Reg) :
    ∃ v n, s.busyReadReg r = { s with answers := v :: s.answers, draws := n } ∧
      (r = .id → v = Config.idValue) ∧ (r = .arg0 → v = s.arg0) ∧ (r = .status → v.getLsbD 0 = true) := by
  cases r with
  | id => exact ⟨_, _, rfl, fun _ => rfl, nofun, nofun⟩
  | arg0 => exact ⟨_, _, rfl, nofun, fun _ => rfl, nofun⟩
  | status => exact ⟨_, _, rfl, nofun, nofun, fun _ => by simp⟩
  | _ => exact ⟨_, _, rfl, nofun, nofun, nofun⟩

/-- A register is the only one at its offset (spec/10_state.md R35). -/
theorem Reg.offset_inj {r r' : Reg} (h : r.offset = r'.offset) : r = r' := by
  have hacc : Access.reg r = .reg r' := by rw [← access_offset, ← access_offset, h]
  cases hacc
  rfl

/-- Settles O50, by what the read reaches; only in the register region does an offset name ID, ARG0 or STATUS. -/
theorem busyReadsDoNotDisturb : Obligations.BusyReadsDoNotDisturb := by
  intro s width offset rest hb hnext h hplaced
  rcases access_cases hplaced with ⟨r, rfl, hacc⟩ | ⟨-, hge, hacc⟩ | ⟨hge, hacc⟩
  · obtain ⟨v, n, hread, hid, harg0, hstatus⟩ :=
      busyReadReg_eq { s with host := rest, delay := s.delay - 1 } r
    refine ⟨v, n, ?_, fun ho => hid (Reg.offset_inj ho), fun ho => harg0 (Reg.offset_inj ho),
      fun ho => hstatus (Reg.offset_inj ho)⟩
    rw [step_read_reg_busy hb hnext h hacc, hread]
  · exact ⟨_, s.draws, step_read_unmapped hnext h hacc, by omega, by omega, by omega⟩
  · exact ⟨_, _, step_read_buffer_busy hb hnext h hacc, by omega, by omega, by omega⟩

end Sys2Proof.Machine
end

section
/-! SUPPORT. The bytes of the buffer as the host sees them and the bits of the bit space, tied to each other
(spec/20_memory.md R86 to R90, R95). -/

namespace Sys2Proof.Machine

variable {s : State} {width : Width} {a : Nat} {v : Word} {rest : List HostOp}

/-- The bits of a byte in rising order, most significant first (spec/20_memory.md R86, R90). -/
theorem bitRead_byte (m : List Host.Cell) (a j : Nat) (hj : j < 8) :
    bitRead m (8 * a + j) = (readByte m a).getLsbD (7 - j) := by
  rw [bitRead, show (8 * a + j) / 8 = a by omega, show (8 * a + j) % 8 = j by omega]

/-- The byte of a bit after the bit is written: that bit set, the others as before (spec/20_memory.md R90). -/
theorem readByte_bitWrite_self (m : List Host.Cell) (p : Nat) (b : Bool) (hp : p < Config.capBits) :
    readByte (bitWrite m p b) (p / 8) = setBit (readByte m (p / 8)) (7 - p % 8) b := by
  have ha : p / 8 < Config.bufBytes := by simp only [Config.capBits, Config.bufBytes] at *; omega
  rw [bitWrite, readByte_writeByte, if_pos ⟨rfl, ha⟩]

/-- Settles O57: BitWrite puts its byte back with one bit set, and `setBit` sets that bit alone. -/
theorem bitsLieMostSignificantFirst : Obligations.BitsLieMostSignificantFirst := by
  intro m p hp
  refine ⟨rfl, fun b => ⟨fun j hj => ?_, fun a ha => readByte_bitWrite_ne m p a b ha⟩⟩
  rw [readByte_bitWrite_self m p b hp, getLsbD_setBit _ _ _ _ (by omega) hj]

/-! The bytes of a little-endian value. -/

/-- Byte `i` of a host write is bits `8 i` to `8 i + 7` of the value. -/
theorem readByte_memWrite_byte (m : List Host.Cell) {a n i : Nat} (v : Word) (h : a + n ≤ Config.bufBytes)
    (hi : i < n) : readByte (memWrite m a n v.toNat) (a + i) = v.extractLsb' (8 * i) 8 := by
  rw [readByte_memWrite n m a _ _ h, if_pos (by omega), Nat.add_sub_cancel_left]
  apply BitVec.eq_of_toNat_eq
  rw [BitVec.extractLsb'_toNat, BitVec.toNat_ofNat, Nat.shiftRight_eq_div_pow, pow_mul, show 2 ^ 8 = 256 by rfl]

/-- MemRead composes the bytes with weights rising by eight bits (spec/20_memory.md R87, R95). -/
theorem memRead_eq_sum (m : List Host.Cell) (a n : Nat) :
    memRead m a n = (Finset.range n).sum fun i => (readByte m (a + i)).toNat * 2 ^ (8 * i) := by
  induction n generalizing a with
  | zero => rfl
  | succ n ih =>
    rw [memRead, ih, Finset.sum_range_succ', Finset.mul_sum, Nat.add_comm]
    congr 1
    · refine Finset.sum_congr rfl fun i _ => ?_
      rw [show a + 1 + i = a + (i + 1) by omega, show 8 * (i + 1) = 8 * i + 8 by omega, pow_add]
      ring
    · simp

/-- MemRead of `n` bytes is below `2^(8 n)`. -/
theorem memRead_lt (m : List Host.Cell) (a n : Nat) : memRead m a n < 2 ^ (8 * n) := by
  induction n generalizing a with
  | zero => simp [memRead]
  | succ n ih =>
    have hbyte := (readByte m a).isLt
    have hrest := ih (a + 1)
    rw [memRead, show 8 * (n + 1) = 8 * n + 8 by omega, pow_add]
    omega

/-- Bit `8 i + k` of MemRead is bit `k` of byte `i`. -/
theorem testBit_memRead (m : List Host.Cell) {a n i k : Nat} (hi : i < n) (hk : k < 8) :
    (memRead m a n).testBit (8 * i + k) = (readByte m (a + i)).getLsbD k := by
  induction n generalizing a i with
  | zero => omega
  | succ n ih =>
    rw [memRead, Nat.add_comm, Nat.testBit_two_pow_mul_add (i := 8) _ (readByte m a).isLt]
    cases i with
    | zero => simp [hk, BitVec.getLsbD]
    | succ i =>
      rw [if_neg (by omega), show 8 * (i + 1) + k - 8 = 8 * i + k by omega, ih (by omega),
        show a + 1 + i = a + (i + 1) by omega]

/-! The step of a buffer access while BUSY is 0. -/

theorem Width.bytes_le (width : Width) : 1 ≤ width.bytes ∧ width.bytes ≤ 4 := by cases width <;> decide

/-- A naturally aligned buffer address, as an access of the window (spec/20_memory.md R85). -/
theorem access_bufferBase_add (h : a + width.bytes ≤ 65536) (ha : a % width.bytes = 0) :
    access width (0x10000 + a) = .buffer a := by
  obtain ⟨hpos, -⟩ := width.bytes_le
  have halign : (0x10000 + a) % width.bytes = 0 := by cases width <;> simp only [Width.bytes] at ha ⊢ <;> omega
  rw [access_buffer width _ (by omega) (by omega) halign, Nat.add_sub_cancel_left]

theorem step_write_buffer (hb : s.busy = false) (hr : s.resetInput = false)
    (hacc : access width (0x10000 + a) = .buffer a) (h : s.host = .write width (0x10000 + a) v :: rest) :
    step s = .next { s with
      host := rest, delay := s.delay - 1, buf := memWrite s.buf a width.bytes v.toNat } := by
  rw [step_write s _ _ _ rest h (coreReady_of_idle hb) hr, hostWrite, hacc]
  simp [hb]

theorem step_read_buffer (hb : s.busy = false) (hr : s.resetInput = false)
    (hacc : access width (0x10000 + a) = .buffer a) (h : s.host = .read width (0x10000 + a) :: rest) :
    step s = .next { s with
      host := rest
      delay := s.delay - 1
      answers := BitVec.ofNat 32 (memRead s.buf a width.bytes) :: s.answers } := by
  rw [step_read s _ _ rest h (coreReady_of_idle hb) hr, hostRead, hacc]
  simp [hb, State.answer]

/-- Settles O55: the write is MemWrite, whose byte `i` is bits `8 i` on of the value; the read is MemRead, which is
the sum of the bytes with their weights and fits a word. -/
theorem bufferAccessesAreLittleEndian : Obligations.BufferAccessesAreLittleEndian := by
  intro s width a v rest hb hr hend halign
  have hacc := access_bufferBase_add hend halign
  obtain ⟨-, hfour⟩ := width.bytes_le
  constructor
  · intro h
    have hbyte : ∀ i, i < width.bytes →
        readByte (memWrite s.buf a width.bytes v.toNat) (a + i) = v.extractLsb' (8 * i) 8 := fun i hi =>
      readByte_memWrite_byte s.buf v hend hi
    refine ⟨_, step_write_buffer hb hr hacc h, fun i hi => ?_, fun i j hi hj => ?_, fun x hx => ?_⟩
    · rw [hbyte i hi, BitVec.extractLsb'_toNat, Nat.shiftRight_eq_div_pow]
    · rw [bitRead_byte _ _ _ hj, hbyte i hi, BitVec.getLsbD_extractLsb', decide_eq_true (by omega), Bool.true_and]
    · rw [readByte_memWrite _ _ _ _ _ hend, if_neg (by omega)]
  · intro h
    refine ⟨_, step_read_buffer hb hr hacc h, ?_, fun i j hi hj => ?_⟩
    · have hword : memRead s.buf a width.bytes < 2 ^ 32 :=
        Nat.lt_of_lt_of_le (memRead_lt _ _ _) (Nat.pow_le_pow_right (by decide) (by omega))
      rw [BitVec.toNat_ofNat, Nat.mod_eq_of_lt hword, memRead_eq_sum]
    · rw [BitVec.getLsbD_ofNat, testBit_memRead _ hi (by omega), bitRead_byte _ _ _ hj,
        decide_eq_true (by omega), Bool.true_and]

end Sys2Proof.Machine
end

section
/-! SUPPORT. What decoding asks of a word, row by row of the opcode map (spec/30_encoding.md R122, R124 to R128), and
from it the round trip and the core's step of an illegal word. -/

namespace Sys2Proof

/-! What a row of the opcode map asks of a word, and the command it then reads. -/

/-- RSV and each field that the row's shape leaves unused are 0 (R126). -/
def Row.unusedZero : Row → Word → Prop
  | .shapeZ _, w => rsvField w = 0#14 ∧ chField w = 0#4 ∧ nField w = 0#6
  | .shapeW _, w => rsvField w = 0#14 ∧ chField w = 0#4
  | .shapeC _, w => rsvField w = 0#14 ∧ nField w = 0#6

/-- In shape W, N is at most 32 (R127). -/
def Row.inRange : Row → Word → Prop
  | .shapeZ _, _ => True
  | .shapeW _, w => (nField w).toNat ≤ 32
  | .shapeC _, _ => True

/-- The command of the row, with the field that its shape uses (R122). -/
def Row.instr : Row → Word → Instr
  | .shapeZ i, _ => i
  | .shapeW mk, w => mk (nField w)
  | .shapeC mk, w => mk (chField w)

theorem Row.rsvField_of_unusedZero {r : Row} {w : Word} (h : r.unusedZero w) : rsvField w = 0#14 := by
  cases r <;> exact h.1

/-! The decoder, one equation per outcome (R125 to R128). -/

section
variable {w : Word} {r : Row}

theorem decode_reservedOp (hrow : opcodeRow (opField w).toNat = none) : decode w = .illegal .opcode := by
  simp [decode, hrow]

theorem decode_unusedField (hrow : opcodeRow (opField w).toNat = some r) (hz : ¬ r.unusedZero w) :
    decode w = .illegal .reservedField := by
  cases r <;> simp only [decode, hrow] <;> exact if_neg hz

theorem decode_outOfRange (hrow : opcodeRow (opField w).toNat = some r) (hz : r.unusedZero w) (hn : ¬ r.inRange w) :
    decode w = .illegal .operand := by
  cases r with
  | shapeW mk => simp only [decode, hrow]; exact (if_pos hz).trans (if_neg hn)
  | shapeZ i => exact absurd trivial hn
  | shapeC mk => exact absurd trivial hn

theorem decode_legal (hrow : opcodeRow (opField w).toNat = some r) (hz : r.unusedZero w) (hn : r.inRange w) :
    decode w = .cmd (r.instr w) := by
  cases r with
  | shapeW mk => simp only [decode, hrow]; exact (if_pos hz).trans (if_pos hn)
  | shapeZ i => simp only [decode, hrow]; exact if_pos hz
  | shapeC mk => simp only [decode, hrow]; exact if_pos hz

/-- The words that decode to a command (R128). -/
theorem decode_eq_cmd_iff {i : Instr} :
    decode w = .cmd i ↔
      ∃ r, opcodeRow (opField w).toNat = some r ∧ r.unusedZero w ∧ r.inRange w ∧ r.instr w = i := by
  constructor
  · intro h
    cases hrow : opcodeRow (opField w).toNat with
    | none => rw [decode_reservedOp hrow] at h; cases h
    | some r =>
      by_cases hz : r.unusedZero w
      · by_cases hn : r.inRange w
        · rw [decode_legal hrow hz hn] at h
          exact ⟨r, rfl, hz, hn, Decoded.cmd.inj h⟩
        · rw [decode_outOfRange hrow hz hn] at h; cases h
      · rw [decode_unusedField hrow hz] at h; cases h
  · rintro ⟨r, hrow, hz, hn, rfl⟩
    exact decode_legal hrow hz hn

end

/-! The opcode map and the encoder are inverse to each other (R124). -/

/-- Every command has a row, at the OP of its own word, that reads the command back from that word. -/
theorem exists_row_of_encode (i : Instr) :
    ∃ r, opcodeRow (opField (encode i)).toNat = some r ∧ r.unusedZero (encode i) ∧
      (i.wellFormed = true → r.inRange (encode i)) ∧ r.instr (encode i) = i := by
  cases i with
  | bwBits n | brBits n | brSbits n =>
    exact ⟨.shapeW _, by rw [encode, opField_packWord]; rfl,
      by simp [encode, Row.unusedZero], by simp [encode, Row.inRange, Instr.wellFormed], by simp [encode, Row.instr]⟩
  | ecEnc ch | ecDec ch | ecReset ch | fcEnc ch | fcDec ch | fcReset ch | smpEnc ch | smpDec ch =>
    exact ⟨.shapeC _, by rw [encode, opField_packWord]; rfl,
      by simp [encode, Row.unusedZero], fun _ => trivial, by simp [encode, Row.instr]⟩
  | nop | softReset | clrErr | bwUnary | brUnary | bwFlush | brAlign | frameStart =>
    exact ⟨.shapeZ _, by rw [encode, opField_packWord]; rfl,
      by simp [encode, Row.unusedZero], fun _ => trivial, rfl⟩

/-- What a row at opcode `op` holds: an opcode of the row's shape, and the commands whose words have that OP and the
field of the shape; they are well-formed when N is in range. -/
def Row.fitsOp (op : Nat) : Row → Prop
  | .shapeZ i => op ∈ Machine.shapeZOps ∧ i.wellFormed = true ∧ encode i = packWord (.ofNat 8 op) 0#4 0#6
  | .shapeW mk => op ∈ Machine.shapeWOps ∧ ∀ n,
      ((mk n).wellFormed = true ↔ n.toNat ≤ 32) ∧ encode (mk n) = packWord (.ofNat 8 op) 0#4 n
  | .shapeC mk => op ∈ Machine.shapeCOps ∧ ∀ ch,
      (mk ch).wellFormed = true ∧ encode (mk ch) = packWord (.ofNat 8 op) ch 0#6

theorem opcodeRow_fitsOp {op : Nat} {r : Row} (h : opcodeRow op = some r) : r.fitsOp op := by
  unfold opcodeRow at h
  split at h <;> cases h <;>
    simp [Row.fitsOp, Machine.shapeZOps, Machine.shapeWOps, Machine.shapeCOps, Instr.wellFormed, encode]

/-- The command that a row reads from a legal word is well-formed, and the word is its encoding. -/
theorem encode_instr {w : Word} {r : Row} (hrow : opcodeRow (opField w).toNat = some r) (hz : r.unusedZero w)
    (hn : r.inRange w) : (r.instr w).wellFormed = true ∧ encode (r.instr w) = w := by
  have hfits := opcodeRow_fitsOp hrow
  have hop : BitVec.ofNat 8 (opField w).toNat = opField w := by simp
  have hword := packWord_fields w (Row.rsvField_of_unusedZero hz)
  cases r with
  | shapeZ i =>
    obtain ⟨-, hwf, henc⟩ := hfits
    obtain ⟨-, hch, hN⟩ := hz
    rw [hop, ← hch, ← hN, hword] at henc
    exact ⟨hwf, henc⟩
  | shapeW mk =>
    obtain ⟨-, hfits⟩ := hfits
    obtain ⟨hwf, henc⟩ := hfits (nField w)
    obtain ⟨-, hch⟩ := hz
    rw [hop, ← hch, hword] at henc
    exact ⟨hwf.2 hn, henc⟩
  | shapeC mk =>
    obtain ⟨-, hfits⟩ := hfits
    obtain ⟨hwf, henc⟩ := hfits (chField w)
    obtain ⟨-, hN⟩ := hz
    rw [hop, ← hN, hword] at henc
    exact ⟨hwf, henc⟩

theorem decode_encode (i : Instr) (h : i.wellFormed = true) : decode (encode i) = .cmd i := by
  obtain ⟨r, hrow, hz, hn, hi⟩ := exists_row_of_encode i
  exact decode_eq_cmd_iff.2 ⟨r, hrow, hz, hn h, hi⟩

/-- Settles O2: a word decodes to a command exactly when its row accepts it; the row of a command accepts the
command's word, and a word that a row accepts is the word of the command read. -/
theorem decodeAndEncodeAgree : Obligations.DecodeAndEncodeAgree := by
  refine ⟨decode_encode, fun w i h => ?_⟩
  obtain ⟨r, hrow, hz, hn, rfl⟩ := decode_eq_cmd_iff.1 h
  exact encode_instr hrow hz hn

/-! The lists of opcodes by shape are the rows of the opcode map (R122, R124). -/

section
open Machine
variable {op : Nat}

theorem mem_shapeZOps_iff : op ∈ shapeZOps ↔ ∃ i, opcodeRow op = some (.shapeZ i) := by
  refine ⟨?_, fun ⟨_, h⟩ => (opcodeRow_fitsOp h).1⟩
  revert op
  simp [shapeZOps, opcodeRow]

theorem mem_shapeWOps_iff : op ∈ shapeWOps ↔ ∃ mk, opcodeRow op = some (.shapeW mk) := by
  refine ⟨?_, fun ⟨_, h⟩ => (opcodeRow_fitsOp h).1⟩
  revert op
  simp [shapeWOps, opcodeRow]

theorem mem_shapeCOps_iff : op ∈ shapeCOps ↔ ∃ mk, opcodeRow op = some (.shapeC mk) := by
  refine ⟨?_, fun ⟨_, h⟩ => (opcodeRow_fitsOp h).1⟩
  revert op
  simp [shapeCOps, opcodeRow]

/-- Every other OP is reserved (R125). -/
theorem opcodeRow_eq_none (hZ : op ∉ shapeZOps) (hW : op ∉ shapeWOps) (hC : op ∉ shapeCOps) :
    opcodeRow op = none := by
  cases hrow : opcodeRow op with
  | none => rfl
  | some r =>
    cases r with
    | shapeZ i => exact absurd (mem_shapeZOps_iff.2 ⟨i, hrow⟩) hZ
    | shapeW mk => exact absurd (mem_shapeWOps_iff.2 ⟨mk, hrow⟩) hW
    | shapeC mk => exact absurd (mem_shapeCOps_iff.2 ⟨mk, hrow⟩) hC

end

end Sys2Proof

namespace Sys2Proof.Machine

/-- The core's step of an illegal word: its cause recorded, the command retired, nothing else. -/
theorem step_illegal {s : State} (why : Illegal) (hready : s.coreReady = true) (h : decode s.cmdl = .illegal why) :
    step s = .next { s.recordError (illegalCause why) s.cmdl with busy := false } :=
  (step_core s hready).trans (coreTurn_illegal s why h)

/-- Settles O3: the opcode lists give the word's row, and the decoder has one equation for each way that the row takes
or rejects the word. -/
theorem illegalWordsRaiseAndDoNothingElse : Obligations.IllegalWordsRaiseAndDoNothingElse := by
  rintro s op hready rfl
  refine ⟨fun hZ hW hC => ?_, ?_, fun hW hrsv hch hN => ?_, ?_⟩
  · exact step_illegal .opcode hready (decode_reservedOp (opcodeRow_eq_none hZ hW hC))
  · intro h
    have hunused : decode s.cmdl = .illegal .reservedField := by
      rcases h with ⟨hZ, hf⟩ | ⟨hW, hf⟩ | ⟨hC, hf⟩
      · obtain ⟨i, hrow⟩ := mem_shapeZOps_iff.1 hZ
        exact decode_unusedField hrow fun ⟨hrsv, hch, hN⟩ => by simp [hrsv, hch, hN] at hf
      · obtain ⟨mk, hrow⟩ := mem_shapeWOps_iff.1 hW
        exact decode_unusedField hrow fun ⟨hrsv, hch⟩ => by simp [hrsv, hch] at hf
      · obtain ⟨mk, hrow⟩ := mem_shapeCOps_iff.1 hC
        exact decode_unusedField hrow fun ⟨hrsv, hN⟩ => by simp [hrsv, hN] at hf
    exact step_illegal .reservedField hready hunused
  · obtain ⟨mk, hrow⟩ := mem_shapeWOps_iff.1 hW
    exact step_illegal .operand hready (decode_outOfRange hrow ⟨hrsv, hch⟩ (Nat.not_le.2 hN))
  · rintro (⟨hZ, hz⟩ | ⟨hW, hrsv, hch, hN⟩ | ⟨hC, hz⟩)
    · obtain ⟨i, hrow⟩ := mem_shapeZOps_iff.1 hZ
      exact ⟨_, decode_legal hrow hz trivial⟩
    · obtain ⟨mk, hrow⟩ := mem_shapeWOps_iff.1 hW
      exact ⟨_, decode_legal hrow ⟨hrsv, hch⟩ hN⟩
    · obtain ⟨mk, hrow⟩ := mem_shapeCOps_iff.1 hC
      exact ⟨_, decode_legal hrow hz trivial⟩

/-- Settles O1, by evaluating the decoder on the eight words. -/
theorem exampleWordsDecode : Obligations.ExampleWordsDecode := by
  unfold Obligations.ExampleWordsDecode
  decide

end Sys2Proof.Machine
end

section
/-! SUPPORT. The bit I/O commands (spec/41_bitio.md): the bits that a store leaves at WPOS, the value of a field that is
read, and one rule per command and outcome. -/

namespace Sys2Proof.Machine

variable {n : BitVec 6} {s : State}

/-! The words of the commands (spec/30_encoding.md R122). -/

/-- A word with no channel is the word of its opcode with N in the low bits. -/
theorem packWord_noChannel (op : BitVec 8) (n : BitVec 6) :
    packWord op 0#4 n = packWord op 0#4 0#6 ||| n.setWidth 32 := by
  apply BitVec.eq_of_getLsbD_eq
  intro j hj
  simp only [packWord, BitVec.getLsbD_or, BitVec.getLsbD_append, BitVec.getLsbD_setWidth]
  by_cases hN : j < 6
  · simp [hN, hj]
  · simp [hN, BitVec.getLsbD_of_ge n j (by omega)]

/-! A store at WPOS (spec/20_memory.md R91, R92, spec/41_bitio.md R151). -/

/-- Bits that fit are held where they were stored. -/
theorem holdsBits_writeBits (m : List Host.Cell) {p : Nat} {bits : List Bool}
    (h : p + bits.length ≤ Config.capBits) : holdsBits (writeBits m p bits) p bits := by
  intro j b hb
  rw [bitRead_writeBits _ _ _ _ h, if_pos (Nat.le_add_right _ _), Nat.add_sub_cancel_left, hb, Option.getD_some]

/-- Bits that fit are all that a store changes. -/
theorem storedOnly_writeBits (m : List Host.Cell) {p : Nat} {bits : List Bool}
    (h : p + bits.length ≤ Config.capBits) : storedOnly m (writeBits m p bits) p bits.length := by
  refine ⟨fun q hq => ?_, fun a ha => readByte_writeBits bits m p a ha⟩
  rw [bitRead_writeBits _ _ _ _ h]
  split
  · rw [List.getElem?_eq_none (by omega), Option.getD_none]
  · rfl

/-- Where a field is held, its bits are those of its value, most significant first. -/
theorem bitRead_of_holdsField {m : List Host.Cell} {p k v j : Nat} (h : holdsBits m p (fieldBits k v)) (hj : j < k) :
    bitRead m (p + j) = v.testBit (k - 1 - j) := h j _ (fieldBits_getElem k v j hj)

/-- Where a unary code is held, its first bits are ones. -/
theorem bitRead_one_of_holdsUnary {m : List Host.Cell} {p q j : Nat} (h : holdsBits m p (unaryBits q)) (hj : j < q) :
    bitRead m (p + j) = true := h j true (by simp [unaryBits, List.getElem?_append_left, hj])

/-- Where a unary code is held, its last bit is the zero. -/
theorem bitRead_zero_of_holdsUnary {m : List Host.Cell} {p q : Nat} (h : holdsBits m p (unaryBits q)) :
    bitRead m (p + q) = false := h q false (by simp [unaryBits])

/-- A command whose pseudocode is one store of `k` bits that fit completes with these bits at WPOS. -/
theorem finish_store_fits (i : Instr) {bits : List Bool} {k : Nat} (hk : bits.length = k)
    (h : s.wpos.toNat + k ≤ Config.capBits) :
    ∃ b, finish i s (s.store bits) = .next { s with
        buf := b
        wpos := BitVec.ofNat 20 (s.wpos.toNat + k)
        cmdCount := s.cmdCount + 1#32 } ∧
      holdsBits b s.wpos.toNat bits ∧ storedOnly s.buf b s.wpos.toNat k := by
  subst hk
  rw [store_fits s bits h]
  exact ⟨_, rfl, holdsBits_writeBits s.buf h, storedOnly_writeBits s.buf h⟩

/-- A command whose pseudocode is one store of bits that do not fit raises RESOURCE. -/
theorem finish_store_noRoom (i : Instr) {bits : List Bool} {k : Nat} (hk : bits.length = k)
    (h : Config.capBits < s.wpos.toNat + k) :
    finish i s (s.store bits) = .next (s.recordError .noRoom (encode i)) := by
  subst hk
  rw [store_noRoom s bits h, finish_raised]

/-! BW_BITS (R153). -/

theorem exec_bwBits_width (hn : n.toNat ≤ 32) :
    exec (.bwBits n) s = finish (.bwBits n) s (s.store (fieldBits n.toNat s.argl.toNat)) :=
  congrArg (finish (.bwBits n) s) (onWidth_legal n _ hn)

/-- Settles O18: a legal N makes BW_BITS the store of a field, and the field is held where it was stored. -/
theorem bwBitsStoresTheField : Obligations.BwBitsStoresTheField := by
  intro n s
  refine ⟨packWord_noChannel _ n, fun hn hroom => ?_, fun hn hfull => ?_, fun hn => ?_⟩
  · obtain ⟨b, hstore, hheld, honly⟩ :=
      finish_store_fits (.bwBits n) (fieldBits_length n.toNat s.argl.toNat) hroom
    exact ⟨b, (exec_bwBits_width hn).trans hstore, fun j hj => bitRead_of_holdsField hheld hj, honly⟩
  · exact (exec_bwBits_width hn).trans (finish_store_noRoom _ (fieldBits_length _ _) hfull)
  · exact congrArg (finish (.bwBits n) s) (onWidth_illegal n _ hn)

/-! BW_UNARY (R156). -/

theorem exec_bwUnary_legal (h : s.argl.toNat ≤ 32) :
    exec .bwUnary s = finish .bwUnary s (s.store (unaryBits s.argl.toNat)) :=
  congrArg (finish .bwUnary s) (if_neg (Nat.not_lt.2 h))

/-- Settles O21: a legal operand makes BW_UNARY the store of its unary code, which is held where it was stored. -/
theorem bwUnaryStoresOnesAndAZero : Obligations.BwUnaryStoresOnesAndAZero := by
  refine ⟨rfl, fun s => ⟨fun hq hroom => ?_, fun hq hfull => ?_, fun hq => ?_⟩⟩
  · obtain ⟨b, hstore, hheld, honly⟩ := finish_store_fits .bwUnary (unaryBits_length s.argl.toNat) hroom
    exact ⟨b, (exec_bwUnary_legal hq).trans hstore, fun j hj => bitRead_one_of_holdsUnary hheld hj,
      bitRead_zero_of_holdsUnary hheld, honly⟩
  · exact (exec_bwUnary_legal hq).trans (finish_store_noRoom _ (unaryBits_length _) hfull)
  · exact congrArg (finish .bwUnary s) (if_pos hq)

/-! BW_FLUSH (R158). -/

/-- The padding ends at the first byte boundary, and the buffer's end is one. -/
theorem padLength_spec (p : Nat) :
    (p + padLength p) % 8 = 0 ∧ (p ≤ Config.capBits → p + padLength p ≤ Config.capBits) := by
  simp only [padLength, Config.capBits]
  omega

/-- Settles O23: BW_FLUSH is the store of a field of value 0, which has no bit set. -/
theorem bwFlushPadsWithZeros : Obligations.BwFlushPadsWithZeros := by
  refine ⟨rfl, ?_⟩
  rintro s _ rfl
  obtain ⟨hboundary, hfits⟩ := padLength_spec s.wpos.toNat
  refine ⟨fun hroom => ?_, fun hfull => ?_⟩
  · obtain ⟨b, hstore, hheld, honly⟩ :=
      finish_store_fits .bwFlush (fieldBits_length (padLength s.wpos.toNat) 0) (hfits hroom)
    exact ⟨b, hstore, hboundary, hfits hroom,
      fun j hj => (bitRead_of_holdsField hheld hj).trans (Nat.zero_testBit _), honly⟩
  · exact finish_store_noRoom .bwFlush (fieldBits_length (padLength s.wpos.toNat) 0) (Nat.lt_add_right _ hfull)

/-! The reads of a field (R154, R155): one pseudocode, which BR_BITS and BR_SBITS end with a value each. -/

/-- The pseudocode of a command that reads an N-bit field and answers with `value` of the width and the field. -/
def readsField (i : Instr) (n : BitVec 6) (value : Nat → Nat → Word) (s : State) :
    Host.Outcome State Fault Refusal :=
  finish i s (onWidth n fun width =>
    s.take (readField s.buf s.readLimit width s.rpos.toNat 0) fun t v => .done { t with result := value width v })

theorem exec_brBits (n : BitVec 6) (s : State) :
    exec (.brBits n) s = readsField (.brBits n) n (fun _ v => BitVec.ofNat 32 v) s := rfl

theorem exec_brSbits (n : BitVec 6) (s : State) :
    exec (.brSbits n) s = readsField (.brSbits n) n (fun width v => wrap32 (sext width v)) s := rfl

/-- A field below the read limit is read and RPOS moves past it. -/
theorem readsField_got (i : Instr) (value : Nat → Nat → Word) (hn : n.toNat ≤ 32)
    (h : n.toNat = 0 ∨ s.rpos.toNat + n.toNat ≤ s.readLimit) :
    readsField i n value s = .next { s with
      rpos := BitVec.ofNat 20 (s.rpos.toNat + n.toNat)
      result := value n.toNat (fieldValue s.buf n.toNat s.rpos.toNat 0)
      cmdCount := s.cmdCount + 1#32 } := by
  rw [readsField, onWidth_legal _ _ hn, readField_eq, if_pos h]
  rfl

/-- A field that reaches past the read limit is truncated. -/
theorem readsField_truncated (i : Instr) (value : Nat → Nat → Word) (hn : n.toNat ≤ 32) (h0 : n.toNat ≠ 0)
    (h : s.readLimit < s.rpos.toNat + n.toNat) :
    readsField i n value s = .next (s.recordError .truncated (encode i)) := by
  rw [readsField, onWidth_legal _ _ hn, readField_eq, if_neg fun h' => h'.elim h0 (Nat.not_le.2 h)]
  rfl

/-- A field wider than a word is refused (R127). -/
theorem readsField_illegal (i : Instr) (value : Nat → Nat → Word) (hn : 32 < n.toNat) :
    readsField i n value s = .next (s.recordError .illegalOperand (encode i)) := by
  rw [readsField, onWidth_illegal _ _ hn]
  rfl

/-- Bit `k - 1 - j` of a field's value is the field's bit `j` in stream order. -/
theorem testBit_field (m : List Host.Cell) (p : Nat) {k j : Nat} (hj : j < k) :
    (fieldValue m k p 0).testBit (k - 1 - j) = bitRead m (p + j) := by
  rw [testBit_fieldValue, if_pos (by omega), show k - 1 - (k - 1 - j) = j by omega]

/-- A field of `k` bits has no bit of weight `2^k` or above. -/
theorem fieldValue_lt (m : List Host.Cell) (k p : Nat) : fieldValue m k p 0 < 2 ^ k := by
  apply Nat.lt_pow_two_of_testBit
  intro j hj
  rw [testBit_fieldValue, if_neg (Nat.not_lt.2 hj), Nat.zero_testBit]

/-- Settles O19: the value of the field is RESULT, bit by bit. -/
theorem brBitsReadsTheField : Obligations.BrBitsReadsTheField := by
  intro n s
  simp only [raises, exec_brBits]
  refine ⟨packWord_noChannel _ n, fun hn hlimit => ⟨_, readsField_got _ _ hn hlimit, fun j hj => ?_, fun j hj => ?_⟩,
    readsField_truncated _ _, readsField_illegal _ _⟩
  · rw [BitVec.getLsbD_ofNat, decide_eq_true (by omega), Bool.true_and, testBit_field _ _ hj]
  · rw [BitVec.getLsbD_ofNat, testBit_fieldValue, if_neg (Nat.not_lt.2 hj), Nat.zero_testBit, Bool.and_false]

/-! The sign extension of a field (spec/00_scope.md R11). -/

/-- `sext_k(v)` is the signed reading of the `k`-bit field. -/
theorem sext_eq_toInt {k v : Nat} (h : v < 2 ^ k) : sext k v = (BitVec.ofNat k v).toInt := by
  cases k with
  | zero => simp [sext, BitVec.of_length_zero]
  | succ m =>
    have hmsb : (BitVec.ofNat (m + 1) v).msb = v.testBit m := by
      rw [BitVec.msb_eq_getLsbD_last, Nat.add_sub_cancel, BitVec.getLsbD_ofNat, decide_eq_true (Nat.lt_succ_self m),
        Bool.true_and]
    rw [BitVec.toInt_eq_msb_cond, hmsb, BitVec.toNat_ofNat, Nat.mod_eq_of_lt h, sext]
    norm_cast

/-- As a word the sign-extended field has the field's bits, and its sign bit in every place above them. -/
theorem getLsbD_wrap32_sext {k v j : Nat} (hk : 0 < k) (h : v < 2 ^ k) (hj : j < 32) :
    (wrap32 (sext k v)).getLsbD j = if j < k then v.testBit j else v.testBit (k - 1) := by
  have hword : wrap32 (sext k v) = (BitVec.ofNat k v).signExtend 32 := by
    rw [sext_eq_toInt h]
    rfl
  rw [hword, BitVec.getLsbD_signExtend, BitVec.msb_eq_getLsbD_last, decide_eq_true hj, Bool.true_and]
  split
  · next hlow => rw [BitVec.getLsbD_ofNat, decide_eq_true hlow, Bool.true_and]
  · rw [BitVec.getLsbD_ofNat, decide_eq_true (Nat.sub_one_lt_of_lt hk), Bool.true_and]

/-- Settles O20: RESULT has the field's bits and, above them, its sign bit, which is the field's first in stream
order. -/
theorem brSbitsSignExtendsTheField : Obligations.BrSbitsSignExtendsTheField := by
  intro n s
  simp only [raises, exec_brSbits]
  have hlt := fieldValue_lt s.buf n.toNat s.rpos.toNat
  refine ⟨packWord_noChannel _ n, fun hn hlimit => ⟨_, readsField_got _ _ hn hlimit, fun j hj => ?_, fun h0 => ?_,
    fun h0 j hj hj' => ?_⟩, readsField_truncated _ _, readsField_illegal _ _⟩
  · rw [getLsbD_wrap32_sext (by omega) hlt (by omega), if_pos (by omega), testBit_field _ _ hj]
  · rw [h0]
    rfl
  · rw [getLsbD_wrap32_sext (by omega) hlt hj', if_neg (by omega)]
    exact testBit_field s.buf s.rpos.toNat (j := 0) (by omega)

/-! BR_UNARY (R157) and BR_ALIGN (R159). -/

/-- A unary count below the limit becomes RESULT and RPOS moves past its zero. -/
theorem exec_brUnary_got {c p : Nat}
    (h : readUnary s.buf s.readLimit (Config.unaryMax + 1) s.rpos.toNat 0 = .got c p) :
    exec .brUnary s = .next { s with
      rpos := BitVec.ofNat 20 p
      result := BitVec.ofNat 32 c
      cmdCount := s.cmdCount + 1#32 } := by
  rw [exec, execBrUnary, h]
  rfl

theorem raises_brUnary {k : Cause}
    (h : readUnary s.buf s.readLimit (Config.unaryMax + 1) s.rpos.toNat 0 = .failed k) : raises .brUnary s k := by
  rw [raises, exec, execBrUnary, h]
  rfl

/-- Settles O22, by the three ways BR_UNARY's loop ends; when the limit cuts the run, the ones are those below it. -/
theorem brUnaryCountsTheOnes : Obligations.BrUnaryCountsTheOnes := by
  refine ⟨rfl, fun s c hones => ⟨fun hc hlimit hzero => ?_, ?_, fun hc hlimit => ?_⟩⟩
  · have hread := readUnary_got s.buf s.readLimit (Config.unaryMax + 1) s.rpos.toNat 0 c (Nat.lt_succ_of_le hc) hlimit
      (fun j hj => hones j hj (by omega)) hzero
    rw [Nat.zero_add] at hread
    exact exec_brUnary_got hread
  · rintro rfl hlimit
    exact raises_brUnary (readUnary_runaway _ _ _ _ _ hlimit fun j hj => hones j hj (Nat.lt_of_lt_of_le
      (Nat.add_lt_add_left hj _) hlimit))
  · have hbound : s.readLimit - s.rpos.toNat < Config.unaryMax + 1 := show _ < 32 + 1 by omega
    exact raises_brUnary (readUnary_truncated _ _ _ _ _ _ hbound (by omega)
      fun j hj => hones j (by omega) (by omega))

/-- Zero padding below the limit is skipped. -/
theorem exec_brAlign_got {v p : Nat}
    (h : readPad s.buf s.readLimit (padLength s.rpos.toNat) s.rpos.toNat = .got v p) :
    exec .brAlign s = .next { s with rpos := BitVec.ofNat 20 p, cmdCount := s.cmdCount + 1#32 } := by
  rw [exec, execBrAlign, h]
  rfl

theorem raises_brAlign {k : Cause}
    (h : readPad s.buf s.readLimit (padLength s.rpos.toNat) s.rpos.toNat = .failed k) : raises .brAlign s k := by
  rw [raises, exec, execBrAlign, h]
  rfl

/-- Settles O24: BR_ALIGN's loop skips the padding, or fails at the first pad bit that is not a zero below the
limit. -/
theorem brAlignChecksThePadding : Obligations.BrAlignChecksThePadding := by
  refine ⟨rfl, ?_⟩
  rintro s _ rfl
  obtain ⟨hboundary, -⟩ := padLength_spec s.rpos.toNat
  refine ⟨fun hzeros => ⟨exec_brAlign_got (readPad_got _ _ _ _ hzeros), hboundary⟩, fun j hj hzeros => ?_⟩
  obtain ⟨hcut, hone⟩ := readPad_failed s.buf s.readLimit _ s.rpos.toNat j hj hzeros
  exact ⟨fun hlimit => raises_brAlign (hcut hlimit), fun hlimit hbit => raises_brAlign (hone hlimit hbit)⟩

/-! What was written reads back. -/

/-- Settles O25: the field is held where BW_BITS stored it (O18), so that BR_BITS reads the operand's low bits. -/
theorem writtenFieldReadsBack : Obligations.WrittenFieldReadsBack := by
  intro n s d hn hroom
  obtain ⟨-, hwrite, -⟩ := bwBitsStoresTheField n s
  obtain ⟨b, hexec, hheld, -⟩ := hwrite hn hroom
  refine ⟨_, hexec, fun hbuf hrpos hlimit => ?_⟩
  rw [← hrpos] at hlimit hheld
  rw [exec_brBits]
  refine ⟨_, readsField_got _ _ hn (.inr hlimit), ?_, ?_⟩
  · have hvalue : fieldValue d.buf n.toNat d.rpos.toNat 0 = s.argl.toNat % 2 ^ n.toNat := by
      rw [hbuf]
      exact fieldValue_eq b _ _ _ hheld
    have hword : s.argl.toNat % 2 ^ n.toNat < 2 ^ 32 := Nat.lt_of_le_of_lt (Nat.mod_le _ _) s.argl.isLt
    rw [hvalue, BitVec.toNat_ofNat, Nat.mod_eq_of_lt hword]
  · rw [hrpos]

/-- Settles O26: the ones and the zero stand where BW_UNARY stored them (O21), and BR_UNARY counts them (O22). -/
theorem writtenUnaryReadsBack : Obligations.WrittenUnaryReadsBack := by
  intro s d hq hroom
  obtain ⟨-, hwrites⟩ := bwUnaryStoresOnesAndAZero
  obtain ⟨hwrite, -⟩ := hwrites s
  obtain ⟨b, hexec, hones, hzero, -⟩ := hwrite hq hroom
  refine ⟨_, hexec, fun hbuf hrpos hlimit => ?_⟩
  obtain ⟨-, hreads⟩ := brUnaryCountsTheOnes
  rw [← hrpos] at hlimit hones hzero
  obtain ⟨hread, -⟩ := hreads d s.argl.toNat fun j hj _ => by rw [hbuf]; exact hones j hj
  refine ⟨_, hread hq hlimit (by rw [hbuf]; exact hzero), ?_, ?_⟩
  · rw [BitVec.ofNat_toNat, BitVec.setWidth_eq]
  · rw [hrpos]

end Sys2Proof.Machine
end

section
/-! SUPPORT. The values of the entropy coder (spec/42_entropy.md): the zig-zag map as arithmetic, the bits of a code, and
the coder's sum and parameter. -/

namespace Sys2Proof.Machine

/-! The zig-zag map and its inverse (R180, R181). -/

/-- Without a sign bit to spread, the map is the doubling alone. -/
theorem zigzag_eq_shift {r : Word} (h : 0 ≤ r.toInt) : zigzag r = r <<< 1 := by
  have hsign : r.sshiftRight 31 = 0#32 := by
    apply BitVec.eq_of_toInt_eq
    have hlt := r.toInt_lt
    rw [BitVec.toInt_sshiftRight, Int.shiftRight_eq_div_pow, BitVec.toInt_zero]
    omega
  rw [zigzag, hsign, BitVec.xor_zero]

/-- A sign bit spread over the word complements the doubling. -/
theorem zigzag_eq_not {r : Word} (h : r.toInt < 0) : zigzag r = ~~~(r <<< 1) := by
  have hsign : r.sshiftRight 31 = BitVec.allOnes 32 := by
    apply BitVec.eq_of_toInt_eq
    have hle := r.le_toInt
    rw [BitVec.toInt_sshiftRight, Int.shiftRight_eq_div_pow, BitVec.toInt_allOnes]
    omega
  rw [zigzag, hsign, BitVec.xor_allOnes]

theorem zigzag_of_nonneg {r : Word} (h : 0 ≤ r.toInt) : ((zigzag r).toNat : Int) = 2 * r.toInt := by
  have hlt := BitVec.toInt_pos_iff.1 h
  rw [zigzag_eq_shift h, BitVec.toInt_eq_toNat_of_lt hlt, BitVec.toNat_shiftLeft, Nat.shiftLeft_eq]
  omega

theorem zigzag_of_neg {r : Word} (h : r.toInt < 0) : ((zigzag r).toNat : Int) = -2 * r.toInt - 1 := by
  have hge := BitVec.toInt_neg_iff.1 h
  rw [zigzag_eq_not h, BitVec.toInt_eq_toNat_cond, if_neg (Nat.not_lt.2 hge), BitVec.toNat_not,
    BitVec.toNat_shiftLeft, Nat.shiftLeft_eq]
  omega

/-- The low bit of a word is its parity. -/
theorem and_one_eq_parity (u : Word) : u &&& 1#32 = BitVec.ofNat 32 (u.toNat % 2) := by
  apply BitVec.eq_of_toNat_eq
  rw [BitVec.toNat_and, BitVec.toNat_ofNat, BitVec.toNat_ofNat]
  exact (Nat.and_one_is_mod _).trans (Nat.mod_eq_of_lt (by omega)).symm

theorem unzigzag_of_even {u : Word} (h : u.toNat % 2 = 0) : (unzigzag u).toInt = (u.toNat : Int) / 2 := by
  rw [unzigzag, and_one_eq_parity, h, BitVec.neg_zero, BitVec.xor_zero, BitVec.toInt_ushiftRight,
    if_neg Nat.one_ne_zero, Nat.shiftRight_eq_div_pow]
  rfl

theorem unzigzag_of_odd {u : Word} (h : u.toNat % 2 = 1) : (unzigzag u).toInt = -(((u.toNat : Int) + 1) / 2) := by
  have hlt := u.isLt
  rw [unzigzag, and_one_eq_parity, h, BitVec.neg_one_eq_allOnes, BitVec.xor_allOnes, BitVec.toInt_eq_toNat_cond,
    BitVec.toNat_not, BitVec.toNat_ushiftRight, Nat.shiftRight_eq_div_pow, if_neg (by omega)]
  omega

theorem unzigzag_zigzag (r : Word) : unzigzag (zigzag r) = r := by
  apply BitVec.eq_of_toInt_eq
  rcases Int.lt_or_le r.toInt 0 with h | h
  · have hz := zigzag_of_neg h
    rw [unzigzag_of_odd (by omega)]
    omega
  · have hz := zigzag_of_nonneg h
    rw [unzigzag_of_even (by omega)]
    omega

theorem zigzag_unzigzag (u : Word) : zigzag (unzigzag u) = u := by
  apply BitVec.eq_of_toNat_eq
  rcases Nat.mod_two_eq_zero_or_one u.toNat with h | h
  · have hu := unzigzag_of_even h
    have hz := zigzag_of_nonneg (r := unzigzag u) (by omega)
    omega
  · have hu := unzigzag_of_odd h
    have hz := zigzag_of_neg (r := unzigzag u) (by omega)
    omega

/-- Settles O27, by the sign of the residual and by the parity of the value. -/
theorem zigzagIsABijection : Obligations.ZigzagIsABijection :=
  ⟨fun r => ⟨zigzag_of_nonneg, zigzag_of_neg, unzigzag_zigzag r⟩,
    fun u => ⟨unzigzag_of_even, unzigzag_of_odd, zigzag_unzigzag u⟩⟩

/-! The bits of a code (R183). -/

theorem codeBits_length_unary {k u : Nat} (h : u >>> k < 16) : (codeBits k u).length = u >>> k + 1 + k :=
  (codeBits_length k u).trans (if_pos h)

theorem codeBits_length_escape {k u : Nat} (h : 16 ≤ u >>> k) : (codeBits k u).length = 48 :=
  (codeBits_length k u).trans (if_neg (Nat.not_lt.2 h))

/-- A code begins with its ones. -/
theorem getElem?_ones {n i : Nat} (l : List Bool) (hi : i < n) : (List.replicate n true ++ l)[i]? = some true := by
  rw [List.getElem?_append_left (by simpa using hi), List.getElem?_replicate_of_lt hi]

/-- What follows the ones of a code begins after them. -/
theorem getElem?_after_ones (n i : Nat) (l : List Bool) : (List.replicate n true ++ l)[n + i]? = l[i]? := by
  rw [List.getElem?_append_right (by simp), List.length_replicate, Nat.add_sub_cancel_left]

/-- Settles O28: the two forms of a code are the lists of `codeBits_unary` and `codeBits_escape`, read place by
place. -/
theorem codeBitsFollowTheRule : Obligations.CodeBitsFollowTheRule := by
  refine fun k u => ⟨fun hq => ⟨codeBits_length_unary hq, ?_⟩, fun hq => ⟨codeBits_length_escape hq, ?_⟩, fun hk => ?_⟩
  · rw [codeBits_unary k u hq]
    refine ⟨fun i hi => getElem?_ones _ hi, getElem?_after_ones _ 0 _, fun i hi => ?_⟩
    rw [Nat.add_assoc, getElem?_after_ones, Nat.add_comm 1 i, List.getElem?_cons_succ, fieldBits_getElem k u i hi]
  · rw [codeBits_escape k u hq]
    exact ⟨fun i hi => getElem?_ones _ hi, fun i hi => by rw [getElem?_after_ones, fieldBits_getElem 32 u i hi]⟩
  · rcases Nat.lt_or_ge (u >>> k) 16 with hq | hq
    · rw [codeBits_length_unary hq]
      generalize u >>> k = q at hq ⊢
      exact ⟨by omega, by omega, fun _ => by omega⟩
    · rw [codeBits_length_escape hq]
      exact ⟨by decide, by decide, fun hlt => absurd hlt (Nat.not_lt.2 hq)⟩

/-! The coder's sum and parameter (R186, R187, R193). -/

/-- Below B, `KOf(S)` is the bit length of `S >> 5`, and no smaller number of bits holds it. -/
theorem kOf_spec (b S : Nat) : (kOf b S < b → S / 32 < 2 ^ kOf b S) ∧ ∀ n, n < kOf b S → 2 ^ n ≤ S / 32 := by
  have hshift : S >>> (Config.adaptShift + 1) = S / 32 := Nat.shiftRight_eq_div_pow S 5
  simp only [kOf, hshift]
  refine ⟨fun hb => ?_, fun n hn => ?_⟩
  · exact (bitlen_le_iff _ _).1 (by omega)
  · exact Nat.not_lt.1 fun hlt => absurd ((bitlen_le_iff _ _).2 hlt) (by omega)

/-- From a sum in its bound the 30-bit field holds the new sum exactly (R189). -/
theorem coderUpdate_S_toNat (b u : Nat) {c : Ctx} (h : c.S.toNat ≤ 16 * Config.uClamp) :
    (coderUpdate b u c).S.toNat = nextSum c.S.toNat u := toNat_ofNat_sum _ (nextSum_le _ u h)

theorem coderUpdate_K_toNat (b u : Nat) (c : Ctx) :
    (coderUpdate b u c).K.toNat = kOf b (coderUpdate b u c).S.toNat := toNat_ofNat_kOf b _

/-- Settles O29: the new sum stays in its bound, so that both fields hold their values exactly. -/
theorem coderUpdateFollowsTheAverage : Obligations.CoderUpdateFollowsTheAverage := by
  refine ⟨?_, initialSum_le⟩
  rintro b u c h _ _ rfl rfl
  rw [coderUpdate_K_toNat]
  obtain ⟨hbelow, hleast⟩ := kOf_spec b (coderUpdate b u c).S.toNat
  refine ⟨?_, ?_, kOf_le b _, hbelow, hleast, coderUpdate_stages b u c⟩
  · rw [coderUpdate_S_toNat b u h, nextSum, Nat.shiftRight_eq_div_pow]
    rfl
  · rw [coderUpdate_S_toNat b u h]
    exact nextSum_le _ u h

/-- The bit length of `S0(B) >> 5` is half the depth, which the depth does not cut (R193). -/
theorem kOf_initialSum (b : Nat) : kOf b (initialSum b) = b / 2 := by
  have hsum : initialSum b >>> (Config.adaptShift + 1) = 16 * 2 ^ (b / 2) / 32 := by
    rw [initialSum, Nat.shiftRight_eq_div_pow, Nat.shiftRight_eq_div_pow]
    rfl
  have hlen : bitlen (16 * 2 ^ (b / 2) / 32) = b / 2 := by
    apply Nat.le_antisymm
    · have := Nat.two_pow_pos (b / 2)
      exact (bitlen_le_iff _ _).2 (by omega)
    · cases b / 2 with
      | zero => exact Nat.zero_le _
      | succ m =>
        refine Nat.not_lt.1 fun hlt => absurd ((bitlen_le_iff _ m).1 (Nat.le_of_lt_succ hlt)) ?_
        rw [Nat.pow_succ]
        omega
  rw [kOf, hsum, hlen, Nat.min_eq_right (Nat.div_le_self b 2)]

end Sys2Proof.Machine
end

section
/-! SUPPORT. What the shape-C commands share: the word with its channel (spec/30_encoding.md R122), the two checks
(spec/60_exceptions.md R282), and the end of one whose working copy stores bits; then EC_RESET and EC_ENC
(spec/42_entropy.md R190, R192). -/

namespace Sys2Proof.Machine

variable {i : Instr} {ch : BitVec 4} {s t : State} {body : Ctx → Effect} {bits : List Bool} {n : Nat}

/-- A word with no N is the word of its opcode with the channel in its place. -/
theorem packWord_channel (op : BitVec 8) (ch : BitVec 4) :
    packWord op ch 0#6 = packWord op 0#4 0#6 ||| (ch.setWidth 32 <<< 20) := by
  have hch : ch.toNat * 2 ^ 20 < 2 ^ 24 := by
    have := ch.isLt
    omega
  have hshift : (ch.setWidth 32 <<< 20).toNat = ch.toNat * 2 ^ 20 := by
    rw [BitVec.toNat_shiftLeft, BitVec.toNat_setWidth_of_le (by decide), Nat.shiftLeft_eq]
    exact Nat.mod_eq_of_lt (Nat.lt_trans hch (by decide))
  have hor := Nat.shiftLeft_add_eq_or_of_lt hch op.toNat
  rw [Nat.shiftLeft_eq] at hor
  apply BitVec.eq_of_toNat_eq
  rw [BitVec.toNat_or, packWord_toNat, packWord_toNat, hshift]
  rw [BitVec.toNat_zero, BitVec.toNat_zero, Nat.zero_mul, Nat.add_zero, Nat.add_zero, hor]

/-- A command that begins with the checks of shape C makes them in their order. -/
theorem checksContext_of_onContext (he : exec i s = finish i s (onContext s ch body)) : checksContext i ch s := by
  refine ⟨fun hv => ?_, fun hv hc => ?_⟩
  · rw [raises, he, onContext_unconfigured s ch body hv, finish_raised]
  · rw [raises, he, onContext_badChannel s ch body hv hc, finish_raised]

/-- Where the checks pass, the command is its own pseudocode on its context. -/
theorem exec_of_opens (h : s.opens ch) (he : exec i s = finish i s (onContext s ch body)) :
    exec i s = finish i s (body (s.ctx ch.toNat)) := by
  obtain ⟨hv, hc⟩ := h
  rw [he, onContext_opens s ch body hv hc]

/-- A working copy that stores `n` bits that fit completes the command with these bits at WPOS. -/
theorem finish_workingCopy_fits (i : Instr) (s : State) (hn : bits.length = n)
    (h : t.wpos.toNat + n ≤ Config.capBits) :
    ∃ b, finish i s (t.store bits) = .next { t with
        buf := b
        wpos := BitVec.ofNat 20 (t.wpos.toNat + n)
        cmdCount := t.cmdCount + 1#32 } ∧
      holdsBits b t.wpos.toNat bits ∧ storedOnly t.buf b t.wpos.toNat n := by
  obtain ⟨b, hfinish, hstored⟩ := finish_store_fits (s := t) i hn h
  rw [store_fits t bits (hn ▸ h), finish_done] at hfinish
  exact ⟨b, by rw [store_fits t bits (hn ▸ h), finish_done, hfinish], hstored⟩

/-- A working copy that stores bits that do not fit raises RESOURCE. -/
theorem finish_workingCopy_noRoom (i : Instr) (s : State) (hn : bits.length = n)
    (h : Config.capBits < t.wpos.toNat + n) :
    finish i s (t.store bits) = .next (s.recordError .noRoom (encode i)) := by
  rw [store_noRoom t bits (hn ▸ h), finish_raised]

/-! EC_RESET (R192). -/

/-- The initial coder state in closed form (R193). -/
theorem coderReset_eq (b : Nat) (c : Ctx) :
    coderReset b c = { S := BitVec.ofNat 30 (16 * 2 ^ (b / 2)), K := BitVec.ofNat 5 (b / 2), stages := c.stages } := by
  rw [coderReset, kOf_initialSum, initialSum, Nat.shiftRight_eq_div_pow, Nat.pow_one]

theorem exec_ecReset (h : s.opens ch) :
    exec (.ecReset ch) s = .next (s.setCtx ch.toNat (coderReset s.depth (s.ctx ch.toNat))).count :=
  exec_of_opens (body := fun c => .done (s.setCtx ch.toNat (coderReset s.depth c))) h rfl

/-- Settles O32: past the checks EC_RESET puts the initial coder state in its context. -/
theorem ecResetSetsTheInitialCoderState : Obligations.EcResetSetsTheInitialCoderState := by
  refine fun ch s => ⟨packWord_channel _ ch, checksContext_of_onContext rfl, fun h => ?_⟩
  rw [exec_ecReset h, coderReset_eq]
  rfl

/-! EC_ENC (R190). -/

theorem exec_ecEnc (h : s.opens ch) :
    exec (.ecEnc ch) s = finish (.ecEnc ch) s
      ((s.setCtx ch.toNat (coderUpdate s.depth (zigzag s.argl).toNat (s.ctx ch.toNat))).store
        (codeBits (s.ctx ch.toNat).K.toNat (zigzag s.argl).toNat)) :=
  exec_of_opens (body := fun c =>
    (s.setCtx ch.toNat (coderUpdate s.depth (zigzag s.argl).toNat c)).store
      (codeBits c.K.toNat (zigzag s.argl).toNat)) h rfl

/-- Settles O30: past the checks EC_ENC stores the code in a working copy that holds the updated context. -/
theorem ecEncWritesTheCode : Obligations.EcEncWritesTheCode := by
  refine fun ch s => ⟨packWord_channel _ ch, checksContext_of_onContext rfl, ?_⟩
  rintro _ _ n hopen rfl rfl hn
  have hlen := (codeBits_length (s.ctx ch.toNat).K.toNat (zigzag s.argl).toNat).trans hn.symm
  rw [raises, exec_ecEnc hopen]
  exact ⟨fun hroom => finish_workingCopy_fits _ s hlen hroom, fun hfull => finish_workingCopy_noRoom _ s hlen hfull⟩

end Sys2Proof.Machine
end

section
/-! SUPPORT. The reading of a code where its bits are held as far as the limit (spec/42_entropy.md R184, R185), and
EC_DEC (R191). -/

namespace Sys2Proof.Machine

variable {m : List Host.Cell} {limit p n k u : Nat} {ch : BitVec 4} {s : State}

/-! Bits that are held below a limit. -/

theorem holdsBitsBelow_append {xs ys : List Bool} (h : holdsBitsBelow m limit p (xs ++ ys)) :
    holdsBitsBelow m limit p xs ∧ holdsBitsBelow m limit (p + xs.length) ys := by
  refine ⟨fun i b hb hi => h i b ?_ hi, fun i b hb hi => ?_⟩
  · obtain ⟨hlt, -⟩ := List.getElem?_eq_some_iff.1 hb
    rw [List.getElem?_append_left hlt, hb]
  · rw [Nat.add_assoc] at hi ⊢
    exact h _ b (by rw [List.getElem?_append_right (Nat.le_add_right _ _), Nat.add_sub_cancel_left, hb]) hi

theorem bitRead_of_holdsOnesBelow (h : holdsBitsBelow m limit p (List.replicate n true)) {i : Nat} (hi : i < n)
    (hlimit : p + i < limit) : bitRead m (p + i) = true :=
  h i true (List.getElem?_replicate_of_lt hi) hlimit

/-- A field that is held below the limit is read as its value modulo its width. -/
theorem readField_held (h : holdsBitsBelow m limit p (fieldBits n u)) (hlimit : p + n ≤ limit) :
    readField m limit n p 0 = .got (u % 2 ^ n) (p + n) := by
  rw [readField_eq, if_pos (.inr hlimit),
    fieldValue_eq m n p u fun i hi => h i _ (fieldBits_getElem n u i hi) (by omega)]

/-- A field that the limit cuts is truncated. -/
theorem readField_cut (hp : p ≤ limit) (hcut : limit < p + n) : readField m limit n p 0 = .failed .truncated := by
  rw [readField_eq, if_neg (by omega)]

/-- A quotient of ones that the limit cuts is truncated. -/
theorem readQuotient_cut (hcut : limit < p + 16) (hones : ∀ i, p + i < limit → bitRead m (p + i) = true) :
    readQuotient m limit Config.qEsc p 0 = .failed .truncated :=
  readQuotient_truncated m limit 16 p 0 (limit - p) (by omega) (by omega) fun i _ hi => hones i hi

/-! The reading of a code. -/

/-- Sixteen ones and any 32 bits: cut by the limit, an escape that needed none, or an escape (R184, R185). -/
theorem readCode_ones (hu : u < 2 ^ 32)
    (h : holdsBitsBelow m limit p (List.replicate 16 true ++ fieldBits 32 u)) :
    (limit < p + 48 → readCode m limit k p = .failed .truncated) ∧
      (p + 48 ≤ limit → u >>> k < 16 → readCode m limit k p = .failed .badEscape) ∧
        (p + 48 ≤ limit → 16 ≤ u >>> k → readCode m limit k p = .got u (p + 48)) := by
  obtain ⟨hones, hfield⟩ := holdsBitsBelow_append h
  rw [List.length_replicate] at hfield
  have hescape (hlimit : p + 16 ≤ limit) : readQuotient m limit Config.qEsc p 0 = .got 16 (p + 16) :=
    readQuotient_full m limit 16 p 0 hlimit fun i hi => bitRead_of_holdsOnesBelow hones hi (by omega)
  have hvalue (hlimit : p + 48 ≤ limit) : readField m limit 32 (p + 16) 0 = .got u (p + 48) := by
    rw [readField_held hfield hlimit, Nat.mod_eq_of_lt hu]
  refine ⟨fun hcut => ?_, fun hlimit hq => ?_, fun hlimit hq => ?_⟩
  · rcases Nat.lt_or_ge limit (p + 16) with hlt | hge
    · exact readCode_failed _ _ _ _ _
        (readQuotient_cut hlt fun i hi => bitRead_of_holdsOnesBelow hones (by omega) hi)
    · rw [readCode_escape _ _ _ _ _ (hescape hge), readField_cut hge (show limit < p + 16 + 32 by omega)]
  · rw [readCode_escape _ _ _ _ _ (hescape (by omega)), hvalue hlimit]
    exact if_pos hq
  · rw [readCode_escape _ _ _ _ _ (hescape (by omega)), hvalue hlimit]
    exact if_neg (Nat.not_lt.2 hq)

/-- A code in the unary form: its value, or cut by the limit in its quotient or in its low bits. -/
theorem readCode_unary (hq : u >>> k < 16) (h : holdsBitsBelow m limit p (codeBits k u)) :
    (p + (u >>> k + 1 + k) ≤ limit → readCode m limit k p = .got u (p + (u >>> k + 1 + k))) ∧
      (limit < p + (u >>> k + 1 + k) → readCode m limit k p = .failed .truncated) := by
  rw [codeBits_unary k u hq] at h
  have hvalue : u >>> k * 2 ^ k + u % 2 ^ k = u := by
    rw [Nat.shiftRight_eq_div_pow]
    exact Nat.div_add_mod' u (2 ^ k)
  generalize u >>> k = q at *
  obtain ⟨hones, hrest⟩ := holdsBitsBelow_append h
  obtain ⟨hzero, hfield⟩ := holdsBitsBelow_append (xs := [false]) hrest
  rw [List.length_replicate] at hzero hfield
  rw [List.length_singleton] at hfield
  have hquotient (hlimit : p + q < limit) : readQuotient m limit Config.qEsc p 0 = .got q (p + q + 1) := by
    have hread := readQuotient_got m limit 16 p 0 q hq hlimit
      (fun i hi => bitRead_of_holdsOnesBelow hones hi (by omega)) (hzero 0 false rfl hlimit)
    rwa [Nat.zero_add] at hread
  have hend : p + (q + 1 + k) = p + q + 1 + k := by omega
  rw [hend]
  refine ⟨fun hlimit => ?_, fun hcut => ?_⟩
  · rw [readCode_quotient _ _ _ _ _ _ (hquotient (by omega)) (Nat.ne_of_lt hq), readField_held hfield hlimit]
    exact congrArg (Taken.got · _) hvalue
  · rcases Nat.lt_or_ge (p + q) limit with hlt | hge
    · rw [readCode_quotient _ _ _ _ _ _ (hquotient hlt) (Nat.ne_of_lt hq), readField_cut hlt hcut]
    · exact readCode_failed _ _ _ _ _
        (readQuotient_cut (by omega) fun i hi => bitRead_of_holdsOnesBelow hones (by omega) hi)

/-- A code that is held below the limit is read as its value, and one that the limit cuts is truncated. -/
theorem readCode_codeBits (hu : u < 2 ^ 32) (h : holdsBitsBelow m limit p (codeBits k u)) :
    (p + (codeBits k u).length ≤ limit → readCode m limit k p = .got u (p + (codeBits k u).length)) ∧
      (limit < p + (codeBits k u).length → readCode m limit k p = .failed .truncated) := by
  rcases Nat.lt_or_ge (u >>> k) 16 with hq | hq
  · rw [codeBits_length_unary hq]
    exact readCode_unary hq h
  · rw [codeBits_length_escape hq]
    rw [codeBits_escape k u hq] at h
    obtain ⟨hcut, -, hgot⟩ := readCode_ones (k := k) hu h
    exact ⟨fun hlimit => hgot hlimit hq, hcut⟩

/-! EC_DEC (R191). -/

theorem exec_ecDec (h : s.opens ch) :
    exec (.ecDec ch) s = finish (.ecDec ch) s
      (s.take (readCode s.buf s.readLimit (s.ctx ch.toNat).K.toNat s.rpos.toNat) fun t u =>
        .done { t.setCtx ch.toNat (coderUpdate s.depth u (s.ctx ch.toNat)) with
          result := unzigzag (BitVec.ofNat 32 u) }) :=
  exec_of_opens (body := fun c =>
    s.take (readCode s.buf s.readLimit c.K.toNat s.rpos.toNat) fun t u =>
      .done { t.setCtx ch.toNat (coderUpdate s.depth u c) with result := unzigzag (BitVec.ofNat 32 u) }) h rfl

/-- A code that is read becomes RESULT and updates the coder. -/
theorem exec_ecDec_got (h : s.opens ch) {u : Word}
    (hread : readCode s.buf s.readLimit (s.ctx ch.toNat).K.toNat s.rpos.toNat = .got u.toNat p) :
    exec (.ecDec ch) s = .next { s.setCtx ch.toNat (coderUpdate s.depth u.toNat (s.ctx ch.toNat)) with
      rpos := BitVec.ofNat 20 p
      result := unzigzag u
      cmdCount := s.cmdCount + 1#32 } := by
  rw [exec_ecDec h, hread, take_got, finish_done, BitVec.ofNat_toNat, BitVec.setWidth_eq]
  rfl

theorem raises_ecDec (h : s.opens ch) {c : Cause}
    (hread : readCode s.buf s.readLimit (s.ctx ch.toNat).K.toNat s.rpos.toNat = .failed c) :
    raises (.ecDec ch) s c := by
  rw [raises, exec_ecDec h, hread, take_failed, finish_raised]

/-- Settles O31: EC_DEC ends as the reading of its code does. -/
theorem ecDecReadsTheCode : Obligations.EcDecReadsTheCode := by
  refine fun ch s => ⟨packWord_channel _ ch, checksContext_of_onContext rfl, ?_⟩
  rintro _ u hopen rfl
  refine ⟨fun hheld => ?_, fun hheld => ?_⟩
  · obtain ⟨hgot, hcut⟩ := readCode_codeBits u.isLt hheld
    exact ⟨fun hlimit => exec_ecDec_got hopen (hgot hlimit), fun hlimit => raises_ecDec hopen (hcut hlimit)⟩
  · obtain ⟨hcut, hbad, -⟩ := readCode_ones u.isLt hheld
    exact ⟨fun hlimit => raises_ecDec hopen (hcut hlimit),
      fun hlimit hq => raises_ecDec hopen (hbad hlimit hq)⟩

end Sys2Proof.Machine
end

section
/-! SUPPORT. The coders are inverse to each other (spec/42_entropy.md R194, spec/43_filter.md R223): a machine whose
context agrees with the encoder's, and whose bits are those written, decodes what was coded and ends in the same
context. -/

namespace Sys2Proof.Machine

variable {s d : State} {ch : BitVec 4} {p q k : Nat} {bits : List Bool}

/-! What encoder and decoder share. -/

/-- A channel that a legal configuration has is one of the contexts. -/
theorem channel_lt (h : s.opens ch) (hlegal : cfgLegal s.active = true) : ch.toNat < 8 := by
  obtain ⟨-, hch⟩ := h
  obtain ⟨-, -, -, -, hnch⟩ := (cfgLegal_iff _).1 hlegal
  exact Nat.lt_of_lt_of_le hch hnch

/-- In a state whose contexts are those of `s` with the channel's replaced, the channel has the replacement. -/
theorem ctx_of_opens {t : State} (h : s.opens ch) (hlegal : cfgLegal s.active = true) {x : Ctx}
    (ht : t.ctxs = (s.setCtx ch.toNat x).ctxs) : t.ctx ch.toNat = x := by
  rw [ctx_of_setCtx s t _ x ht, if_pos ⟨rfl, channel_lt h hlegal⟩]

/-- A place within the buffer is held exactly in a cursor. -/
theorem cursor_toNat (h : p ≤ Config.capBits) : (BitVec.ofNat 20 p).toNat = p := by
  rw [BitVec.toNat_ofNat]
  exact Nat.mod_eq_of_lt (Nat.lt_of_le_of_lt h (by decide))

theorem readLimit_le (s : State) : s.readLimit ≤ Config.capBits := Nat.min_le_right _ _

/-- Bits that stand where they were written stand where they are copied to, below any limit. -/
theorem holdsBitsBelow_of_copy {m m' : List Host.Cell} {limit : Nat} (h : holdsBits m p bits)
    (hcopy : ∀ i, i < bits.length → bitRead m' (q + i) = bitRead m (p + i)) : holdsBitsBelow m' limit q bits := by
  intro i b hb _
  obtain ⟨hlt, -⟩ := List.getElem?_eq_some_iff.1 hb
  rw [hcopy i hlt, h i b hb]

/-- A value whose code was written at `p` is read from a copy of its bits at RPOS. -/
theorem readCode_of_copy {b : List Host.Cell} (u : Word) (hheld : holdsBits b p (codeBits k u.toNat))
    (hcopy : ∀ i, i < (codeBits k u.toNat).length → bitRead d.buf (d.rpos.toNat + i) = bitRead b (p + i))
    (hlimit : d.rpos.toNat + (codeBits k u.toNat).length ≤ d.readLimit) :
    readCode d.buf d.readLimit k d.rpos.toNat = .got u.toNat (d.rpos.toNat + (codeBits k u.toNat).length) :=
  (readCode_codeBits u.isLt (holdsBitsBelow_of_copy hheld hcopy)).1 hlimit

/-- Settles O33: the code that EC_ENC wrote (O30) is read back as the value it codes. -/
theorem entropyCodeRoundTrip : Obligations.EntropyCodeRoundTrip := by
  rintro ch ch' s d _ hopen hlegal rfl hroom
  obtain ⟨-, -, henc⟩ := ecEncWritesTheCode ch s
  obtain ⟨hfits, -⟩ := henc _ _ _ hopen rfl rfl (codeBits_length _ _)
  obtain ⟨b, hexec, hheld, -⟩ := hfits hroom
  refine ⟨_, hexec, cursor_toNat hroom, fun hopen' hactive hctx hcopy hlimit => ?_⟩
  have hread := readCode_of_copy (zigzag s.argl) hheld hcopy hlimit
  rw [← hctx] at hread
  have hdepth : d.depth = s.depth := congrArg cfgDepth hactive
  have hupdate : coderUpdate d.depth (zigzag s.argl).toNat (d.ctx ch'.toNat) =
      coderUpdate s.depth (zigzag s.argl).toNat (s.ctx ch.toNat) := by rw [hdepth, hctx]
  refine ⟨_, exec_ecDec_got hopen' hread, unzigzag_zigzag _, ?_, ?_⟩
  · exact (ctx_of_opens hopen' (hactive ▸ hlegal) rfl).trans (hupdate.trans (ctx_of_opens hopen hlegal rfl).symm)
  · rw [hctx]
    exact cursor_toNat (Nat.le_trans hlimit (readLimit_le d))

/-! The filter cascade (spec/43_filter.md R223). -/

/-- Decoding a stage's residual rebuilds its input and leaves the stage as encoding did. -/
theorem stageDec_stageEnc (q : StageParam) (st : Stage) (x : Word) :
    stageDec q st (stageEnc q st x).2 = ((stageEnc q st x).1, x) := by
  have hx : wrap32 ((stageEnc q st x).2.toInt + predict q st) = x := wrap32_sub_add x _
  rw [stageDec, hx]
  rfl

/-- Decoding the residual of the cascade rebuilds its input and leaves the stages as encoding did. -/
theorem filterDec_filterEnc (qs : List StageParam) (sts : List Stage) (x : Word) :
    filterDec qs sts (filterEnc qs sts x).2 = ((filterEnc qs sts x).1, x) := by
  induction qs generalizing sts x with
  | nil => rfl
  | cons q qs ih =>
    cases sts with
    | nil => rfl
    | cons st sts => simp only [filterEnc, filterDec, ih, stageDec_stageEnc]

/-! SMP_ENC and SMP_DEC (spec/44_frame_pipeline.md R241, R242). -/

/-- A sample in range on a channel that exists is filtered to a residual, whose code is stored by a working copy that
holds the updated context. -/
theorem exec_smpEnc_inRange (h : s.opens ch) (hrange : inSampleRange s.depth s.argl.toInt = true) {sts : List Stage}
    {r : Word} (hfilter : filterEnc (stagesOf s.level) (s.ctx ch.toNat).stages s.argl = (sts, r)) :
    exec (.smpEnc ch) s = finish (.smpEnc ch) s
      (State.store
        { s.setCtx ch.toNat (coderUpdate s.depth (zigzag r).toNat { s.ctx ch.toNat with stages := sts }) with
          result := r }
        (codeBits (s.ctx ch.toNat).K.toNat (zigzag r).toNat)) := by
  obtain ⟨hv, hc⟩ := h
  simp only [exec, execSmpEnc]
  rw [onContext_opens s ch _ hv hc, if_pos hrange, hfilter]

/-- With room for its code the sample is coded. -/
theorem exec_smpEnc_fits (h : s.opens ch) (hrange : inSampleRange s.depth s.argl.toInt = true) {sts : List Stage}
    {r : Word} (hfilter : filterEnc (stagesOf s.level) (s.ctx ch.toNat).stages s.argl = (sts, r)) {n : Nat}
    (hn : (codeBits (s.ctx ch.toNat).K.toNat (zigzag r).toNat).length = n)
    (hroom : s.wpos.toNat + n ≤ Config.capBits) :
    ∃ b, exec (.smpEnc ch) s = .next
        { s.setCtx ch.toNat (coderUpdate s.depth (zigzag r).toNat { s.ctx ch.toNat with stages := sts }) with
          buf := b
          wpos := BitVec.ofNat 20 (s.wpos.toNat + n)
          result := r
          cmdCount := s.cmdCount + 1#32 } ∧
      holdsBits b s.wpos.toNat (codeBits (s.ctx ch.toNat).K.toNat (zigzag r).toNat) ∧
        storedOnly s.buf b s.wpos.toNat n := by
  rw [exec_smpEnc_inRange h hrange hfilter]
  exact finish_workingCopy_fits _ s hn hroom

/-- A code that is read is decoded and filtered to a sample, and one in range becomes RESULT. -/
theorem exec_smpDec_inRange (h : d.opens ch) {u : Word} {sts : List Stage} {x : Word}
    (hread : readCode d.buf d.readLimit (d.ctx ch.toNat).K.toNat d.rpos.toNat = .got u.toNat p)
    (hfilter : filterDec (stagesOf d.level) (d.ctx ch.toNat).stages (unzigzag u) = (sts, x))
    (hrange : inSampleRange d.depth x.toInt = true) :
    exec (.smpDec ch) d = .next
      { d.setCtx ch.toNat (coderUpdate d.depth u.toNat { d.ctx ch.toNat with stages := sts }) with
        rpos := BitVec.ofNat 20 p
        result := x
        cmdCount := d.cmdCount + 1#32 } := by
  obtain ⟨hv, hc⟩ := h
  simp only [exec, execSmpDec]
  rw [onContext_opens d ch _ hv hc, hread, take_got]
  simp only [BitVec.ofNat_toNat, BitVec.setWidth_eq, hfilter]
  rw [if_pos hrange]
  rfl

/-- Settles O45: the code that SMP_ENC wrote is read back as its residual, which the cascade turns into the sample. -/
theorem sampleCodingIsLossless : Obligations.SampleCodingIsLossless := by
  rintro ch ch' s d n hopen hlegal hrange hn hroom
  rcases hfilter : filterEnc (stagesOf s.level) (s.ctx ch.toNat).stages s.argl with ⟨sts, r⟩
  rw [hfilter] at hn
  subst hn
  obtain ⟨b, hexec, hheld, -⟩ := exec_smpEnc_fits hopen hrange hfilter rfl hroom
  refine ⟨_, hexec, cursor_toNat hroom, fun hopen' hactive hctx hcopy hlimit => ?_⟩
  have hread := readCode_of_copy (zigzag r) hheld hcopy hlimit
  rw [← hctx] at hread
  have hdepth : d.depth = s.depth := congrArg cfgDepth hactive
  have hlevel : d.level = s.level := congrArg cfgLevel hactive
  have hrebuild : filterDec (stagesOf d.level) (d.ctx ch'.toNat).stages (unzigzag (zigzag r)) = (sts, s.argl) := by
    have hinverse := filterDec_filterEnc (stagesOf s.level) (s.ctx ch.toNat).stages s.argl
    rw [hfilter] at hinverse
    rw [unzigzag_zigzag, hlevel, hctx, hinverse]
  have hupdate : coderUpdate d.depth (zigzag r).toNat { d.ctx ch'.toNat with stages := sts } =
      coderUpdate s.depth (zigzag r).toNat { s.ctx ch.toNat with stages := sts } := by rw [hdepth, hctx]
  refine ⟨_, exec_smpDec_inRange hopen' hread hrebuild (hdepth ▸ hrange), rfl, ?_, ?_⟩
  · exact (ctx_of_opens hopen' (hactive ▸ hlegal) rfl).trans (hupdate.trans (ctx_of_opens hopen hlegal rfl).symm)
  · rw [hctx]
    exact cursor_toNat (Nat.le_trans hlimit (readLimit_le d))

end Sys2Proof.Machine
end

section
/-! SUPPORT. The filter of spec/43_filter.md: one stage's prediction, adaptation and history (R214 to R219), and
what goes through the stages of the cascade (R220, R221). -/

namespace Sys2Proof.Machine

variable {q : StageParam} {qs : List StageParam} {st : Stage} {sts sts' : List Stage} {x y r : Word}

/-! The prediction (R213, R214). -/

theorem clamp_eq_max_min {lo hi : Int} (v : Int) (h : lo ≤ hi) : clamp lo hi v = max lo (min hi v) := by
  unfold clamp
  split <;> [skip; split] <;> omega

theorem sgn_eq_sign (v : Int) : sgn v = v.sign := by
  rcases sgn_cases v with ⟨hv, hsgn⟩ | ⟨rfl, hsgn⟩ | ⟨hv, hsgn⟩
  · rw [hsgn, Int.sign_eq_one_of_pos hv]
  · exact hsgn
  · rw [hsgn, Int.sign_eq_neg_one_of_neg hv]

theorem dot_eq_sum (w : List (BitVec 16)) (h : List (BitVec 32)) (hlen : w.length = h.length) :
    dot w h = (Finset.range h.length).sum fun i => (w.getD i 0).toInt * (h.getD i 0).toInt := by
  induction w generalizing h with
  | nil =>
    obtain rfl : h = [] := List.eq_nil_of_length_eq_zero hlen.symm
    rfl
  | cons a w ih =>
    cases h with
    | nil => cases hlen
    | cons b h =>
      rw [dot, ih h (Nat.succ.inj hlen), List.length_cons, Finset.sum_range_succ', Int.add_comm]
      rfl

/-- The model's quotient by a positive power of two is the floor division of R214. -/
theorem predict_eq (q : StageParam) (hlen : st.w.length = st.h.length) {acc : Int}
    (hacc : acc = (Finset.range st.h.length).sum fun i => (st.w.getD i 0).toInt * (st.h.getD i 0).toInt) :
    predict q st =
      max (-(2 : Int) ^ 31) (min ((2 : Int) ^ 31 - 1) ((acc + 2 ^ (q.shift - 1)).fdiv (2 ^ q.shift))) := by
  rw [predict, dot_eq_sum _ _ hlen, ← hacc, roundShift, clamp_eq_max_min _ (by decide),
    Int.fdiv_eq_ediv_of_nonneg _ (Int.pow_nonneg (by decide))]

/-! The adaptation and the history (R217, R218). -/

/-- The clamp keeps an adapted coefficient within its 16 bits, so the field holds it exactly. -/
theorem adaptCoeff_toInt (step e : Int) (w : BitVec 16) (h : BitVec 32) :
    (adaptCoeff step e w h).toInt = max (-32768) (min 32767 (w.toInt + step * e * h.toInt.sign)) := by
  obtain ⟨hlo, hhi⟩ := clamp_le Config.wMin Config.wMax (w.toInt + step * e * sgn h.toInt) (by decide)
  rw [adaptCoeff, BitVec.toInt_ofInt_eq_self (by decide) hlo (Int.lt_of_le_of_lt hhi (by decide)), sgn_eq_sign]
  exact clamp_eq_max_min _ (by decide)

theorem adapt_w_getD (q : StageParam) (e : Word) (hlen : st.w.length = st.h.length) {i : Nat}
    (hi : i < st.h.length) :
    (adapt q st e).w.getD i 0 = adaptCoeff q.step (sgn e.toInt) (st.w.getD i 0) (st.h.getD i 0) := by
  have hiw : i < st.w.length := hlen ▸ hi
  simp [adapt, hi, hiw]

theorem shiftIn_h_newest (x : Word) (h : 0 < st.h.length) : (shiftIn st x).h.getD 0 0 = x := by
  simp [shiftIn, h]

theorem shiftIn_h_older (x : Word) {i : Nat} (hi : i + 1 < st.h.length) :
    (shiftIn st x).h.getD (i + 1) 0 = st.h.getD i 0 := by
  simp [shiftIn, List.getElem?_take_of_lt hi]

/-- A stage adapted to a residual with an input shifted in, value by value. -/
theorem shiftIn_adapt_spec (q : StageParam) (e y : Word) (hpos : 0 < st.h.length)
    (hlen : st.w.length = st.h.length) {st' : Stage} (hst' : st' = shiftIn (adapt q st e) y) :
    st'.h.length = st.h.length ∧ st'.w.length = st.w.length ∧ st'.h.getD 0 0 = y ∧
      (∀ i, i + 1 < st.h.length → st'.h.getD (i + 1) 0 = st.h.getD i 0) ∧
      ∀ i, i < st.h.length →
        (st'.w.getD i 0).toInt = max (-32768) (min 32767
          ((st.w.getD i 0).toInt + q.step * e.toInt.sign * (st.h.getD i 0).toInt.sign)) := by
  subst hst'
  refine ⟨shiftIn_h_length _ y, adapt_w_length q st e hlen, shiftIn_h_newest y hpos,
    fun i hi => shiftIn_h_older y hi, fun i hi => ?_⟩
  rw [shiftIn_w, adapt_w_getD q e hlen hi, adaptCoeff_toInt, sgn_eq_sign]

/-- Settles O34: encoding and decoding share the prediction, and both adapt to the residual and shift in the input. -/
theorem stageStepFollowsTheRules : Obligations.StageStepFollowsTheRules := by
  intro q st x r acc p hpos hlen _ hacc hp
  obtain rfl : p = predict q st := hp.trans (predict_eq q hlen hacc).symm
  refine ⟨rfl, rfl, stageDec_stageEnc q st x, fun st' e y hmove => shiftIn_adapt_spec q e y hpos hlen ?_⟩
  rcases hmove with ⟨henc, rfl⟩ | ⟨hdec, rfl⟩
  · cases henc
    rfl
  · cases hdec
    rfl

/-! What goes through the cascade (R220, R221). -/

/-- The words at the ends of the stages when a stage with the word `x` at its input comes first. -/
def wordsFrom (x : Word) (xs : Nat → Word) : Nat → Word
  | 0 => x
  | j + 1 => xs j

theorem encodesThrough_cons (h : encodesThrough qs sts (stageEnc q st x).2 sts' r) :
    encodesThrough (q :: qs) (st :: sts) x ((stageEnc q st x).1 :: sts') r := by
  obtain ⟨xs, hfirst, hlast, hlen, hstage⟩ := h
  refine ⟨wordsFrom x xs, rfl, hlast, congrArg Nat.succ hlen, fun j q' st' hq hst => ?_⟩
  cases j with
  | zero =>
    obtain rfl : q = q' := Option.some.inj hq
    obtain rfl : st = st' := Option.some.inj hst
    exact ⟨rfl, hfirst⟩
  | succ j => exact hstage j q' st' hq hst

theorem decodesThrough_cons (h : decodesThrough qs sts r sts' y) :
    decodesThrough (q :: qs) (st :: sts) r ((stageDec q st y).1 :: sts') (stageDec q st y).2 := by
  obtain ⟨ys, hlast, hfirst, hlen, hstage⟩ := h
  refine ⟨wordsFrom (stageDec q st y).2 ys, hlast, rfl, congrArg Nat.succ hlen, fun j q' st' hq hst => ?_⟩
  cases j with
  | zero =>
    obtain rfl : q = q' := Option.some.inj hq
    obtain rfl : st = st' := Option.some.inj hst
    subst hfirst
    exact ⟨rfl, rfl⟩
  | succ j => exact hstage j q' st' hq hst

theorem encodesThrough_filterEnc (qs : List StageParam) (sts : List Stage) (x : Word) :
    encodesThrough qs sts x (filterEnc qs sts x).1 (filterEnc qs sts x).2 := by
  induction qs generalizing sts x with
  | nil => exact ⟨fun _ => x, rfl, rfl, rfl, nofun⟩
  | cons q qs ih =>
    cases sts with
    | nil => exact ⟨fun _ => x, rfl, rfl, rfl, nofun⟩
    | cons st sts => exact encodesThrough_cons (ih sts _)

theorem decodesThrough_filterDec (qs : List StageParam) (sts : List Stage) (r : Word) :
    decodesThrough qs sts r (filterDec qs sts r).1 (filterDec qs sts r).2 := by
  induction qs generalizing sts with
  | nil => exact ⟨fun _ => r, rfl, rfl, rfl, nofun⟩
  | cons q qs ih =>
    cases sts with
    | nil => exact ⟨fun _ => r, rfl, rfl, rfl, nofun⟩
    | cons st sts => exact decodesThrough_cons (ih sts)

/-- Settles O35: the table of R211 and the states of R212 written out. -/
theorem initialFilterStateIsPrimed : Obligations.InitialFilterStateIsPrimed :=
  ⟨rfl, rfl, rfl, rfl, initialStages_zero, rfl, rfl, rfl⟩

end Sys2Proof.Machine
end

section
/-! SUPPORT. The filter chain commands (spec/43_filter.md R220 to R223): what FC_ENC and FC_DEC do with a sample in
range and with one out of it, FC_RESET, and FC_DEC after FC_ENC. -/

namespace Sys2Proof.Machine

variable {s : State} {ch : BitVec 4} {sts : List Stage} {v : Word}

/-! The B-bit range. -/

theorem inSampleRange_iff (b : Nat) (v : Int) :
    inSampleRange b v = true ↔ -(2 : Int) ^ (b - 1) ≤ v ∧ v ≤ (2 : Int) ^ (b - 1) - 1 := by
  rw [inSampleRange, Bool.and_eq_true, decide_eq_true_iff, decide_eq_true_iff]

theorem not_inSampleRange_iff (b : Nat) (v : Int) :
    ¬ inSampleRange b v = true ↔ v < -(2 : Int) ^ (b - 1) ∨ (2 : Int) ^ (b - 1) - 1 < v := by
  rw [inSampleRange_iff, not_and_or, Int.not_le, Int.not_le]

/-! FC_ENC (R220). -/

theorem exec_fcEnc (h : s.opens ch) (hfilter : (sts, v) = filterEnc (stagesOf s.level) (s.ctx ch.toNat).stages s.argl) :
    exec (.fcEnc ch) s = finish (.fcEnc ch) s
      (if inSampleRange s.depth s.argl.toInt then
        .done { s.setCtx ch.toNat { s.ctx ch.toNat with stages := sts } with result := v }
      else .raised .sampleRange) := by
  obtain ⟨rfl, rfl⟩ := Prod.mk.inj hfilter
  exact exec_of_opens (body := fun c =>
    if inSampleRange s.depth s.argl.toInt then
      let out := filterEnc (stagesOf s.level) c.stages s.argl
      .done { s.setCtx ch.toNat { c with stages := out.1 } with result := out.2 }
    else .raised .sampleRange) h rfl

/-- A sample in range completes with its residual and the stages it leaves. -/
theorem exec_fcEnc_inRange (h : s.opens ch) (hrange : inSampleRange s.depth s.argl.toInt = true)
    (hfilter : (sts, v) = filterEnc (stagesOf s.level) (s.ctx ch.toNat).stages s.argl) :
    exec (.fcEnc ch) s = .next { s.setCtx ch.toNat { s.ctx ch.toNat with stages := sts } with
      result := v
      cmdCount := s.cmdCount + 1#32 } := by
  rw [exec_fcEnc h hfilter, if_pos hrange]
  rfl

theorem raises_fcEnc (h : s.opens ch) (hrange : ¬ inSampleRange s.depth s.argl.toInt = true) :
    raises (.fcEnc ch) s .sampleRange := by
  rw [raises, exec_fcEnc h rfl, if_neg hrange, finish_raised]

/-- Settles O36: a sample in range goes through the cascade, and at level 0 there is no stage to go through. -/
theorem fcEncRunsTheCascade : Obligations.FcEncRunsTheCascade := by
  refine fun ch s => ⟨packWord_channel _ ch, checksContext_of_onContext rfl, fun h =>
    ⟨fun hrange => ?_, fun hout => ?_⟩⟩
  · refine ⟨_, _, rfl, fun _ => encodesThrough_filterEnc _ _ _,
      exec_fcEnc_inRange h ((inSampleRange_iff _ _).2 hrange) rfl, fun hlevel => ?_⟩
    rw [hlevel]
    exact ⟨rfl, rfl⟩
  · exact raises_fcEnc h ((not_inSampleRange_iff _ _).2 hout)

/-! FC_DEC (R221). -/

theorem exec_fcDec (h : s.opens ch) (hfilter : (sts, v) = filterDec (stagesOf s.level) (s.ctx ch.toNat).stages s.argl) :
    exec (.fcDec ch) s = finish (.fcDec ch) s
      (if inSampleRange s.depth v.toInt then
        .done { s.setCtx ch.toNat { s.ctx ch.toNat with stages := sts } with result := v }
      else .raised .sampleOutOfRange) := by
  obtain ⟨rfl, rfl⟩ := Prod.mk.inj hfilter
  exact exec_of_opens (body := fun c =>
    let out := filterDec (stagesOf s.level) c.stages s.argl
    if inSampleRange s.depth out.2.toInt then
      .done { s.setCtx ch.toNat { c with stages := out.1 } with result := out.2 }
    else .raised .sampleOutOfRange) h rfl

/-- A residual of a sample in range completes with the sample and the stages it leaves. -/
theorem exec_fcDec_inRange (h : s.opens ch)
    (hfilter : (sts, v) = filterDec (stagesOf s.level) (s.ctx ch.toNat).stages s.argl)
    (hrange : inSampleRange s.depth v.toInt = true) :
    exec (.fcDec ch) s = .next { s.setCtx ch.toNat { s.ctx ch.toNat with stages := sts } with
      result := v
      cmdCount := s.cmdCount + 1#32 } := by
  rw [exec_fcDec h hfilter, if_pos hrange]
  rfl

theorem raises_fcDec (h : s.opens ch)
    (hfilter : (sts, v) = filterDec (stagesOf s.level) (s.ctx ch.toNat).stages s.argl)
    (hrange : ¬ inSampleRange s.depth v.toInt = true) : raises (.fcDec ch) s .sampleOutOfRange := by
  rw [raises, exec_fcDec h hfilter, if_neg hrange, finish_raised]

/-- Settles O37: a residual goes back through the cascade, and what it comes to is a sample if it is in range. -/
theorem fcDecRunsTheCascadeBackwards : Obligations.FcDecRunsTheCascadeBackwards := by
  refine fun ch s sts v => ⟨packWord_channel _ ch, checksContext_of_onContext rfl, fun h hfilter =>
    ⟨fun _ => ?_, fun hrange => exec_fcDec_inRange h hfilter ((inSampleRange_iff _ _).2 hrange),
      fun hout => raises_fcDec h hfilter ((not_inSampleRange_iff _ _).2 hout), fun hlevel => ?_⟩⟩
  · obtain ⟨rfl, rfl⟩ := Prod.mk.inj hfilter
    exact decodesThrough_filterDec _ _ _
  · rw [hlevel] at hfilter
    exact (Prod.mk.inj hfilter).symm

/-! FC_RESET (R222). -/

theorem exec_fcReset (h : s.opens ch) :
    exec (.fcReset ch) s = .next (s.setCtx ch.toNat (filterReset s.level (s.ctx ch.toNat))).count :=
  exec_of_opens (body := fun c => .done (s.setCtx ch.toNat (filterReset s.level c))) h rfl

/-- At level 0 there is no stage to reset. -/
theorem filterReset_levelZero {c : Ctx} (h : c.stages = []) : filterReset 0 c = c := by
  rw [filterReset, initialStages_zero, ← h]

/-- Replacing a context by itself changes no context. -/
theorem ctx_setCtx_same (s : State) (c j : Nat) : (s.setCtx c (s.ctx c)).ctx j = s.ctx j := by
  rw [ctx_setCtx]
  split
  · next hj => rw [hj.1]
  · rfl

/-- Settles O38: past the checks FC_RESET replaces its context by the reset one, the same at level 0. -/
theorem fcResetSetsTheInitialFilterState : Obligations.FcResetSetsTheInitialFilterState := by
  refine fun ch s => ⟨packWord_channel _ ch, checksContext_of_onContext rfl, fun h =>
    ⟨exec_fcReset h, fun hlevel hempty t ht c => ?_⟩⟩
  rw [exec_fcReset h, hlevel, filterReset_levelZero hempty] at ht
  cases ht
  exact ctx_setCtx_same s ch.toNat c

/-! FC_DEC after FC_ENC (R223). -/

/-- In a state whose contexts are those of `s` with the channel's stages replaced, the channel has the replacement. -/
theorem stages_of_opens {t : State} (h : s.opens ch) (hlegal : cfgLegal s.active = true)
    (ht : t.ctxs = (s.setCtx ch.toNat { s.ctx ch.toNat with stages := sts }).ctxs) :
    (t.ctx ch.toNat).stages = sts := by
  rw [ctx_of_opens h hlegal ht]

/-- Settles O39: the cascade run backwards on the residual rebuilds the sample, whose range FC_ENC has checked. -/
theorem filterChainIsReversible : Obligations.FilterChainIsReversible := by
  intro ch ch' s d hopen hlegal hrange
  refine ⟨_, exec_fcEnc_inRange hopen hrange rfl, rfl, fun hopen' hactive hstages hargl => ?_⟩
  have hdepth : d.depth = s.depth := congrArg cfgDepth hactive
  have hlevel : d.level = s.level := congrArg cfgLevel hactive
  have hrebuild : filterDec (stagesOf d.level) (d.ctx ch'.toNat).stages d.argl =
      ((filterEnc (stagesOf s.level) (s.ctx ch.toNat).stages s.argl).1, s.argl) := by
    rw [hlevel, hstages, hargl]
    exact filterDec_filterEnc _ _ _
  refine ⟨_, exec_fcDec_inRange hopen' hrebuild.symm (hdepth ▸ hrange), rfl, rfl, rfl, ?_⟩
  exact (stages_of_opens hopen' (hactive ▸ hlegal) rfl).trans (stages_of_opens hopen hlegal rfl).symm

end Sys2Proof.Machine
end

section
/-! SUPPORT. FRAME_START (spec/44_frame_pipeline.md R240, R244): the fields of CONFIG as numbers, what a legal CONFIG
is, and the two ways the command ends. -/

namespace Sys2Proof.Machine

variable {s : State}

/-! The fields of CONFIG (spec/10_state.md R53). -/

theorem cfgLevel_eq (c : Word) : cfgLevel c = c.toNat % 16 := by
  rw [cfgLevel, BitVec.extractLsb'_toNat, Nat.shiftRight_zero]

theorem cfgDepth_eq (c : Word) : cfgDepth c = c.toNat / 256 % 32 := by
  rw [cfgDepth, BitVec.extractLsb'_toNat, Nat.shiftRight_eq_div_pow]

theorem cfgChannels_eq (c : Word) : cfgChannels c = c.toNat / 65536 % 16 + 1 := by
  rw [cfgChannels, BitVec.extractLsb'_toNat, Nat.shiftRight_eq_div_pow]

/-- A field of a word is 0 as bits exactly when it is 0 as a number. -/
theorem extractLsb'_eq_zero_iff (c : Word) (start len : Nat) :
    c.extractLsb' start len = 0#len ↔ c.toNat / 2 ^ start % 2 ^ len = 0 := by
  rw [← BitVec.toNat_inj, BitVec.extractLsb'_toNat, Nat.shiftRight_eq_div_pow, BitVec.toNat_zero]

theorem cfgReservedZero_iff (c : Word) :
    cfgReservedZero c = true ↔ c.toNat / 16 % 16 = 0 ∧ c.toNat / 8192 % 8 = 0 ∧ c.toNat / 1048576 = 0 := by
  have htop : c.toNat / 1048576 % 4096 = c.toNat / 1048576 := by
    have := c.isLt
    omega
  rw [cfgReservedZero, Bool.and_eq_true, Bool.and_eq_true, beq_iff_eq, beq_iff_eq, beq_iff_eq,
    extractLsb'_eq_zero_iff, extractLsb'_eq_zero_iff, extractLsb'_eq_zero_iff, and_assoc, ← htop]
  exact Iff.rfl

/-- The checks of R240 on the fields as numbers. -/
theorem cfgLegal_iff_fields (c : Word) :
    cfgLegal c = true ↔
      c.toNat / 16 % 16 = 0 ∧ c.toNat / 8192 % 8 = 0 ∧ c.toNat / 1048576 = 0 ∧ c.toNat % 16 ≤ 3 ∧
        8 ≤ c.toNat / 256 % 32 ∧ c.toNat / 256 % 32 ≤ 24 ∧ c.toNat / 65536 % 16 + 1 ≤ 8 := by
  rw [cfgLegal_iff, cfgReservedZero_iff, cfgLevel_eq, cfgDepth_eq, cfgChannels_eq, and_assoc, and_assoc]

/-! The command. -/

/-- A fresh context is the initial coder state (R193) with the level's initial filter state (R212). -/
theorem freshContext_eq (cfg : Word) :
    freshContext cfg =
      { S := BitVec.ofNat 30 (16 * 2 ^ (cfgDepth cfg / 2))
        K := BitVec.ofNat 5 (cfgDepth cfg / 2)
        stages := initialStages (cfgLevel cfg) } :=
  coderReset_eq (cfgDepth cfg) (freshContext cfg)

theorem exec_frameStart_legal (h : cfgLegal s.config = true) :
    exec .frameStart s = .next { s with
      active := s.config
      cfgValid := true
      ctxs := Vector.replicate 8 (freshContext s.config)
      frameWpos := s.wpos
      frameRpos := s.rpos
      cmdCount := s.cmdCount + 1#32 } := by
  rw [exec, execFrameStart, if_pos h]
  rfl

theorem raises_frameStart (h : ¬ cfgLegal s.config = true) : raises .frameStart s .unsupportedFormat := by
  rw [raises, exec, execFrameStart, if_neg h, finish_raised]

/-- Settles O40: FRAME_START ends as its one check on CONFIG does, and the contexts it replicates are fresh ones. -/
theorem frameStartLatchesAndResets : Obligations.FrameStartLatchesAndResets := by
  refine ⟨by decide, ?_⟩
  rintro s _ _ _ rfl rfl rfl
  refine ⟨fun hfields => ⟨_, exec_frameStart_legal ((cfgLegal_iff_fields _).2 hfields), fun c hc => ?_⟩,
    fun hfields => raises_frameStart fun hlegal => hfields ((cfgLegal_iff_fields _).1 hlegal)⟩
  rw [Vector.getElem?_replicate, if_pos hc, freshContext_eq, cfgLevel_eq, cfgDepth_eq]

/-- Settles O12: what FRAME_START puts in the contexts and in ACTIVE names no part of the state but CONFIG. -/
theorem frameStateDependsOnConfigAlone : Obligations.FrameStateDependsOnConfigAlone := by
  intro s₁ s₂ hconfig hlegal
  refine ⟨_, _, exec_frameStart_legal hlegal, exec_frameStart_legal (hconfig ▸ hlegal), ?_, hconfig, rfl, rfl⟩
  exact congrArg (fun cfg => Vector.replicate 8 (freshContext cfg)) hconfig

end Sys2Proof.Machine
end

section
/-! SUPPORT. The pipeline commands (spec/44_frame_pipeline.md R241, R242): what SMP_ENC does with a sample out of range
and with a code that does not fit, and how SMP_DEC ends when its code is read and when it is not. -/

namespace Sys2Proof.Machine

variable {s : State} {ch : BitVec 4} {sts : List Stage} {v : Word} {p : Nat}

/-! SMP_ENC (R241). -/

theorem raises_smpEnc_outOfRange (h : s.opens ch) (hrange : ¬ inSampleRange s.depth s.argl.toInt = true) :
    raises (.smpEnc ch) s .sampleRange := by
  obtain ⟨hv, hc⟩ := h
  rw [raises, exec, execSmpEnc, onContext_opens s ch _ hv hc, if_neg hrange, finish_raised]

theorem raises_smpEnc_noRoom (h : s.opens ch) (hrange : inSampleRange s.depth s.argl.toInt = true)
    (hfilter : filterEnc (stagesOf s.level) (s.ctx ch.toNat).stages s.argl = (sts, v)) {n : Nat}
    (hn : (codeBits (s.ctx ch.toNat).K.toNat (zigzag v).toNat).length = n)
    (hfull : Config.capBits < s.wpos.toNat + n) : raises (.smpEnc ch) s .noRoom := by
  rw [raises, exec_smpEnc_inRange h hrange hfilter]
  exact finish_workingCopy_noRoom _ s hn hfull

/-- Settles O41: a sample in range is filtered, and the code of its residual is stored or does not fit. -/
theorem smpEncFiltersAndCodes : Obligations.SmpEncFiltersAndCodes := by
  refine fun ch s => ⟨packWord_channel _ ch, checksContext_of_onContext rfl, ?_⟩
  rintro _ sts r _ n hopen rfl hfilter rfl hn
  have hlen := (codeBits_length (s.ctx ch.toNat).K.toNat (zigzag r).toNat).trans hn.symm
  refine ⟨fun hout => raises_smpEnc_outOfRange hopen ((not_inSampleRange_iff _ _).2 hout), fun hin => ?_⟩
  have hrange := (inSampleRange_iff _ _).2 hin
  exact ⟨fun hroom => exec_smpEnc_fits hopen hrange hfilter.symm hlen hroom,
    fun hfull => raises_smpEnc_noRoom hopen hrange hfilter.symm hlen hfull⟩

/-! SMP_DEC (R242). -/

/-- A value that is read is a residual, and the sample it comes to is the result if it is in range. -/
theorem exec_smpDec_got (h : s.opens ch) {u : Nat}
    (hread : readCode s.buf s.readLimit (s.ctx ch.toNat).K.toNat s.rpos.toNat = .got u p)
    (hfilter : (sts, v) =
      filterDec (stagesOf s.level) (s.ctx ch.toNat).stages (unzigzag (BitVec.ofNat 32 u))) :
    exec (.smpDec ch) s = finish (.smpDec ch) s
      (if inSampleRange s.depth v.toInt then
        .done { (takenTo s p).setCtx ch.toNat (coderUpdate s.depth u { s.ctx ch.toNat with stages := sts }) with
          result := v }
      else .raised .sampleOutOfRange) := by
  obtain ⟨hv, hc⟩ := h
  obtain ⟨rfl, rfl⟩ := Prod.mk.inj hfilter
  rw [exec, execSmpDec, onContext_opens s ch _ hv hc, hread, take_got]
  rfl

theorem raises_smpDec_outOfRange (h : s.opens ch) {u : Word}
    (hread : readCode s.buf s.readLimit (s.ctx ch.toNat).K.toNat s.rpos.toNat = .got u.toNat p)
    (hfilter : (sts, v) = filterDec (stagesOf s.level) (s.ctx ch.toNat).stages (unzigzag u))
    (hrange : ¬ inSampleRange s.depth v.toInt = true) : raises (.smpDec ch) s .sampleOutOfRange := by
  have hword : BitVec.ofNat 32 u.toNat = u := by rw [BitVec.ofNat_toNat, BitVec.setWidth_eq]
  rw [raises, exec_smpDec_got h hread (hword.symm ▸ hfilter), if_neg hrange, finish_raised]

theorem raises_smpDec_unread (h : s.opens ch) {c : Cause}
    (hread : readCode s.buf s.readLimit (s.ctx ch.toNat).K.toNat s.rpos.toNat = .failed c) :
    raises (.smpDec ch) s c := by
  obtain ⟨hv, hc⟩ := h
  rw [raises, exec, execSmpDec, onContext_opens s ch _ hv hc, hread, take_failed, finish_raised]

/-- Settles O42: SMP_DEC ends as the reading of its code does, and then as the range of its sample does. -/
theorem smpDecDecodesAndRebuilds : Obligations.SmpDecDecodesAndRebuilds := by
  refine fun ch s => ⟨packWord_channel _ ch, checksContext_of_onContext rfl, ?_⟩
  rintro _ u sts v hopen rfl hfilter
  refine ⟨fun hheld => ?_, fun hheld => ?_⟩
  · obtain ⟨hgot, hcut⟩ := readCode_codeBits u.isLt hheld
    refine ⟨fun hlimit => raises_smpDec_unread hopen (hcut hlimit),
      fun hlimit => ⟨fun hin => ?_, fun hout => ?_⟩⟩
    · exact exec_smpDec_inRange hopen (hgot hlimit) hfilter.symm ((inSampleRange_iff _ _).2 hin)
    · exact raises_smpDec_outOfRange hopen (hgot hlimit) hfilter ((not_inSampleRange_iff _ _).2 hout)
  · obtain ⟨hcut, hbad, -⟩ := readCode_ones u.isLt hheld
    exact ⟨fun hlimit => raises_smpDec_unread hopen (hcut hlimit),
      fun hlimit hq => raises_smpDec_unread hopen (hbad hlimit hq)⟩

end Sys2Proof.Machine
end

section
/-! SUPPORT. SMP_ENC and SMP_DEC are each two commands in one (corner cases of spec/44_frame_pipeline.md R241, R242):
a command that was counted completed, the second command finds in its context the half that the first left alone, and
its own half is put on top of the first's. -/

namespace Sys2Proof.Machine

variable {i : Instr} {s t : State} {ch : BitVec 4} {sts : List Stage} {v : Word}

/-! A command that was counted (spec/60_exceptions.md R282). -/

/-- A command that was counted did not raise. -/
theorem not_raises_of_counted (h : exec i s = .next t) (hcount : t.cmdCount = s.cmdCount + 1#32) (k : Cause) :
    ¬ raises i s k := by
  intro hraise
  rw [hraise] at h
  cases h
  exact absurd (BitVec.self_eq_add_right.1 hcount) (by decide)

/-- A command of a channel that was counted passed the checks of shape C. -/
theorem opens_of_counted (h : exec i s = .next t) (hcount : t.cmdCount = s.cmdCount + 1#32)
    (hch : channelOf i = some ch) : s.opens ch := by
  rcases exec_cases i s with ⟨k, hraise⟩ | ⟨t', -, hcompletes⟩
  · exact absurd hraise (not_raises_of_counted h hcount k)
  · cases hcompletes with
    | ecEnc _ _ _ hc | ecDec _ _ _ _ hc | ecReset _ hc | fcEnc _ hc | fcDec _ hc | fcReset _ hc
    | smpEnc _ _ _ _ _ hc | smpDec _ _ _ _ _ hc =>
      cases hch
      exact hc
    | _ => cases hch

/-- A command that ends in a store and was counted had room and completed with the bits stored. -/
theorem stored_of_counted {u : State} {bits : List Bool} (hexec : exec i s = finish i s (u.store bits))
    (h : exec i s = .next t) (hcount : t.cmdCount = s.cmdCount + 1#32) :
    hasRoom u bits ∧ t = (stored u bits).count := by
  rcases finish_store i s u bits with ⟨k, hraise⟩ | ⟨hroom, hfinish⟩
  · exact absurd (hexec.trans hraise) (not_raises_of_counted h hcount k)
  · rw [hexec, hfinish] at h
    cases h
    exact ⟨hroom, rfl⟩

/-- An update of a context that `s` has been given is given to `s` at once; at a channel without a context both do
nothing. -/
theorem setCtx_setCtx {c : Nat} {x : Ctx} (ht : t.ctxs = (s.setCtx c x).ctxs) (f : Ctx → Ctx) :
    t.setCtx c (f (t.ctx c)) = { t with ctxs := (s.setCtx c (f x)).ctxs } := by
  suffices hctxs : t.ctxs.setIfInBounds c (f (t.ctx c)) = s.ctxs.setIfInBounds c (f x) from
    congrArg (fun v => { t with ctxs := v }) hctxs
  rw [ctx_of_setCtx s t c x ht, ht, State.setCtx_ctxs]
  rcases Nat.lt_or_ge c 8 with hc | hc
  · rw [if_pos ⟨rfl, hc⟩, Vector.setIfInBounds_setIfInBounds]
  · simp only [Vector.setIfInBounds_eq_of_size_le hc]

/-! The four commands that the two pipeline commands are made of, where they are counted. -/

theorem fcEnc_counted (h : exec (.fcEnc ch) s = .next t) (hcount : t.cmdCount = s.cmdCount + 1#32)
    (hfilter : (sts, v) = filterEnc (stagesOf s.level) (s.ctx ch.toNat).stages s.argl) :
    s.opens ch ∧ inSampleRange s.depth s.argl.toInt = true ∧
      t = { s.setCtx ch.toNat { s.ctx ch.toNat with stages := sts } with
        result := v
        cmdCount := s.cmdCount + 1#32 } := by
  have hopen : s.opens ch := opens_of_counted h hcount rfl
  have hrange : inSampleRange s.depth s.argl.toInt = true := by
    by_contra hout
    exact not_raises_of_counted h hcount _ (raises_fcEnc hopen hout)
  rw [exec_fcEnc_inRange hopen hrange hfilter] at h
  cases h
  exact ⟨hopen, hrange, rfl⟩

theorem ecEnc_counted (h : exec (.ecEnc ch) s = .next t) (hcount : t.cmdCount = s.cmdCount + 1#32) :
    hasRoom s (codeBits (s.ctx ch.toNat).K.toNat (zigzag s.argl).toNat) ∧
      t = (stored (s.setCtx ch.toNat (coderUpdate s.depth (zigzag s.argl).toNat (s.ctx ch.toNat)))
        (codeBits (s.ctx ch.toNat).K.toNat (zigzag s.argl).toNat)).count :=
  stored_of_counted (exec_ecEnc (opens_of_counted h hcount rfl)) h hcount

theorem ecDec_counted (h : exec (.ecDec ch) s = .next t) (hcount : t.cmdCount = s.cmdCount + 1#32) :
    s.opens ch ∧ ∃ u p, readCode s.buf s.readLimit (s.ctx ch.toNat).K.toNat s.rpos.toNat = .got u p ∧
      t = { (takenTo s p).setCtx ch.toNat (coderUpdate s.depth u (s.ctx ch.toNat)) with
        result := unzigzag (BitVec.ofNat 32 u)
        cmdCount := s.cmdCount + 1#32 } := by
  have hopen : s.opens ch := opens_of_counted h hcount rfl
  cases hread : readCode s.buf s.readLimit (s.ctx ch.toNat).K.toNat s.rpos.toNat with
  | failed c => exact absurd (raises_ecDec hopen hread) (not_raises_of_counted h hcount c)
  | got u p =>
    rw [exec_ecDec hopen, hread, take_got, finish_done] at h
    cases h
    exact ⟨hopen, u, p, rfl, rfl⟩

theorem fcDec_counted (h : exec (.fcDec ch) s = .next t) (hcount : t.cmdCount = s.cmdCount + 1#32)
    (hfilter : (sts, v) = filterDec (stagesOf s.level) (s.ctx ch.toNat).stages s.argl) :
    inSampleRange s.depth v.toInt = true ∧
      t = { s.setCtx ch.toNat { s.ctx ch.toNat with stages := sts } with
        result := v
        cmdCount := s.cmdCount + 1#32 } := by
  have hopen : s.opens ch := opens_of_counted h hcount rfl
  have hrange : inSampleRange s.depth v.toInt = true := by
    by_contra hout
    exact not_raises_of_counted h hcount _ (raises_fcDec hopen hfilter hout)
  rw [exec_fcDec_inRange hopen hfilter hrange] at h
  cases h
  exact ⟨hrange, rfl⟩

/-! The equalities. -/

/-- Settles O43: FC_ENC keeps the K that codes the residual, and EC_ENC updates the coder state on top of FC_ENC's
stages, as SMP_ENC does in one working copy. -/
theorem smpEncIsFcEncThenEcEnc : Obligations.SmpEncIsFcEncThenEcEnc := by
  intro ch s t₁ t₂ h₁ hcount₁ h₂ hcount₂
  have hK : (State.ctx { t₁ with argl := t₁.result } ch.toNat).K = (s.ctx ch.toNat).K :=
    (exec_filter_coderState h₁ rfl rfl ch.toNat).2
  rcases hfilter : filterEnc (stagesOf s.level) (s.ctx ch.toNat).stages s.argl with ⟨sts, r⟩
  obtain ⟨hopen, hrange, ht₁⟩ := fcEnc_counted h₁ hcount₁ hfilter.symm
  obtain ⟨hroom, ht₂⟩ := ecEnc_counted h₂ hcount₂
  rw [hK] at hroom ht₂
  rw [setCtx_setCtx (by rw [ht₁]) (coderUpdate _ _)] at ht₂
  subst ht₁ ht₂
  rw [exec_smpEnc_inRange hopen hrange hfilter, store_fits]
  · rfl
  · exact hroom

/-- Settles O44: EC_DEC keeps the stages that rebuild the sample, and FC_DEC puts its own stages on top of EC_DEC's
coder state, as SMP_DEC does in one working copy. -/
theorem smpDecIsEcDecThenFcDec : Obligations.SmpDecIsEcDecThenFcDec := by
  intro ch s t₁ t₂ h₁ hcount₁ h₂ hcount₂
  have hstages : (State.ctx { t₁ with argl := t₁.result } ch.toNat).stages = (s.ctx ch.toNat).stages :=
    exec_coder_stages h₁ rfl rfl ch.toNat
  obtain ⟨hopen, u, p, hread, ht₁⟩ := ecDec_counted h₁ hcount₁
  obtain ⟨hrange, ht₂⟩ := fcDec_counted h₂ hcount₂ rfl
  rw [setCtx_setCtx (by rw [ht₁]) fun c => { c with stages := _ }, hstages] at ht₂
  rw [hstages] at hrange
  subst ht₁ ht₂
  rw [exec_smpDec_got hopen hread rfl, if_pos]
  · rfl
  · exact hrange

end Sys2Proof.Machine
end

section
/-! SUPPORT. The control commands (spec/45_control.md): their words, that they run while an error is pending, and what
the registers read after SOFT_RESET. -/

namespace Sys2Proof.Machine

/-! The words of the shape-Z commands (spec/30_encoding.md R122, R126). -/

/-- The opcode of a shape-Z command has one legal word, the command's own: every other word with this OP holds a
reserved field that is not 0. -/
theorem decode_shapeZ_otherWord {op : BitVec 8} {i : Instr} {word : Word}
    (hrow : opcodeRow op.toNat = some (.shapeZ i)) (henc : encode i = word) (w : Word) (hop : opField w = op)
    (hne : w ≠ word) : decode w = .illegal .reservedField := by
  subst hop henc
  exact decode_unusedField hrow fun hz => hne (encode_instr hrow hz trivial).2.symm

/-- The control commands are the commands that run while an error is pending (spec/60_exceptions.md R285). -/
theorem runsWhilePending_encode_iff (i : Instr) :
    runsWhilePending (encode i) = true ↔ i = .nop ∨ i = .softReset ∨ i = .clrErr := by
  cases i <;> simp [runsWhilePending, encode]

/-! SOFT_RESET (R261). -/

/-- SOFT_RESET draws the contexts anew, but no register shows one: CFG_VALID is 0, so DBG_K and DBG_S read 0
(spec/10_state.md R56, R57). -/
theorem State.softReset_debugCtx (s : State) : s.softReset.debugCtx = none := by
  simp [State.debugCtx, State.reset]

theorem State.softReset_readReg (s : State) (r : Reg) : s.softReset.readReg r = State.reset.readReg r := by
  cases r with
  | dbgK | dbgS => simp only [State.readReg, State.softReset_debugCtx]; rfl
  | _ => rfl

/-! The commands. -/

/-- Settles O15: NOP's working copy is the state it found, and OP 0 has the zero word alone. -/
theorem nopOnlyCounts : Obligations.NopOnlyCounts := by
  have henc : encode .nop = 0#32 := by decide
  refine ⟨henc, (runsWhilePending_encode_iff _).2 (.inl rfl), decode_shapeZ_otherWord rfl henc, fun s => ?_⟩
  exact finish_done .nop s s

/-- Settles O16: SOFT_RESET leaves `State.softReset`, in which every register that shows no context is the reset state's
own field. -/
theorem softResetRestoresRegisters : Obligations.SoftResetRestoresRegisters := by
  have henc : encode .softReset = 0x01000000#32 := by decide
  refine ⟨henc, (runsWhilePending_encode_iff _).2 (.inr (.inl rfl)), decode_shapeZ_otherWord rfl henc, fun s => ?_⟩
  exact ⟨s.softReset, rfl, s.softReset_readReg, rfl, rfl, rfl, rfl, rfl, rfl, rfl, rfl, rfl, rfl, rfl⟩

/-- Settles O17: CLR_ERR's working copy is `State.clearError`, which writes ERR and CAUSE alone. -/
theorem clrErrClearsOnlyTheError : Obligations.ClrErrClearsOnlyTheError := by
  have henc : encode .clrErr = 0x02000000#32 := by decide
  refine ⟨henc, (runsWhilePending_encode_iff _).2 (.inr (.inr rfl)), decode_shapeZ_otherWord rfl henc, fun s => ?_⟩
  exact finish_done .clrErr s s.clearError

end Sys2Proof.Machine
end

section
/-! SUPPORT. Errors (spec/60_exceptions.md): the word that CAUSE records (R283), the core's step of a legal word, and
the host's step of a CMD write (R282, R285). -/

namespace Sys2Proof.Machine

/-! The word of CAUSE (R283). -/

/-- CODE, OP and CH lie side by side in CAUSE (spec/10_state.md R43). -/
theorem causeWord_toNat (k : Cause) (w : Word) :
    (causeWord k w).toNat = k.code.toNat + 2 ^ 8 * (opField w).toNat + 2 ^ 16 * (chField w).toNat := by
  have hcode := k.code.isLt
  have hop := (opField w).isLt
  have happend : (causeWord k w).toNat =
      ((chField w).toNat <<< 8 ||| (opField w).toNat) <<< 8 ||| k.code.toNat := by
    simp only [causeWord, BitVec.toNat_append]
  rw [happend, ← Nat.shiftLeft_add_eq_or_of_lt hop, ← Nat.shiftLeft_add_eq_or_of_lt hcode]
  simp only [Nat.shiftLeft_eq]
  omega

/-- Settles O5: CAUSE is written under the one condition that ERR is 0, as `causeWord`; the table of R281 is fixed. -/
theorem recordErrorKeepsTheFirstCause : Obligations.RecordErrorKeepsTheFirstCause := by
  refine ⟨fun s k w => ⟨rfl, fun hpending => ?_, fun hnone => ?_⟩, by decide⟩
  · exact if_neg hpending
  · rw [State.recordError_cause, if_pos hnone, causeWord_toNat]

/-! The core's step of a command (R282). -/

/-- Settles O4: the core's turn retires the state that the command leaves, and passes any other outcome on. -/
theorem stepRunsTheDecodedCommand : Obligations.StepRunsTheDecodedCommand := by
  intro s i hready hd
  have hstep := (step_core s hready).trans (coreTurn_cmd s i hd)
  refine ⟨fun t he => ?_, fun r he => ?_, fun r he => ?_⟩
  · rw [hstep, he]
    rfl
  · rw [hstep, he]
  · rw [hstep, he]

/-! The CMD write (R282, R285). -/

/-- The words that run while an error is pending, by the number of their OP. -/
theorem runsWhilePending_iff (w : Word) : runsWhilePending w = true ↔ (opField w).toNat ∈ [0x00, 0x01, 0x02] := by
  simp [runsWhilePending, BitVec.toNat_eq, or_assoc]

/-- A register write while BUSY is 0 is the register's own (spec/20_memory.md R84). -/
theorem hostWrite_register {s : State} {width : Width} {offset : Nat} {r : Reg} (v : Word)
    (hreg : access width offset = .reg r) (hb : s.busy = false) :
    hostWrite width offset v s = .next (s.writeReg r v) := by
  simp [hostWrite, hreg, hb]

/-- The host's step of a CMD write while BUSY is 0 issues the word (spec/10_state.md R33). -/
theorem step_writeCmd {s : State} {w : Word} {rest : List HostOp} (hh : s.host = .write .w32 0x010 w :: rest)
    (hb : s.busy = false) (hr : s.resetInput = false) :
    step s = .next (({ s with host := rest, delay := s.delay - 1 } : State).issue w) := by
  have hidle : s.coreReady = false := by simp [State.coreReady, hb]
  rw [step_write s _ _ w rest hh hidle hr]
  exact hostWrite_register w (access_offset .cmd) hb

/-- Settles O48: the step is `State.issue`, which takes its decision from ERR and OP as the write finds them. -/
theorem cmdWriteIssuesOrSkips : Obligations.CmdWriteIssuesOrSkips := by
  intro s w rest hh hb hr
  rw [step_writeCmd hh hb hr, ← runsWhilePending_iff, Bool.not_eq_true]
  exact ⟨fun hruns => ⟨_, _, congrArg _ (issue_latches _ w hruns)⟩,
    fun hpending hskip => ⟨_, congrArg _ (issue_skips _ w hpending hskip)⟩⟩

end Sys2Proof.Machine
end

section
/-! SUPPORT. CONFIG is read by FRAME_START alone (spec/70_reset_and_hazards.md R333): putting another value into CONFIG
commutes with every shared operation, and so with every other command that does not overwrite it. -/

namespace Sys2Proof.Machine

/-- The state with another value in CONFIG. -/
def State.withConfig (s : State) (v : Word) : State := { s with config := v }

/-- The effect with another value in the CONFIG of its working copy. -/
def Effect.withConfig (v : Word) : Effect → Effect
  | .done t => .done (t.withConfig v)
  | .raised k => .raised k

variable {i : Instr} {s t : State} {v : Word}

/-! The shared operations commute with a change of CONFIG. -/

theorem Effect.withConfig_ite {p : Prop} [Decidable p] {e e' f f' : Effect} (he : e' = e.withConfig v)
    (hf : f' = f.withConfig v) : (if p then e' else f') = (if p then e else f).withConfig v := by
  rw [apply_ite (Effect.withConfig v), he, hf]

theorem store_withConfig (s : State) (bits : List Bool) :
    (s.withConfig v).store bits = (s.store bits).withConfig v :=
  Effect.withConfig_ite rfl rfl

theorem take_withConfig (r : Taken) {body body' : State → Nat → Effect}
    (hb : ∀ t x, body' (t.withConfig v) x = (body t x).withConfig v) :
    (s.withConfig v).take r body' = (s.take r body).withConfig v := by
  cases r with
  | failed k => rfl
  | got x p => exact hb { s with rpos := BitVec.ofNat 20 p } x

theorem onWidth_withConfig (n : BitVec 6) {body body' : Nat → Effect} (hb : ∀ k, body' k = (body k).withConfig v) :
    onWidth n body' = (onWidth n body).withConfig v :=
  Effect.withConfig_ite rfl (hb _)

theorem onContext_withConfig (ch : BitVec 4) {body body' : Ctx → Effect}
    (hb : ∀ c, body' c = (body c).withConfig v) :
    onContext (s.withConfig v) ch body' = (onContext s ch body).withConfig v :=
  Effect.withConfig_ite rfl (Effect.withConfig_ite rfl (hb _))

/-- The error record does not read CONFIG either, so both ends of a command pass the change on. -/
theorem finish_withConfig {e e' : Effect} (he : e' = e.withConfig v) (h : finish i s e = .next t) :
    finish i (s.withConfig v) e' = .next (t.withConfig v) := by
  subst he
  cases e with
  | done u =>
    cases h
    rfl
  | raised k =>
    cases h
    rfl

/-! The commands. -/

/-- A command that is neither FRAME_START nor SOFT_RESET carries a change of CONFIG through. -/
theorem exec_withConfig (hf : i ≠ .frameStart) (hi : i ≠ .softReset) (h : exec i s = .next t) :
    exec i (s.withConfig v) = .next (t.withConfig v) := by
  cases i with
  | frameStart => exact absurd rfl hf
  | softReset => exact absurd rfl hi
  | nop | clrErr =>
    cases h
    rfl
  | bwBits n => exact finish_withConfig (onWidth_withConfig n fun _ => store_withConfig s _) h
  | brBits n | brSbits n =>
    exact finish_withConfig (onWidth_withConfig n fun _ => take_withConfig _ fun _ _ => rfl) h
  | bwUnary => exact finish_withConfig (Effect.withConfig_ite rfl (store_withConfig s _)) h
  | brUnary | brAlign => exact finish_withConfig (take_withConfig _ fun _ _ => rfl) h
  | bwFlush => exact finish_withConfig (store_withConfig s _) h
  | ecEnc ch =>
    exact finish_withConfig (onContext_withConfig ch fun _ => store_withConfig (s.setCtx _ _) _) h
  | ecDec ch => exact finish_withConfig (onContext_withConfig ch fun _ => take_withConfig _ fun _ _ => rfl) h
  | ecReset ch | fcReset ch => exact finish_withConfig (onContext_withConfig ch fun _ => rfl) h
  | fcEnc ch | fcDec ch =>
    exact finish_withConfig (onContext_withConfig ch fun _ => Effect.withConfig_ite rfl rfl) h
  | smpEnc ch =>
    exact finish_withConfig
      (onContext_withConfig ch fun _ =>
        Effect.withConfig_ite (store_withConfig { s.setCtx _ _ with result := _ } _) rfl) h
  | smpDec ch =>
    exact finish_withConfig
      (onContext_withConfig ch fun _ => take_withConfig _ fun _ _ => Effect.withConfig_ite rfl rfl) h

/-- Settles O11: the other commands carry a change of CONFIG through, and `State.softReset` takes no register of the
state it finds. -/
theorem configIsReadOnlyByFrameStart : Obligations.ConfigIsReadOnlyByFrameStart := by
  intro i s t v hf h
  refine ⟨fun hi => exec_withConfig hf hi h, fun hi => ?_⟩
  subst hi
  exact h

end Sys2Proof.Machine
end

section
/-! SUPPORT. The reset state and the reset input (spec/70_reset_and_hazards.md R320, R322): the host's step at an
assertion, at a release and at an access in between. -/

namespace Sys2Proof.Machine

variable {s : State} {rest : List HostOp}

/-- Settles O14: the core is unconfigured, without an error and idle, and the buffer is empty. -/
theorem resetStateIsWellFormed : Obligations.ResetStateIsWellFormed where
  buf := bufWf_reset
  active := nofun
  contexts := nofun
  idle := fun _ => rfl
  noCause := fun _ => rfl
  someCause := fun he => absurd rfl he
  reset := fun _ => rfl

/-- While the reset input is asserted it is the host that moves (R320). -/
theorem coreReady_of_resetInput (hr : s.resetInput = true) : s.coreReady = false := by
  simp [State.coreReady, hr]

/-- The assertion discards the command in flight (R322). -/
theorem step_assertReset (hcore : s.coreReady = false) (hh : s.host = .assertReset :: rest) :
    step s = .next { s with host := rest, resetInput := true, busy := false, delay := 0 } := by
  rw [step_host s hcore, hostTurn, hh]

/-- The release is a SOFT_RESET of a state with the buffer drawn anew (R320). -/
theorem step_releaseReset (hr : s.resetInput = true) (hh : s.host = .releaseReset :: rest) :
    step s = .next (State.softReset { s with
      host := rest, buf := ofCells (Config.powerOnCells s.draws), resetInput := false }) := by
  rw [step_host s (coreReady_of_resetInput hr), hostTurn, hh]
  exact if_pos hr

/-- While the reset input is asserted the host must not access the window (R320). -/
theorem step_access_duringReset {width : Width} {offset : Nat} {v : Word} (hr : s.resetInput = true)
    (hh : s.host = .read width offset :: rest ∨ s.host = .write width offset v :: rest ∨ s.host = .wait :: rest) :
    step s = .refused .accessDuringReset := by
  rw [step_host s (coreReady_of_resetInput hr)]
  rcases hh with hh | hh | hh <;> simp [hostTurn, hh, hr]

/-- Settles O47: the registers after the release are those after a SOFT_RESET. -/
theorem powerOnResetRestoresRegisters : Obligations.PowerOnResetRestoresRegisters := by
  intro s rest
  refine ⟨fun hcore hh => ⟨_, step_assertReset hcore hh, rfl, rfl, rfl⟩, fun hr => ⟨fun hh => ?_, ?_⟩⟩
  · exact ⟨_, step_releaseReset hr hh, State.softReset_readReg _, rfl, rfl, rfl, rfl, rfl, rfl, bufWf_ofCells _⟩
  · exact fun width offset v hh => step_access_duringReset hr hh

end Sys2Proof.Machine
end

section
/-! SUPPORT. A host at a WAIT (spec/30_encoding.md R130): its polls while the command is in flight, the core's step of
the command, and the poll that ends the WAIT (spec/70_reset_and_hazards.md R331). -/

namespace Sys2Proof.Machine

variable {s m t : State} {rest : List HostOp}

/-- A run goes on from the state that its first part reaches. -/
theorem run_add {k : Nat} (j : Nat) (h : Host.Core.run Sys2Proof.core k s = .next m) :
    Host.Core.run Sys2Proof.core (k + j) s = Host.Core.run Sys2Proof.core j m := by
  induction k generalizing s with
  | zero =>
    cases h
    rw [Nat.zero_add]
  | succ k ih =>
    rw [Nat.add_right_comm]
    cases hs : step s with
    | next u =>
      rw [run_next _ _ _ hs] at h ⊢
      exact ih h
    | fault r => cases r
    | refused r =>
      have hs' : Sys2Proof.core.step s = .refused r := hs
      simp only [Host.Core.run, hs'] at h
      cases h

theorem run_succ {k : Nat} (h : Host.Core.run Sys2Proof.core k s = .next m) (hstep : step m = .next t) :
    Host.Core.run Sys2Proof.core (k + 1) s = .next t := by
  rw [run_add 1 h, run_next 0 m t hstep]
  rfl

/-! The polls. -/

/-- A poll before the core's step answers BUSY = 1 and leaves the host at the WAIT. -/
theorem step_poll_busy {d : Nat} (hb : s.busy = true) (hr : s.resetInput = false) (hh : s.host = .wait :: rest)
    (hd : s.delay = d + 1) :
    ∃ (v : Word) (n : Nat), v.getLsbD 0 = true ∧
      step s = .next { s with delay := d, answers := v :: s.answers, draws := n } := by
  have hcore : s.coreReady = false := by simp [State.coreReady, hd, hh]
  obtain ⟨v, n, hread, -, -, hv⟩ := busyReadReg_eq { s with delay := d } .status
  refine ⟨v, n, hv rfl, ?_⟩
  rw [step_wait s rest hh hcore hr, hd]
  exact (if_pos hb).trans (congrArg _ hread)

/-- The polls before the core's step are as many as `delay` holds (log entry 6), and each answers BUSY = 1. -/
theorem run_polls_busy (hb : s.busy = true) (hr : s.resetInput = false) (hh : s.host = .wait :: rest) :
    ∃ (polls : List Word) (n : Nat), polls.length = s.delay ∧ (∀ w ∈ polls, w.getLsbD 0 = true) ∧
      Host.Core.run Sys2Proof.core s.delay s =
        .next { s with delay := 0, answers := polls ++ s.answers, draws := n } := by
  induction hd : s.delay generalizing s with
  | zero =>
    have hs : s = { s with delay := 0 } := by rw [← hd]
    exact ⟨[], s.draws, rfl, nofun, congrArg Host.Outcome.next hs⟩
  | succ d ih =>
    obtain ⟨v, n, hv, hstep⟩ := step_poll_busy hb hr hh hd
    obtain ⟨polls, n', hlen, hpolls, hrun⟩ :=
      ih (s := { s with delay := d, answers := v :: s.answers, draws := n }) hb hr hh rfl
    refine ⟨polls ++ [v], n', by simp [hlen], ?_, ?_⟩
    · simpa [or_imp, forall_and, hv] using hpolls
    · rw [run_next d s _ hstep, hrun, List.append_assoc]
      rfl

/-- The poll after the core's step answers BUSY = 0 and ends the WAIT. -/
theorem step_poll_idle (hb : s.busy = false) (hr : s.resetInput = false) (hh : s.host = .wait :: rest) :
    step s = .next { s with host := rest, delay := s.delay - 1, answers := s.status :: s.answers } := by
  rw [step_wait s rest hh (coreReady_of_idle hb) hr]
  exact if_neg (Bool.eq_false_iff.1 hb)

/-! The core's step. -/

/-- A command leaves the host's side as it found it, whether it completes or raises. -/
theorem exec_hostSide {i : Instr} (h : exec i s = .next t) :
    t.host = s.host ∧ t.answers = s.answers ∧ t.resetInput = s.resetInput := by
  rcases exec_next i s t h with ⟨k, rfl⟩ | hc
  · exact ⟨rfl, rfl, rfl⟩
  · exact hc.hostSide

/-- What the core's step makes of the latched word: the state that its command leaves, or the error of an illegal word,
with BUSY 0 (spec/60_exceptions.md R282). -/
def retiredFrom (s t : State) : Prop :=
  (∀ i, decode s.cmdl = .cmd i → ∃ t', exec i s = .next t' ∧ t = { t' with busy := false }) ∧
    ∀ why, decode s.cmdl = .illegal why → t = { s.recordError (illegalCause why) s.cmdl with busy := false }

/-- The core's step always ends in a next state, with BUSY 0 and the host's side as it was. -/
theorem step_core_retires (hready : s.coreReady = true) :
    ∃ t, step s = .next t ∧ retiredFrom s t ∧
      t.busy = false ∧ t.host = s.host ∧ t.answers = s.answers ∧ t.resetInput = s.resetInput := by
  cases hd : decode s.cmdl with
  | cmd i =>
    obtain ⟨t', he⟩ := exec_is_next i s
    obtain ⟨hhost, hanswers, hreset⟩ := exec_hostSide he
    refine ⟨t'.retire, ?_, ⟨?_, ?_⟩, rfl, hhost, hanswers, hreset⟩
    · rw [step_core s hready, coreTurn_cmd s i hd, he]
    · rintro j hj
      cases hd.symm.trans hj
      exact ⟨t', he, rfl⟩
    · intro why hwhy
      cases hd.symm.trans hwhy
  | illegal why =>
    refine ⟨_, step_illegal why hready hd, ⟨?_, ?_⟩, rfl, rfl, rfl, rfl⟩
    · intro i hi
      cases hd.symm.trans hi
    · intro why' hwhy
      cases hd.symm.trans hwhy
      rfl

/-- Settles O56: the polls reach a state in which the core is ready, the core's step leaves the host at its WAIT, and
the poll after it answers STATUS with BUSY 0. -/
theorem commandInFlightCompletes : Obligations.CommandInFlightCompletes := by
  intro s rest hb hr hh
  obtain ⟨polls, n, hlen, hpolls, hrun⟩ := run_polls_busy hb hr hh
  obtain ⟨t, hstep, ⟨hcmd, hillegal⟩, htb, hth, hta, htr⟩ :=
    step_core_retires (s := { s with delay := 0, answers := polls ++ s.answers, draws := n })
      ((coreReady_iff _).2 ⟨hb, hr, .inl rfl⟩)
  have hturn := run_succ hrun hstep
  refine ⟨polls, n, _, t, t.status, hlen, hpolls, rfl, hrun, hcmd, hillegal, hturn, htb, hth, hta, ?_, ?_⟩
  · exact run_succ hturn (step_poll_idle htb (htr.trans hr) (hth.trans hh))
  · rw [status_getLsbD, if_pos rfl, htb]

end Sys2Proof.Machine
end
